-- ==== Sys2Proof/Word.lean ====
section
/-! DEFINITION. The one word type of the block: the byte (R6). -/

namespace Sys2Proof

/-- R6: "A byte is 8 bits and is read as an unsigned number 0 to 255." -/
abbrev Byte := BitVec 8

end Sys2Proof
end

