-- ==== Sys2Proof/Config.lean ====
section
/-! DEFINITION. What one block fixes (the marker, the capacity after reset) and the free values. -/

namespace Sys2Proof.Config

/-- R5: `MARKER = 0xFF`; the marker of a frame is this byte twice. -/
def marker : Byte := 0xFF

/-- The capacity of the assembler in `State.reset`.
DESIGN CHOICE (entry 4, unsafe): R4 and D13 leave `CAP` to the integration; 257 is the least capacity that rejects no
declared length (R14). Every meaning works with the `CAP` in the state, whatever it is. -/
abbrev resetCapacity : Nat := 257

/-- R14, D13: the least capacity that construction accepts. -/
abbrev minCapacity : Nat := 3

/-- The bytes that `BUILD.WRITE_REG` leaves unwritten (R121, D19, U12: "any value"). A free value (entry 7): nothing
constrains it, and the state's `freeCount` gives each use a fresh argument. -/
opaque freeByte : Nat → Byte

/-- The bytes of the lines that never run dry (R35: "finite or not"), by line and by position. Free values (entry 8): the
environment decides them. -/
opaque lineByte : Nat → Nat → Byte

end Sys2Proof.Config
end

