-- ==== Sys2Proof/Syntax.lean ====
section
/-! DEFINITION. The operations of the block and the received bytes of the line: one constructor for each row of
`spec/opcode_table.json` (R60, R65). -/

namespace Sys2Proof

/-- Which region a codec operation works on (R30: the operand region "supplied by the consumer"; entry 11). -/
inductive RegionRef where
  /-- the consumer's operand region `r` (R16 (b)) -/
  | operand
  /-- the region `w[2..)` of the consumer's wire image (R64) -/
  | image
  /-- the read-only region that `ASM.FRAME` exposes (R101) -/
  | frame
  deriving DecidableEq, Repr

/-- One request to the block, or bytes that reach it over the line. -/
inductive Instr where
  /-- `WIRE.MARKER_BYTE` (R5): one marker byte is received. -/
  | wireMarkerByte
  /-- `WIRE.FRAME` (R50): marker pair, id, length byte, then `body`, the payload and the checksum as they are on the
  wire. The length byte is the number of bytes of `body`, 0 included (R63). -/
  | wireFrame (id : Byte) (body : List Byte)
  /-- `WIRE.READ_REG` (R55): a frame of length 4 whose payload is `[0x02, address, length]`. -/
  | wireReadReg (id address length checksum : Byte)
  /-- `WIRE.WRITE_REG` (R56): a frame of length `3 + n` whose payload is `[0x03, address, data[0..n]]`. -/
  | wireWriteReg (id address : Byte) (data : List Byte) (checksum : Byte)
  /-- `ASM.NEW(CAP)` (R90). -/
  | asmNew (cap : Nat)
  /-- `ASM.READ` (R91). -/
  | asmRead
  /-- `ASM.FRAME` (R101). -/
  | asmFrame
  /-- `FRAME.ID(r)` (R72). -/
  | frameId (r : RegionRef)
  /-- `FRAME.LENGTH(r)` (R73). -/
  | frameLength (r : RegionRef)
  /-- `FRAME.PAYLOAD(r)` (R74). -/
  | framePayload (r : RegionRef)
  /-- `FRAME.CHECKSUM(r)` (R75). -/
  | frameChecksum (r : RegionRef)
  /-- `FRAME.VERIFY(r)` (R76). -/
  | frameVerify (r : RegionRef)
  /-- `FRAME.SET_ID(r, v)` (R77). -/
  | frameSetId (r : RegionRef) (v : Byte)
  /-- `FRAME.SET_LENGTH(r, v)` (R78). -/
  | frameSetLength (r : RegionRef) (v : Byte)
  /-- `FRAME.PAYLOAD_MUT(r, off, v)` (R79). -/
  | framePayloadMut (r : RegionRef) (off : Nat) (v : List Byte)
  /-- `FRAME.UPDATE_CHECKSUM(r)` (R80). -/
  | frameUpdateChecksum (r : RegionRef)
  /-- `BUILD.READ_REG(id, address, length)` (R120). -/
  | buildReadReg (id address length : Byte)
  /-- `BUILD.WRITE_REG(id, address, data_len)` (R121). -/
  | buildWriteReg (id address : Byte) (dataLen : Nat)
  /-- `FRAME.ENCODE(id, payload)` (R123). -/
  | frameEncode (id : Byte) (payload : List Byte)
  deriving DecidableEq, Repr

end Sys2Proof
end

