-- ==== Sys2Proof/WellFormed.lean ====
section
/-! DEFINITION. Which instructions are well formed: the operand ranges that the rules require and that a request can
carry. The meanings do not rest on it: an ill-formed instruction is refused by its meaning where a rule says so. -/

namespace Sys2Proof

/-- R154: "a mutator applied to the read-only region of `ASM.FRAME`" has no meaning. -/
def RegionRef.writable : RegionRef → Bool
  | .operand => true
  | .image => true
  | .frame => false

/-- R55: the payload and checksum bytes of a Read-Register command (length byte 4, command `0x02`). -/
def isReadRegBody : List Byte → Bool
  | [cmd, _, _, _] => cmd == 0x02
  | _ => false

/-- R56: the payload and checksum bytes of a Write-Register command (length byte at least 3, command `0x03`). -/
def isWriteRegBody : List Byte → Bool
  | cmd :: _ :: _ :: _ => cmd == 0x03
  | _ => false

/-- The operand checks, row by row. `wireFrame` stands for the frames that carry neither command (R65: the command rows
are refinements of the frame row), so that each wire image is one instruction. -/
def Instr.wf : Instr → Bool
  | .wireMarkerByte => true
  | .wireFrame _ body => decide (body.length ≤ 255) && !isReadRegBody body && !isWriteRegBody body
  | .wireReadReg _ _ _ _ => true
  | .wireWriteReg _ _ data _ => decide (data.length ≤ 252)
  | .asmNew cap => decide (Config.minCapacity ≤ cap) && decide (cap < Config.minCapacity + 4294967296)
  | .asmRead => true
  | .asmFrame => true
  | .frameId _ => true
  | .frameLength _ => true
  | .framePayload _ => true
  | .frameChecksum _ => true
  | .frameVerify _ => true
  | .frameSetId r _ => r.writable
  | .frameSetLength r _ => r.writable
  | .framePayloadMut r off v => r.writable && decide (off + v.length ≤ 254)
  | .frameUpdateChecksum r => r.writable
  | .buildReadReg _ _ _ => true
  | .buildWriteReg _ _ dataLen => decide (dataLen ≤ 252)
  | .frameEncode _ payload => decide (payload.length ≤ 254)

end Sys2Proof
end

