-- ==== Sys2Proof/Decode.lean ====
section
/-! DEFINITION. From the bytes of a request to the instruction, total and rejecting by name, and back (`encode`). Wire
images follow R50 to R58; operations start with the selector byte of R61, which no wire image shares (a wire image starts
with the marker byte). The layout of an operation's operand bytes is the model's: entry 1, DESIGN CHOICE. -/

namespace Sys2Proof

/-- Why the bytes of a request are no instruction. -/
inductive DecodeError where
  /-- no byte at all -/
  | empty
  /-- the bytes end before the frame's or the operands' end (R58; entry 1) -/
  | truncated
  /-- R61: "A selector value not in the table selects no operation and is refused." -/
  | unknownSelector (op : Byte)
  /-- an operand byte that names none of the three regions (entry 1) -/
  | unknownRegion (code : Byte)
  deriving DecidableEq, Repr

/-- The outcome of decoding: an instruction and the bytes after it, or a rejection by name. -/
inductive Decoded where
  | instr (i : Instr) (rest : List Byte)
  | rejected (e : DecodeError)
  deriving DecidableEq, Repr

/-! ### Operand bytes (entry 1) -/

def RegionRef.code : RegionRef → Byte
  | .operand => 0
  | .image => 1
  | .frame => 2

def RegionRef.ofCode (b : Byte) : Option RegionRef :=
  if b = 0 then some .operand
  else if b = 1 then some .image
  else if b = 2 then some .frame
  else none

/-- A number below 2^32 as four bytes, least significant first. -/
def word32Bytes (n : Nat) : List Byte :=
  [BitVec.ofNat 8 n, BitVec.ofNat 8 (n / 256), BitVec.ofNat 8 (n / 65536), BitVec.ofNat 8 (n / 16777216)]

def takeByte (bs : List Byte) (k : Byte → List Byte → Decoded) : Decoded :=
  match bs with
  | b :: rest => k b rest
  | [] => .rejected .truncated

def takeRegion (bs : List Byte) (k : RegionRef → List Byte → Decoded) : Decoded :=
  takeByte bs fun b rest =>
    match RegionRef.ofCode b with
    | some r => k r rest
    | none => .rejected (.unknownRegion b)

def takeWord32 (bs : List Byte) (k : Nat → List Byte → Decoded) : Decoded :=
  match bs with
  | b0 :: b1 :: b2 :: b3 :: rest =>
    k (b0.toNat + 256 * b1.toNat + 65536 * b2.toNat + 16777216 * b3.toNat) rest
  | _ => .rejected .truncated

/-- The next `n` bytes. -/
def takeCount (n : Nat) (bs : List Byte) (k : List Byte → List Byte → Decoded) : Decoded :=
  if bs.length < n then .rejected .truncated else k (bs.take n) (bs.drop n)

/-- A byte sequence: its length in one byte, then its bytes. -/
def takeSequence (bs : List Byte) (k : List Byte → List Byte → Decoded) : Decoded :=
  takeByte bs fun n rest => takeCount n.toNat rest k

def sequenceBytes (v : List Byte) : List Byte := BitVec.ofNat 8 v.length :: v

/-! ### Wire images -/

/-- R65: the command rows are refinements of the frame row: `[0x02, address, length]` in a frame of length 4 is
Read-Register (R55), `[0x03, address, data]` is Write-Register (R56), anything else is a frame, one of declared length 0
included (entry 20). `body` is payload and checksum. -/
def classifyFrame (id : Byte) (body : List Byte) : Instr :=
  match body with
  | cmd :: address :: c :: more =>
    if cmd = 0x03 then .wireWriteReg id address ((c :: more).dropLast) ((c :: more).getLast (by simp))
    else
      match more with
      | [checksum] => if cmd = 0x02 then .wireReadReg id address c checksum else .wireFrame id body
      | _ => .wireFrame id body
  | _ => .wireFrame id body

/-- R58: after the marker pair, "it takes two bytes as `id` and `length`, then exactly `length` further bytes, the last
of which is the checksum". A marker byte that no second marker byte follows is the marker-byte row by itself. -/
def decodeWire (bs : List Byte) : Decoded :=
  match bs with
  | [] => .instr .wireMarkerByte []
  | b :: rest =>
    if b = Config.marker then
      takeByte rest fun id rest =>
        takeByte rest fun len rest =>
          takeCount len.toNat rest fun body rest => .instr (classifyFrame id body) rest
    else .instr .wireMarkerByte (b :: rest)

/-! ### Operations -/

/-- R61: the selector table. -/
def decodeOp (op : Byte) (bs : List Byte) : Decoded :=
  match op.toNat with
  | 0x00 => takeWord32 bs fun n rest => .instr (.asmNew (Config.minCapacity + n)) rest
  | 0x01 => .instr .asmRead bs
  | 0x02 => .instr .asmFrame bs
  | 0x10 => takeRegion bs fun r rest => .instr (.frameId r) rest
  | 0x11 => takeRegion bs fun r rest => .instr (.frameLength r) rest
  | 0x12 => takeRegion bs fun r rest => .instr (.framePayload r) rest
  | 0x13 => takeRegion bs fun r rest => .instr (.frameChecksum r) rest
  | 0x14 => takeRegion bs fun r rest => .instr (.frameVerify r) rest
  | 0x18 => takeRegion bs fun r rest => takeByte rest fun v rest => .instr (.frameSetId r v) rest
  | 0x19 => takeRegion bs fun r rest => takeByte rest fun v rest => .instr (.frameSetLength r v) rest
  | 0x1A => takeRegion bs fun r rest => takeByte rest fun off rest =>
      takeSequence rest fun v rest => .instr (.framePayloadMut r off.toNat v) rest
  | 0x1B => takeRegion bs fun r rest => .instr (.frameUpdateChecksum r) rest
  | 0x20 => takeByte bs fun id rest => takeByte rest fun address rest =>
      takeByte rest fun len rest => .instr (.buildReadReg id address len) rest
  | 0x21 => takeByte bs fun id rest => takeByte rest fun address rest =>
      takeByte rest fun n rest => .instr (.buildWriteReg id address n.toNat) rest
  | 0x22 => takeByte bs fun id rest => takeSequence rest fun payload rest => .instr (.frameEncode id payload) rest
  | _ => .rejected (.unknownSelector op)

/-- The bytes of one request, read from the first. -/
def decode (bs : List Byte) : Decoded :=
  match bs with
  | [] => .rejected .empty
  | b :: rest => if b = Config.marker then decodeWire rest else decodeOp b rest

/-! ### The encoder -/

/-- R50: the wire image of a frame whose payload and checksum are `body`. -/
def wireBytes (id : Byte) (body : List Byte) : List Byte :=
  Config.marker :: Config.marker :: id :: BitVec.ofNat 8 body.length :: body

/-- R61: the selector of an operation; for the wire rows, their first byte. -/
def Instr.firstByte : Instr → Byte
  | .wireMarkerByte => Config.marker
  | .wireFrame _ _ => Config.marker
  | .wireReadReg _ _ _ _ => Config.marker
  | .wireWriteReg _ _ _ _ => Config.marker
  | .asmNew _ => 0x00
  | .asmRead => 0x01
  | .asmFrame => 0x02
  | .frameId _ => 0x10
  | .frameLength _ => 0x11
  | .framePayload _ => 0x12
  | .frameChecksum _ => 0x13
  | .frameVerify _ => 0x14
  | .frameSetId _ _ => 0x18
  | .frameSetLength _ _ => 0x19
  | .framePayloadMut _ _ _ => 0x1A
  | .frameUpdateChecksum _ => 0x1B
  | .buildReadReg _ _ _ => 0x20
  | .buildWriteReg _ _ _ => 0x21
  | .frameEncode _ _ => 0x22

/-- The bytes of a request for the instruction. -/
def encode (i : Instr) : List Byte :=
  match i with
  | .wireMarkerByte => [Config.marker]
  | .wireFrame id body => wireBytes id body
  | .wireReadReg id address length checksum => wireBytes id [0x02, address, length, checksum]
  | .wireWriteReg id address data checksum => wireBytes id (0x03 :: address :: (data ++ [checksum]))
  | .asmNew cap => i.firstByte :: word32Bytes (cap - Config.minCapacity)
  | .asmRead => [i.firstByte]
  | .asmFrame => [i.firstByte]
  | .frameId r => [i.firstByte, r.code]
  | .frameLength r => [i.firstByte, r.code]
  | .framePayload r => [i.firstByte, r.code]
  | .frameChecksum r => [i.firstByte, r.code]
  | .frameVerify r => [i.firstByte, r.code]
  | .frameSetId r v => [i.firstByte, r.code, v]
  | .frameSetLength r v => [i.firstByte, r.code, v]
  | .framePayloadMut r off v => i.firstByte :: r.code :: BitVec.ofNat 8 off :: sequenceBytes v
  | .frameUpdateChecksum r => [i.firstByte, r.code]
  | .buildReadReg id address length => [i.firstByte, id, address, length]
  | .buildWriteReg id address dataLen => [i.firstByte, id, address, BitVec.ofNat 8 dataLen]
  | .frameEncode id payload => i.firstByte :: id :: sequenceBytes payload

/-! ### The wire rows of the opcode table (R65) -/

/-- A wire row: the first `width` bytes, read as one number with wire byte 0 most significant, masked and compared. -/
structure WireRow where
  name : String
  width : Nat
  pattern : Nat
  mask : Nat
  deriving DecidableEq, Repr

/-- "read them as one number with wire byte 0 most significant" -/
def bytesValue (bs : List Byte) : Nat := bs.foldl (fun n b => 256 * n + b.toNat) 0

/-- R65: "the row matches when `(number AND mask) = match`" -/
def WireRow.accepts (row : WireRow) (bs : List Byte) : Bool :=
  decide (row.width ≤ bs.length) && (bytesValue (bs.take row.width) &&& row.mask == row.pattern)

def markerByteRow : WireRow := ⟨"WIRE.MARKER_BYTE", 1, 0xFF, 0xFF⟩
def frameRow : WireRow := ⟨"WIRE.FRAME", 2, 0xFFFF, 0xFFFF⟩
def readRegRow : WireRow := ⟨"WIRE.READ_REG", 5, 0xFFFF000402, 0xFFFF00FFFF⟩
def writeRegRow : WireRow := ⟨"WIRE.WRITE_REG", 5, 0xFFFF000003, 0xFFFF0000FF⟩

/-! ### Words numbered as the opcode table numbers them -/

/-- The bytes of a number, the first one in bits 7..0. -/
def bytesLow (w : Nat) : Nat → List Byte
  | 0 => []
  | n + 1 => BitVec.ofNat 8 w :: bytesLow (w / 256) n

/-- The longest request: a frame of length 255, or `FRAME.PAYLOAD_MUT` with 255 bytes. -/
def longestRequest : Nat := 259

/-- The bytes of a row's word. A later byte's bits count on from the first one's; a number that R65's own numbering of the
wire rows (wire byte 0 most significant) makes a frame is read so (entry 2, DEDUCED). -/
def wordBytes (nbits w : Nat) : List Byte :=
  let low := bytesLow w ((nbits + 7) / 8)
  if low.reverse.take 2 = [Config.marker, Config.marker] then low.reverse else low

/-- The bytes of a row's word, zeros after it: a few, which is enough for most instructions, else up to the longest
request. -/
def tableBytes (nbits w : Nat) : List Byte :=
  let bs := wordBytes nbits w
  match decode (bs ++ List.replicate 8 0) with
  | .rejected .truncated => bs ++ List.replicate (longestRequest - bs.length) 0
  | _ => bs ++ List.replicate 8 0

/-- The instruction that the decoder reads from a word of the opcode table. -/
def decodeTableWord (nbits w : Nat) : Option Instr :=
  match decode (tableBytes nbits w) with
  | .instr i _ => some i
  | .rejected _ => none

end Sys2Proof
end

