-- ==== Sys2Proof/Machine/State.lean ====
section
/-! DEFINITION. The state, the results an operation delivers, the reasons a step can stop, and the state after reset.
Plain data throughout. -/

namespace Sys2Proof.Machine

/-- R11: the five values of `state`. -/
inductive Tag where
  | seekMarker1
  | seekMarker2
  | header
  | data
  | completed
  deriving DecidableEq, Repr

/-- The scratch buffer's written bytes as (index, byte) pairs, indices strictly rising. An index that is not listed has
no value (R23, U3; entry 5). -/
abbrev Memory := List Host.Cell

/-- R10: "The state of the block is the state of one Frame Assembler instance, the tuple `(CAP, state, cursor, buf)`". -/
structure Assembler where
  /-- `CAP` (R14) -/
  cap : Nat
  /-- `state` (R11) -/
  state : Tag
  /-- `cursor` (R12) -/
  cursor : Nat
  /-- `buf` (R13) -/
  buf : Memory
  deriving DecidableEq, Repr

/-- The transport's own error value, "opaque to the block" (R152, U6): a token that no rule looks at (entry 16). -/
structure TransportError where
  token : Nat
  deriving DecidableEq, Repr

/-- R36: what the environment chooses to answer a `SrcRead` with. -/
inductive SrcReply where
  /-- `Bytes(d)` with at most `most` bytes -/
  | bytes (most : Nat)
  | wouldBlock
  | error (e : TransportError)
  deriving DecidableEq, Repr

/-- One choice of the environment (R35, R36, R41): the bytes that arrive before the request, and the answer. -/
structure SrcChoice where
  arriving : List Byte
  reply : SrcReply
  deriving DecidableEq, Repr

/-- The rest of a line that never runs dry (R35: `S` "finite or not"): after all that the source lists, the bytes
`Config.lineByte line next`, `Config.lineByte line (next + 1)` and so on (entry 8). -/
structure Endless where
  line : Nat
  next : Nat
  /-- the fuel of U7: how many trips a poll may make beyond what the source lists (entry 14) -/
  patience : Nat
  deriving DecidableEq, Repr

/-- The byte source (R35). `S` is `handed ++ waiting ++` what the script lets arrive, and then the endless rest, if there is
one; `p` is the length of `handed`, and `a` is `p` plus the length of `waiting` (entry 8). -/
structure Source where
  handed : List Byte
  waiting : List Byte
  script : List SrcChoice
  endless : Option Endless
  deriving DecidableEq, Repr

/-- R151: the frame-level errors. -/
inductive FrameError where
  | headerTooShort
  | lengthInconsistent
  | checksumMismatch
  deriving DecidableEq, Repr

/-- R152: the assembly-level errors. -/
inductive AssemblyError where
  /-- wraps a frame-level error; no rule of the block raises it (R103) -/
  | frame (f : FrameError)
  | transport (e : TransportError)
  | insufficientCapacity
  deriving DecidableEq, Repr

/-- R153: the exchange-level errors, raised by the Master and the Slave, outside the block. -/
inductive ExchangeError where
  | assembly (a : AssemblyError)
  | frame (f : FrameError)
  | transportRead (e : TransportError)
  | transportWrite (e : TransportError)
  | unexpectedResponseId
  | unexpectedResponseLength
  | timedOut
  deriving DecidableEq, Repr

/-- The error an operation of the block ends with: the first two levels of R150. -/
inductive BlockError where
  /-- from a codec operation -/
  | frame (f : FrameError)
  /-- from `ASM.READ` -/
  | assembly (a : AssemblyError)
  deriving DecidableEq, Repr

/-- What the byte-serial form reports on a byte (R104: `Done`, or an error). -/
inductive Signal where
  | done
  | insufficientCapacity
  deriving DecidableEq, Repr

/-- The value of an operation that ends with `Ok`. -/
inductive Value where
  | unit
  | flag (b : Bool)
  | byte (b : Byte)
  | bytes (bs : List Byte)
  deriving DecidableEq, Repr

/-- R2: an operation "delivers one result": `Ok(v)` or `Err(e)`. -/
inductive Result where
  | ok (v : Value)
  | err (e : BlockError)
  deriving DecidableEq, Repr

/-- Everything a step reads and writes. -/
structure State where
  /-- the block's own state (R10) -/
  asm : Assembler
  /-- the byte source (R35) -/
  src : Source
  /-- the consumer's operand region (R16 (b), R30) -/
  region : List Byte
  /-- the consumer's wire image `w` (R64, R120, R121, R123) -/
  image : List Byte
  /-- the result the last operation delivered (entry 12) -/
  result : Option Result
  /-- the requests the consumer has chosen, next first (entry 3) -/
  requests : List (List Byte)
  /-- how many free bytes were used (entry 7) -/
  freeCount : Nat
  deriving DecidableEq, Repr

/-- Reasons a step stops. The first three are for states that R20 rules out (entries 5 and 15), the last one for a line that
never runs dry (entry 14). Each is safe. -/
inductive Fault where
  /-- raised by the assembler's stores: an index at or past `CAP` (R20: "Every store is at an index `< CAP`") -/
  | storeOutsideBuffer
  /-- raised by the assembler and `ASM.FRAME`: a byte of `buf` that nothing has written (R23) -/
  | unwrittenByte
  /-- raised by the poll and by `ASM.STEP`: `cursor` outside the range that R20 gives it in this state -/
  | cursorOutOfRange
  /-- raised by the poll: out of fuel (U7: "treat fuel exhaustion as `stuck`") -/
  | pollDidNotEnd
  deriving DecidableEq, Repr

/-- Reasons a request has no meaning. Each is safe: the spec refuses it (R154, R61, D26), or the request is malformed
(entry 1). -/
inductive Refusal where
  /-- raised by `exec` for an instruction without a meaning; no arm raises it -/
  | notModelled (mnemonic : String)
  /-- raised by `step`: an unknown selector (R61) -/
  | unknownSelector (op : Byte)
  /-- raised by `step`: a request with no byte, or too short for its frame or its operands (entry 1) -/
  | truncatedRequest
  /-- raised by `step`: an operand byte that names no region (entry 1) -/
  | unknownRegion (code : Byte)
  /-- raised by `ASM.NEW` with `CAP < 3` (R90, R154) -/
  | capacityTooSmall
  /-- raised by `ASM.FRAME`, and by a codec read of the exposed frame, when `state` is not `Completed` (R101) -/
  | noFrame
  /-- raised by `FRAME.PAYLOAD_MUT` reaching outside the payload slice (R79, R154) -/
  | outsidePayload
  /-- raised by a mutator applied to the region of `ASM.FRAME` (R101, R154) -/
  | readOnlyRegion
  /-- raised by `BUILD.WRITE_REG` with `data_len > 252` (R121, R154) -/
  | dataTooLong
  /-- raised by `FRAME.ENCODE` with a payload longer than 254 (R123, R154) -/
  | payloadTooLong
  deriving DecidableEq, Repr

/-- What a meaning answers. -/
abbrev StepOutcome := Host.Outcome State Fault Refusal

/-- R23, R90: the assembler after construction: `state = SeekMarker1`, `cursor = 0`, no byte of `buf` written. -/
def Assembler.fresh (cap : Nat) : Assembler :=
  { cap := cap, state := .seekMarker1, cursor := 0, buf := [] }

/-- R170, R23: the machine right after construction. The capacity and the environment's fields are the model's (entries 4
and 6). -/
def State.reset : State where
  asm := Assembler.fresh Config.resetCapacity
  src := { handed := [], waiting := [], script := [], endless := none }
  region := []
  image := []
  result := none
  requests := []
  freeCount := 0

end Sys2Proof.Machine
end

