-- ==== Sys2Proof/Machine/Ops.lean ====
section
/-! DEFINITION. The shared operations: bytes of the scratch buffer, requests to the byte source, delivering a value, and
raising an error. -/

namespace Sys2Proof.Machine

/-! ### The scratch buffer (R13, R30; `MemRead` and `MemWrite` of `00_scope.md` section 6.2) -/

/-- The byte at index `i`, none if nothing has written it. -/
def Memory.read? : Memory → Nat → Option Byte
  | [], _ => none
  | (a, b) :: m, i => if a = i then some b else Memory.read? m i

/-- `buf[i] <- b`, keeping the indices strictly rising. -/
def Memory.write : Memory → Nat → Byte → Memory
  | [], i, b => [(i, b)]
  | (a, c) :: m, i, b =>
    if i < a then (i, b) :: (a, c) :: m
    else if i = a then (i, b) :: m
    else (a, c) :: Memory.write m i b

/-- `MemWrite(i, |d|, d)`: "a sequence of one-byte stores in index order" (R41). -/
def Memory.writeBytes : Memory → Nat → List Byte → Memory
  | m, _, [] => m
  | m, i, b :: d => Memory.writeBytes (Memory.write m i b) (i + 1) d

/-- `MemRead(i, n)`, none if one of the bytes was never written. -/
def Memory.readBytes? (m : Memory) (i : Nat) : Nat → Option (List Byte)
  | 0 => some []
  | n + 1 =>
    match Memory.read? m i, Memory.readBytes? m (i + 1) n with
    | some b, some d => some (b :: d)
    | _, _ => none

/-- The canonical form: indices strictly rising. An unlisted index has no value, so no entry can equal it. -/
def Memory.wf : Memory → Bool
  | [] => true
  | [_] => true
  | (a, _) :: (b, c) :: m => decide (a < b) && Memory.wf ((b, c) :: m)

/-- R12, R94, R96: store `d` at the cursor and advance it, none outside the buffer (R20). -/
def Assembler.store (a : Assembler) (d : List Byte) : Option Assembler :=
  if a.cursor + d.length ≤ a.cap then
    some { a with buf := Memory.writeBytes a.buf a.cursor d, cursor := a.cursor + d.length }
  else none

/-! ### The byte source (R35 to R40) -/

/-- R36: "answered by the environment with exactly one of". -/
inductive Answer where
  | bytes (d : List Byte)
  | wouldBlock
  | error (e : TransportError)
  deriving DecidableEq, Repr

/-- R35: `S` as far as the source lists it. -/
def Source.listed (src : Source) : List Byte :=
  src.handed ++ (src.waiting ++ src.script.flatMap (·.arriving))

/-- R35: `S[j]`, none past the end of a finite `S`. -/
def Source.stream (src : Source) (j : Nat) : Option Byte :=
  if j < src.listed.length then src.listed[j]?
  else src.endless.map fun rest => Config.lineByte rest.line (rest.next + (j - src.listed.length))

/-- R35: `p`. -/
def Source.handedCount (src : Source) : Nat := src.handed.length

/-- R35: `a`. -/
def Source.arrivedCount (src : Source) : Nat := src.handed.length + src.waiting.length

/-- The listed bytes of `S` not yet handed over. -/
def Source.remaining (src : Source) : List Byte :=
  src.waiting ++ src.script.flatMap (·.arriving)

/-- R36: hand over the next `k` waiting bytes; "`p <- p + k`". -/
def Source.hand (src : Source) (k : Nat) : Source :=
  { src with handed := src.handed ++ src.waiting.take k, waiting := src.waiting.drop k }

/-- R35: the environment lets bytes arrive. -/
def Source.arrive (src : Source) (d : List Byte) : Source :=
  { src with waiting := src.waiting ++ d }

/-- `n` bytes of an endless line. -/
def lineBytes (line start : Nat) : Nat → List Byte
  | 0 => []
  | n + 1 => Config.lineByte line start :: lineBytes line (start + 1) n

/-- R35: an endless line lets as many bytes arrive as `n` still lacks. -/
def Source.topUp (n : Nat) (src : Source) : Source :=
  match src.endless with
  | none => src
  | some rest =>
    let k := n - src.waiting.length
    { src with
      waiting := src.waiting ++ lineBytes rest.line rest.next k
      endless := some { rest with next := rest.next + k } }

/-- `SrcRead(n)` (R36). The script's next choice decides; with no choice left the source answers at once with all it can
(entry 8, DESIGN CHOICE). A choice of more bytes than the request asks for, or than have arrived, is cut down (entry 9). -/
def Source.read (n : Nat) (src : Source) : Answer × Source :=
  match src.script with
  | [] =>
    let src := src.topUp n
    match src.waiting.take n with
    | [] => (.wouldBlock, src)
    | b :: d => (.bytes (b :: d), src.hand n)
  | c :: later =>
    let src := { src.arrive c.arriving with script := later }
    match c.reply with
    | .bytes most => (.bytes (src.waiting.take (min most n)), src.hand (min most n))
    | .wouldBlock => (.wouldBlock, src)
    | .error e => (.error e, src)

/-! ### Ending an operation (R2, R157, R158; `00_scope.md` section 6.3) -/

/-- `return v`: the operation delivers `Ok(v)`. -/
def State.deliver (s : State) (v : Value) : StepOutcome :=
  .next { s with result := some (.ok v) }

/-- `raise E`: R157: "Raising an error saves nothing, switches nothing and transfers control nowhere: the operation
returns the error to its caller and the block is ready for the next operation." State writes made before it stand. There
is no return from it (R158). -/
def State.raise (s : State) (e : BlockError) : StepOutcome :=
  .next { s with result := some (.err e) }

/-! ### The spec's numbering of error kinds (R155: its own choice, no meaning uses it) -/

def FrameError.code : FrameError → Nat
  | .headerTooShort => 0x01
  | .lengthInconsistent => 0x02
  | .checksumMismatch => 0x03

def AssemblyError.code : AssemblyError → Nat
  | .frame _ => 0x10
  | .transport _ => 0x11
  | .insufficientCapacity => 0x12

def ExchangeError.code : ExchangeError → Nat
  | .assembly _ => 0x20
  | .frame _ => 0x21
  | .transportRead _ => 0x22
  | .transportWrite _ => 0x23
  | .unexpectedResponseId => 0x24
  | .unexpectedResponseLength => 0x25
  | .timedOut => 0x26

/-- R62: the numbering of `state` (the spec's own choice, no meaning uses it). -/
def Tag.code : Tag → Nat
  | .seekMarker1 => 0
  | .seekMarker2 => 1
  | .header => 2
  | .data => 3
  | .completed => 4

end Sys2Proof.Machine
end

