-- ==== Sys2Proof/Machine/Flags.lean ====
section
/-! DEFINITION. What the block computes from bytes without storing it: the checksum, the declared length, `need`, and
`frame_valid` (R17: there is no flag register). -/

namespace Sys2Proof.Machine

/-- `NOT8(v) = 255 - v` (`00_scope.md` section 6.1). -/
def not8 (v : Byte) : Byte := BitVec.ofNat 8 (255 - v.toNat)

/-- The sum of bytes as naturals, "computed without wrap-around". -/
def byteSum (bs : List Byte) : Nat := (bs.map BitVec.toNat).sum

/-- `L = r[1]`, the declared length. R71 tests `n >= 3` before it reads it. -/
def declaredLength (r : List Byte) : Nat := (r.getD 1 0).toNat

/-- R70: `CKS(r)`: the bytes at region indices 0 to `L` inclusive, summed modulo 256, complemented. -/
def cks (r : List Byte) : Byte :=
  not8 (BitVec.ofNat 8 (byteSum (r.take (declaredLength r + 1)) % 256))

/-- R15: `need = buf[1] + 2`, defined when `buf[1]` has been stored. -/
def Assembler.need? (a : Assembler) : Option Nat :=
  (Memory.read? a.buf 1).map fun len => len.toNat + 2

/-- R17: `frame_valid = (state = Completed)`. -/
def Assembler.frameValid (a : Assembler) : Bool := a.state == .completed

end Sys2Proof.Machine
end

