-- ==== Sys2Proof/Machine/Operands.lean ====
section
/-! DEFINITION. The operand region of a codec operation: where it comes from, the guard every operation applies to it, and
how a mutator writes it back. -/

namespace Sys2Proof.Machine

/-- What a region operand stands for. -/
inductive RegionView where
  | bytes (r : List Byte)
  /-- the frame's region outside `Completed` (R101) -/
  | noFrame
  /-- the frame's region with a byte that was never written, which R20 rules out -/
  | unwritten
  deriving DecidableEq, Repr

/-- R101: in `Completed`, `MemRead(0, buf[1] + 2)`. -/
def Assembler.exposed (a : Assembler) : RegionView :=
  match a.state with
  | .completed =>
    match a.need? with
    | some need =>
      match Memory.readBytes? a.buf 0 need with
      | some r => .bytes r
      | none => .unwritten
    | none => .unwritten
  | .seekMarker1 => .noFrame
  | .seekMarker2 => .noFrame
  | .header => .noFrame
  | .data => .noFrame

/-- R64: the region of the wire image, `w[2..)`. -/
def State.imageRegion (s : State) : List Byte := s.image.drop 2

/-- The region a reference names (entry 11). -/
def State.view (s : State) : RegionRef → RegionView
  | .operand => .bytes s.region
  | .image => .bytes s.imageRegion
  | .frame => s.asm.exposed

/-- Run a read accessor on the region. -/
def State.withRegion (s : State) (ref : RegionRef) (k : List Byte → StepOutcome) : StepOutcome :=
  match s.view ref with
  | .bytes r => k r
  | .noFrame => .refused .noFrame
  | .unwritten => .fault .unwrittenByte

/-- Run a mutator on the region; R154 refuses it on the region of `ASM.FRAME` (entry 13). -/
def State.withMutable (s : State) (ref : RegionRef) (k : List Byte → StepOutcome) : StepOutcome :=
  match ref with
  | .operand => k s.region
  | .image => k s.imageRegion
  | .frame => .refused .readOnlyRegion

/-- The mutated region in its place. -/
def State.putRegion (s : State) (ref : RegionRef) (r : List Byte) : State :=
  match ref with
  | .operand => { s with region := r }
  | .image => { s with image := s.image.take 2 ++ r }
  | .frame => s

/-- R71: `Guard(r)`, "which raises at most one error, tested in this order". -/
def guardError (r : List Byte) : Option FrameError :=
  if r.length < 3 then some .headerTooShort
  else if declaredLength r = 0 then some .lengthInconsistent
  else if declaredLength r + 2 > r.length then some .lengthInconsistent
  else none

/-- R78: the guard of `FRAME.SET_LENGTH`, which tests the new length. -/
def lengthGuardError (r : List Byte) (v : Byte) : Option FrameError :=
  if r.length < 3 then some .headerTooShort
  else if v.toNat = 0 ∨ v.toNat + 2 > r.length then some .lengthInconsistent
  else none

/-- Raise the guard's error, or go on. -/
def State.guarded (s : State) (e : Option FrameError) (k : StepOutcome) : StepOutcome :=
  match e with
  | some e => s.raise (.frame e)
  | none => k

/-- R74: the payload slice `r[2 .. L+1)`. -/
def payloadOf (r : List Byte) : List Byte := (r.drop 2).take (declaredLength r - 1)

/-- R75: the stored checksum `r[L+1]`. -/
def storedChecksum (r : List Byte) : Byte := r.getD (declaredLength r + 1) 0

/-- `r[i .. i+|v|) <- v`: "index order equals sequence order" (R79). -/
def overwrite (r : List Byte) (i : Nat) (v : List Byte) : List Byte :=
  r.take i ++ v ++ r.drop (i + v.length)

/-- R76: the error of `FRAME.VERIFY`, none if it succeeds. -/
def verifyError (r : List Byte) : Option FrameError :=
  match guardError r with
  | some e => some e
  | none => if storedChecksum r = cks r then none else some .checksumMismatch

end Sys2Proof.Machine
end

