-- ==== Sys2Proof/Machine/Builders.lean ====
section
/-! DEFINITION. The command builders and the general encode (R120, R121, R123). The image is left in the consumer's buffer
`image` and delivered as the result. -/

namespace Sys2Proof.Machine

/-- `return w`: the image is the consumer's (R124: "The builders produce images only"). -/
def State.deliverImage (s : State) (w : List Byte) : StepOutcome :=
  { s with image := w }.deliver (.bytes w)

/-- R120: the 8-byte image; `w[7] <- CKS(w[2..8))` sums the five bytes before it. -/
def readRegImage (id address length : Byte) : List Byte :=
  [Config.marker, Config.marker, id, 4, 0x02, address, length, cks [id, 4, 0x02, address, length]]

/-- R120: `BUILD.READ_REG(id, address, length)`. -/
def execBuildReadReg (id address length : Byte) (s : State) : StepOutcome :=
  s.deliverImage (readRegImage id address length)

/-- `n` fresh free bytes (entry 7). -/
def freeBytes (start : Nat) : Nat → List Byte
  | 0 => []
  | n + 1 => Config.freeByte start :: freeBytes (start + 1) n

/-- R121: markers, header, command and address; the data bytes and the checksum "are NOT written". -/
def writeRegImage (id address : Byte) (dataLen : Nat) (unwritten : List Byte) : List Byte :=
  [Config.marker, Config.marker, id, BitVec.ofNat 8 (3 + dataLen), 0x03, address] ++ unwritten

/-- R121: `BUILD.WRITE_REG(id, address, data_len)`. -/
def execBuildWriteReg (id address : Byte) (dataLen : Nat) (s : State) : StepOutcome :=
  if dataLen > 252 then .refused .dataTooLong
  else
    State.deliverImage { s with freeCount := s.freeCount + (dataLen + 1) }
      (writeRegImage id address dataLen (freeBytes s.freeCount (dataLen + 1)))

/-- R123: the frame format of R50 as a function. -/
def frameImage (id : Byte) (payload : List Byte) : List Byte :=
  let len := BitVec.ofNat 8 (payload.length + 1)
  [Config.marker, Config.marker, id, len] ++ payload ++ [cks (id :: len :: payload)]

/-- R123: `FRAME.ENCODE(id, payload)`. -/
def execFrameEncode (id : Byte) (payload : List Byte) (s : State) : StepOutcome :=
  if payload.length > 254 then .refused .payloadTooLong
  else s.deliverImage (frameImage id payload)

end Sys2Proof.Machine
end

