-- ==== Sys2Proof/Machine/Codec.lean ====
section
/-! DEFINITION. The nine Frame Codec operations (R72 to R80). -/

namespace Sys2Proof.Machine

/-- R72: `Guard(r); return r[0]`. -/
def execFrameId (ref : RegionRef) (s : State) : StepOutcome :=
  s.withRegion ref fun r => s.guarded (guardError r) (s.deliver (.byte (r.getD 0 0)))

/-- R73: `Guard(r); return r[1]`: "the declared length `L` itself". -/
def execFrameLength (ref : RegionRef) (s : State) : StepOutcome :=
  s.withRegion ref fun r => s.guarded (guardError r) (s.deliver (.byte (r.getD 1 0)))

/-- R74: `Guard(r); return r[2 .. L+1)`. -/
def execFramePayload (ref : RegionRef) (s : State) : StepOutcome :=
  s.withRegion ref fun r => s.guarded (guardError r) (s.deliver (.bytes (payloadOf r)))

/-- R75: `Guard(r); return r[L+1]`: "the *stored* checksum byte, whether or not it is correct". -/
def execFrameChecksum (ref : RegionRef) (s : State) : StepOutcome :=
  s.withRegion ref fun r => s.guarded (guardError r) (s.deliver (.byte (storedChecksum r)))

/-- R76: `Guard(r)`, then `ChecksumMismatch` if `r[L+1] != CKS(r)`. -/
def execFrameVerify (ref : RegionRef) (s : State) : StepOutcome :=
  s.withRegion ref fun r => s.guarded (verifyError r) (s.deliver .unit)

/-- R77: `Guard(r); r[0] <- v`. -/
def execFrameSetId (ref : RegionRef) (v : Byte) (s : State) : StepOutcome :=
  s.withMutable ref fun r => s.guarded (guardError r) ((s.putRegion ref (r.set 0 v)).deliver .unit)

/-- R78: tests the new length, then `r[1] <- v`. -/
def execFrameSetLength (ref : RegionRef) (v : Byte) (s : State) : StepOutcome :=
  s.withMutable ref fun r => s.guarded (lengthGuardError r v) ((s.putRegion ref (r.set 1 v)).deliver .unit)

/-- R79: `Guard(r)`; refused unless `off + |v| <= L - 1`; `r[2+off .. 2+off+|v|) <- v`. -/
def execFramePayloadMut (ref : RegionRef) (off : Nat) (v : List Byte) (s : State) : StepOutcome :=
  s.withMutable ref fun r =>
    s.guarded (guardError r)
      (if off + v.length ≤ declaredLength r - 1 then
        (s.putRegion ref (overwrite r (2 + off) v)).deliver .unit
      else .refused .outsidePayload)

/-- R80: `Guard(r); r[L+1] <- CKS(r)`. -/
def execFrameUpdateChecksum (ref : RegionRef) (s : State) : StepOutcome :=
  s.withMutable ref fun r =>
    s.guarded (guardError r)
      ((s.putRegion ref (r.set (declaredLength r + 1) (cks r))).deliver .unit)

end Sys2Proof.Machine
end

