-- ==== Sys2Proof/Machine/Assembler.lean ====
section
/-! DEFINITION. The Frame Assembler: construction (R90), the poll (R91 to R100), the exposed frame (R101), and the
byte-serial form `ASM.STEP` (R104). -/

namespace Sys2Proof.Machine

/-- R90: construction; "a `CAP` below 3 is refused by the model". The byte source is not touched (R171). -/
def execAsmNew (cap : Nat) (s : State) : StepOutcome :=
  if cap < Config.minCapacity then .refused .capacityTooSmall
  else { s with asm := Assembler.fresh cap }.deliver .unit

/-! ### The poll -/

/-- How a poll ends (R91). -/
inductive PollEnd where
  /-- this poll moved `state` into `Completed` (R98): `true` -/
  | frameDone
  /-- the source had nothing more (R99): `false` -/
  | dry
  /-- R100 -/
  | transport (e : TransportError)
  /-- R97 -/
  | insufficientCapacity
  deriving DecidableEq, Repr

/-- One trip round the loop of R91: it goes round again, or the poll ends. -/
inductive Turn where
  | again (a : Assembler) (src : Source)
  | ended (a : Assembler) (src : Source) (how : PollEnd)
  | fault (f : Fault)
  deriving DecidableEq, Repr

/-- R91 `Fetch(n)`: R99 for `WouldBlock` and zero bytes (R37), R100 for `Error(e)`; else at least one byte. -/
def fetch (n : Nat) (a : Assembler) (src : Source) (k : Byte → List Byte → Source → Turn) : Turn :=
  match src.read n with
  | (.error e, src') => .ended a src' (.transport e)
  | (.wouldBlock, src') => .ended a src' .dry
  | (.bytes [], src') => .ended a src' .dry
  | (.bytes (b :: d), src') => k b d src'

/-- R92 and R93: on every transition into `Header`, `cursor <- 0` (D5). -/
def Assembler.enterHeader (a : Assembler) : Assembler := { a with state := .header, cursor := 0 }

/-- R92, from `SeekMarker1` and `Completed`. The bytes are discarded. -/
def seekStep (a : Assembler) (src : Source) : Turn :=
  fetch 2 a src fun b0 d src' =>
    match d with
    | [] =>
      if b0 = Config.marker then .again { a with state := .seekMarker2 } src'
      else .again { a with state := .seekMarker1 } src'
    | b1 :: _ =>
      if b0 = Config.marker ∧ b1 = Config.marker then .again a.enterHeader src'
      else if b1 = Config.marker then .again { a with state := .seekMarker2 } src'
      else .again { a with state := .seekMarker1 } src'

/-- R93, from `SeekMarker2`. -/
def seek2Step (a : Assembler) (src : Source) : Turn :=
  fetch 1 a src fun b0 _ src' =>
    if b0 = Config.marker then .again a.enterHeader src'
    else .again { a with state := .seekMarker1 } src'

/-- R97, then R95: `buf[1] + 2 > CAP` rejects the frame. -/
def headerDone (a : Assembler) (src : Source) : Turn :=
  match a.need? with
  | none => .fault .unwrittenByte
  | some need =>
    if need > a.cap then .ended { a with state := .seekMarker1 } src .insufficientCapacity
    else .again { a with state := .data } src

/-- R94, from `Header`. -/
def headerStep (a : Assembler) (src : Source) : Turn :=
  if a.cursor ≥ 2 then .fault .cursorOutOfRange
  else
    fetch (2 - a.cursor) a src fun b0 d src' =>
      match a.store (b0 :: d) with
      | none => .fault .storeOutsideBuffer
      | some a' => if a'.cursor = 2 then headerDone a' src' else .again a' src'

/-- R98: `state <- Completed; return true`. -/
def complete (a : Assembler) (src : Source) : Turn :=
  .ended { a with state := .completed } src .frameDone

/-- R96, from `Data`. A declared length of 0 completes without a request. -/
def dataStep (a : Assembler) (src : Source) : Turn :=
  match a.need? with
  | none => .fault .unwrittenByte
  | some need =>
    if a.cursor = need then complete a src
    else if a.cursor > need then .fault .cursorOutOfRange
    else
      fetch (need - a.cursor) a src fun b0 d src' =>
        match a.store (b0 :: d) with
        | none => .fault .storeOutsideBuffer
        | some a' => if a'.cursor = need then complete a' src' else .again a' src'

/-- R91: one trip round the loop, by `state`. -/
def turn (a : Assembler) (src : Source) : Turn :=
  match a.state with
  | .seekMarker1 => seekStep a src
  | .completed => seekStep a src
  | .seekMarker2 => seek2Step a src
  | .header => headerStep a src
  | .data => dataStep a src

/-- R91: the loop, under fuel (R107, D27; entry 14). -/
def poll : Nat → Assembler → Source → Turn
  | 0, _, _ => .fault .pollDidNotEnd
  | fuel + 1, a, src =>
    match turn a src with
    | .again a' src' => poll fuel a' src'
    | .ended a' src' how => .ended a' src' how
    | .fault f => .fault f

/-- R107: every trip that does not end the poll consumes a byte, so this much is enough for a finite `S`. On an endless one
U7 asks for fuel, and its end is no result. -/
def Source.pollFuel (src : Source) : Nat :=
  src.remaining.length + 1 +
    match src.endless with
    | none => 0
    | some rest => rest.patience

/-- R91: the result of a poll. -/
def State.endPoll (s : State) : PollEnd → StepOutcome
  | .frameDone => s.deliver (.flag true)
  | .dry => s.deliver (.flag false)
  | .transport e => s.raise (.assembly (.transport e))
  | .insufficientCapacity => s.raise (.assembly .insufficientCapacity)

/-- R91: `ASM.READ(a, src)`. -/
def execAsmRead (s : State) : StepOutcome :=
  match poll s.src.pollFuel s.asm s.src with
  | .again _ _ => .fault .pollDidNotEnd
  | .ended a src how => State.endPoll { s with asm := a, src := src } how
  | .fault f => .fault f

/-- R101: `ASM.FRAME(a)`: the region of the finished frame; "In any other state the operation is refused". -/
def execAsmFrame (s : State) : StepOutcome :=
  match s.asm.exposed with
  | .bytes r => s.deliver (.bytes r)
  | .noFrame => .refused .noFrame
  | .unwritten => .fault .unwrittenByte

/-! ### One byte at a time (R104) -/

/-- What `ASM.STEP` answers: `Continue` is no signal. -/
inductive Stepped where
  | ok (a : Assembler) (signal : Option Signal)
  | fault (f : Fault)
  deriving DecidableEq, Repr

/-- R104, the `Header` case. -/
def headerByte (a : Assembler) (b : Byte) : Stepped :=
  if a.cursor ≥ 2 then .fault .cursorOutOfRange
  else
    match a.store [b] with
    | none => .fault .storeOutsideBuffer
    | some a' =>
      if a'.cursor < 2 then .ok a' none
      else if b.toNat + 2 > a'.cap then .ok { a' with state := .seekMarker1 } (some .insufficientCapacity)
      else if b.toNat = 0 then .ok { a' with state := .completed } (some .done)
      else .ok { a' with state := .data } none

/-- R104, the `Data` case. -/
def dataByte (a : Assembler) (b : Byte) : Stepped :=
  match a.store [b] with
  | none => .fault .storeOutsideBuffer
  | some a' =>
    match a'.need? with
    | none => .fault .unwrittenByte
    | some need =>
      if a'.cursor = need then .ok { a' with state := .completed } (some .done)
      else if a'.cursor > need then .fault .cursorOutOfRange
      else .ok a' none

/-- R104: `ASM.STEP(b)`: "not an operation a consumer invokes"; the poll is its fold over the bytes that it takes. -/
def stepByte (a : Assembler) (b : Byte) : Stepped :=
  match a.state with
  | .seekMarker1 =>
    if b = Config.marker then .ok { a with state := .seekMarker2 } none else .ok { a with state := .seekMarker1 } none
  | .completed =>
    if b = Config.marker then .ok { a with state := .seekMarker2 } none else .ok { a with state := .seekMarker1 } none
  | .seekMarker2 =>
    if b = Config.marker then .ok a.enterHeader none else .ok { a with state := .seekMarker1 } none
  | .header => headerByte a b
  | .data => dataByte a b

/-- The signals of a run of bytes, in order. -/
inductive Fed where
  | ok (a : Assembler) (signals : List Signal)
  | fault (f : Fault)
  deriving DecidableEq, Repr

/-- A signal in front of a run's. -/
def Fed.prepend (signal : Option Signal) : Fed → Fed
  | .ok a signals => .ok a (signal.toList ++ signals)
  | .fault f => .fault f

/-- `ASM.STEP` applied to each byte in order (R104). -/
def feed (a : Assembler) : List Byte → Fed
  | [] => .ok a []
  | b :: bs =>
    match stepByte a b with
    | .fault f => .fault f
    | .ok a' signal => (feed a' bs).prepend signal

end Sys2Proof.Machine
end

