-- ==== Sys2Proof/Machine/Wire.lean ====
section
/-! DEFINITION. Received bytes (`00_scope.md` section 5: "On the receive side, also each received byte, which the assembler
decodes according to its state"). The block never looks at the command byte (R57), so the four rows differ in their bytes
only. -/

namespace Sys2Proof.Machine

/-- The bytes arrive at the end of what is waiting (R35: line order), and the consumer polls once: only `ASM.READ` takes
bytes from the source and writes the buffer (R30). DESIGN CHOICE (entry 10): that a wire row comes with one poll. -/
def State.receive (s : State) (bs : List Byte) : StepOutcome :=
  execAsmRead { s with src := s.src.arrive bs }

/-- R5, R92, R93: a marker byte is received. -/
def execWireMarkerByte (s : State) : StepOutcome := s.receive [Config.marker]

/-- R50, R58: a frame is received. -/
def execWireFrame (id : Byte) (body : List Byte) (s : State) : StepOutcome := s.receive (wireBytes id body)

/-- R55: a Read-Register command is received. -/
def execWireReadReg (id address length checksum : Byte) (s : State) : StepOutcome :=
  s.receive (wireBytes id [0x02, address, length, checksum])

/-- R56: a Write-Register command is received. -/
def execWireWriteReg (id address : Byte) (data : List Byte) (checksum : Byte) (s : State) : StepOutcome :=
  s.receive (wireBytes id (0x03 :: address :: (data ++ [checksum])))

end Sys2Proof.Machine
end

