-- ==== Sys2Proof/Machine/Dispatch.lean ====
section
/-! DEFINITION. One arm per instruction. -/

namespace Sys2Proof.Machine

def exec (i : Instr) (s : State) : Host.Outcome State Fault Refusal :=
  match i with
  | .wireMarkerByte => Sys2Proof.Machine.execWireMarkerByte s
  | .wireFrame id body => Sys2Proof.Machine.execWireFrame id body s
  | .wireReadReg id address length checksum => Sys2Proof.Machine.execWireReadReg id address length checksum s
  | .wireWriteReg id address data checksum => Sys2Proof.Machine.execWireWriteReg id address data checksum s
  | .asmNew cap => Sys2Proof.Machine.execAsmNew cap s
  | .asmRead => Sys2Proof.Machine.execAsmRead s
  | .asmFrame => Sys2Proof.Machine.execAsmFrame s
  | .frameId r => Sys2Proof.Machine.execFrameId r s
  | .frameLength r => Sys2Proof.Machine.execFrameLength r s
  | .framePayload r => Sys2Proof.Machine.execFramePayload r s
  | .frameChecksum r => Sys2Proof.Machine.execFrameChecksum r s
  | .frameVerify r => Sys2Proof.Machine.execFrameVerify r s
  | .frameSetId r v => Sys2Proof.Machine.execFrameSetId r v s
  | .frameSetLength r v => Sys2Proof.Machine.execFrameSetLength r v s
  | .framePayloadMut r off v => Sys2Proof.Machine.execFramePayloadMut r off v s
  | .frameUpdateChecksum r => Sys2Proof.Machine.execFrameUpdateChecksum r s
  | .buildReadReg id address length => Sys2Proof.Machine.execBuildReadReg id address length s
  | .buildWriteReg id address dataLen => Sys2Proof.Machine.execBuildWriteReg id address dataLen s
  | .frameEncode id payload => Sys2Proof.Machine.execFrameEncode id payload s

end Sys2Proof.Machine
end

