-- ==== Sys2Proof/Machine/Request.lean ====
section
/-! DEFINITION. How the block takes a request: decode it, run it, or refuse it by name. -/

namespace Sys2Proof.Machine

/-- R61, R154: what is no operation is refused by name. -/
def refusalOf : DecodeError → Refusal
  | .empty => .truncatedRequest
  | .truncated => .truncatedRequest
  | .unknownSelector op => .unknownSelector op
  | .unknownRegion code => .unknownRegion code

/-- Run one request. Bytes after the instruction's own are not looked at (entry 1). -/
def runRequest (w : List Byte) (s : State) : StepOutcome :=
  match decode w with
  | .instr i _ => exec i s
  | .rejected e => .refused (refusalOf e)

/-- The next request of the consumer; none: the block is quiescent (R184) and nothing changes (entry 3). -/
def runNext (s : State) : StepOutcome :=
  match s.requests with
  | [] => .next s
  | w :: later => runRequest w { s with requests := later }

end Sys2Proof.Machine
end

