-- ==== Sys2Proof/Machine/Step.lean ====
section
/-! DEFINITION. One step: the next request the consumer has chosen (R2: "one atomic step of the block"). -/

namespace Sys2Proof.Machine

/-- R2, R184. -/
def step (s : State) : Host.Outcome State Fault Refusal := runNext s

/-- The request for a word of the opcode table in front of the others (entry 3: a program comes from the consumer). -/
def State.withFetchWord (s : State) (nbits w : Nat) : State :=
  { s with requests := tableBytes nbits w :: s.requests }

end Sys2Proof.Machine
end

