-- ==== Sys2Proof/Machine/Link.lean ====
section
/-! DEFINITION. What the consumers have beside the block: the write side of the byte stream (R130) and the timeout
predicate (R132). Outside the block (`00_scope.md` section 3; entry 17). -/

namespace Sys2Proof.Machine

/-- R130: the environment's choice of answer to `SinkWrite(bytes)`. -/
inductive SinkReply where
  /-- `Written(k)` with at most `most` bytes -/
  | written (most : Nat)
  | wouldBlock
  | error (e : TransportError)
  deriving DecidableEq, Repr

/-- The consumer's end of the line. -/
structure Link where
  /-- the choices for the coming writes, next first; with none left a write is accepted whole (entry 17) -/
  sink : List SinkReply
  /-- the bytes written so far -/
  sent : List Byte
  /-- R45: "the transport loops transmitted bytes back into the receive path" -/
  loopsBack : Bool
  /-- R132: the timeout predicate's answers, one for each loop iteration; with none left it reports expiry (entry 17) -/
  timeouts : List Bool
  deriving DecidableEq, Repr

/-- R130: what a write answers. -/
inductive SinkAnswer where
  | written (k : Nat)
  | wouldBlock
  | error (e : TransportError)
  deriving DecidableEq, Repr

/-- R130: "A partial write accepts a prefix". -/
def Link.write (link : Link) (bs : List Byte) : SinkAnswer × Link :=
  match link.sink with
  | [] => (.written bs.length, { link with sent := link.sent ++ bs })
  | .written most :: later =>
    (.written (min most bs.length), { link with sink := later, sent := link.sent ++ bs.take most })
  | .wouldBlock :: later => (.wouldBlock, { link with sink := later })
  | .error e :: later => (.error e, { link with sink := later })

/-- R45: a written byte comes back on a transport that echoes. -/
def State.echo (s : State) (link : Link) (bs : List Byte) : State :=
  if link.loopsBack then { s with src := s.src.arrive bs } else s

/-- What one poll told its consumer (R91, R159: an assembly-level error is wrapped). -/
inductive Polled where
  | ready (s : State)
  | notYet (s : State)
  | failed (a : AssemblyError) (s : State)
  /-- a fault of the block: R20 rules it out, but for a poll that does not end (U7) -/
  | stopped
  deriving DecidableEq, Repr

/-- Call `ASM.READ` and look at its result. -/
def pollOnce (s : State) : Polled :=
  match execAsmRead s with
  | .next t =>
    match t.result with
    | some (.ok (.flag true)) => .ready t
    | some (.ok (.flag false)) => .notYet t
    | some (.err (.assembly a)) => .failed a t
    | _ => .stopped
  | .fault _ => .stopped
  | .refused _ => .stopped

end Sys2Proof.Machine
end

