-- ==== Sys2Proof/Machine/Master.lean ====
section
/-! DEFINITION. The Master (R131 to R138), a consumer outside the block (`00_scope.md` section 3; entry 17): transmit, discard
the echo, receive, validate, copy. One `turn` is one iteration of its loops, so that a Slave can run in between. -/

namespace Sys2Proof.Machine

/-- How an exchange ends. -/
inductive MasterOutcome where
  /-- R136: the data of a read; for a write, no byte -/
  | ok (data : List Byte)
  | err (e : ExchangeError)
  /-- the block stopped -/
  | stopped
  deriving DecidableEq, Repr

/-- R131: the steps of the "protocol skeleton". -/
inductive MasterPhase where
  /-- step 1, with the bytes not yet accepted -/
  | transmit (todo : List Byte)
  /-- step 2 (R133) -/
  | discardEcho
  /-- step 3 (R134), and step 4 (R135) as soon as a frame is there -/
  | receive
  | finished (outcome : MasterOutcome)
  deriving DecidableEq, Repr

/-- One call of a Master. -/
structure Master where
  phase : MasterPhase
  /-- R133: "the only master/slave-wide option" -/
  echoBack : Bool
  /-- the request's id -/
  id : Byte
  /-- for a read, `out_buffer.len()` (R135) -/
  outLen : Option Nat
  deriving DecidableEq, Repr

/-- A Master with its assembler and its end of the line. -/
structure Exchange where
  master : Master
  block : State
  link : Link
  deriving DecidableEq, Repr

/-- The Master in another phase. -/
def Exchange.enter (x : Exchange) (phase : MasterPhase) : Exchange :=
  { x with master := { x.master with phase := phase } }

def Exchange.finish (x : Exchange) (outcome : MasterOutcome) : Exchange := x.enter (.finished outcome)

/-- R132: the predicate is "polled once per loop iteration"; "once a predicate returns true, the current operation aborts
with a timed-out error". -/
def Exchange.askTimeout (x : Exchange) : Exchange :=
  match x.link.timeouts with
  | [] => x.finish (.err .timedOut)
  | true :: later => { x with link := { x.link with timeouts := later } }.finish (.err .timedOut)
  | false :: later => { x with link := { x.link with timeouts := later } }

/-- R133: what follows the transmission. -/
def Master.afterTransmit (m : Master) : MasterPhase := if m.echoBack then .discardEcho else .receive

/-- R131 step 1: "Transmit the full command frame, looping on partial writes; a would-block signal is retried; `timeout()`
... failing mid-transmit aborts with a timed-out error." -/
def Exchange.transmitTurn (x : Exchange) (todo : List Byte) : Exchange :=
  if todo = [] then x.enter x.master.afterTransmit
  else
    match x.link.write todo with
    | (.error e, link) => { x with link := link }.finish (.err (.transportWrite e))
    | (.wouldBlock, link) => { x with link := link }.askTimeout
    | (.written k, link) =>
      let x := { x with block := x.block.echo link (todo.take k), link := link }
      if todo.length ≤ k then x.enter x.master.afterTransmit
      else (x.enter (.transmit (todo.drop k))).askTimeout

/-- R135: step 4 on the region: checksum, then id, then, for reads, the payload length. -/
def validateError (r : List Byte) (id : Byte) (outLen : Option Nat) : Option ExchangeError :=
  match verifyError r with
  | some f => some (.frame f)
  | none =>
    if r.getD 0 0 ≠ id then some .unexpectedResponseId
    else
      match outLen with
      | none => none
      | some n => if (payloadOf r).length = n + 1 then none else some .unexpectedResponseLength

/-- R136, R137: what a validated response gives: for reads "the leading status byte is stripped and the remainder copied
into `out_buffer`"; "Writes currently only check the id match". -/
def responseData (r : List Byte) (outLen : Option Nat) : List Byte :=
  match outLen with
  | none => []
  | some _ => (payloadOf r).drop 1

/-- R135 on the frame that `ASM.FRAME` exposes. -/
def validate (id : Byte) (outLen : Option Nat) (s : State) : MasterOutcome :=
  match s.asm.exposed with
  | .bytes r =>
    match validateError r id outLen with
    | some e => .err e
    | none => .ok (responseData r outLen)
  | .noFrame => .stopped
  | .unwritten => .stopped

/-- R133, R134: "run the Frame Assembler ... to completion", `timeout()` between the polls; an error of `ASM.READ` "ends the
exchange with that error wrapped". `ready` is what a completed frame leads to. -/
def Exchange.pollTurn (x : Exchange) (ready : Exchange → Exchange) : Exchange :=
  match pollOnce x.block with
  | .ready t => ready { x with block := t }
  | .notYet t => { x with block := t }.askTimeout
  | .failed a t => { x with block := t }.finish (.err (.assembly a))
  | .stopped => x.finish .stopped

/-- One iteration of the loop that the Master is in. -/
def Exchange.turn (x : Exchange) : Exchange :=
  match x.master.phase with
  | .transmit todo => x.transmitTurn todo
  | .discardEcho => x.pollTurn fun x => x.enter .receive
  | .receive => x.pollTurn fun x => x.finish (validate x.master.id x.master.outLen x.block)
  | .finished _ => x

def Exchange.run : Nat → Exchange → Exchange
  | 0, x => x
  | n + 1, x => Exchange.run n x.turn

/-- Every turn uses an answer of the predicate, enters a later phase, or finishes. -/
def Exchange.complete (x : Exchange) : Exchange := x.run (x.link.timeouts.length + 3)

/-- R131: a read starts with the command that asks for as many bytes as the out buffer holds. -/
def Exchange.startRead (echoBack : Bool) (id address outLen : Byte) (s : State) (link : Link) : Exchange where
  master :=
    { phase := .transmit (readRegImage id address outLen), echoBack := echoBack, id := id, outLen := some outLen.toNat }
  block := s
  link := link

/-- R131: a write starts with a completed image. -/
def Exchange.startWrite (echoBack : Bool) (id : Byte) (command : List Byte) (s : State) (link : Link) : Exchange where
  master := { phase := .transmit command, echoBack := echoBack, id := id, outLen := none }
  block := s
  link := link

/-- R131: `read_register`, on a line where nothing happens but what the source's script says. -/
def readRegister (echoBack : Bool) (id address outLen : Byte) (s : State) (link : Link) : Exchange :=
  (Exchange.startRead echoBack id address outLen s link).complete

/-- R131: `write_register`, on such a line. -/
def writeRegister (echoBack : Bool) (id : Byte) (command : List Byte) (s : State) (link : Link) : Exchange :=
  (Exchange.startWrite echoBack id command s link).complete

end Sys2Proof.Machine
end

