-- ==== Sys2Proof/Machine/Slave.lean ====
section
/-! DEFINITION. The Slave (R139 to R142), a consumer outside the block (`00_scope.md` section 3; entries 17, 18 and 22). -/

namespace Sys2Proof.Machine

/-- R139: "Three states: `Idle → ProcessCommand → SendResponse → Idle`". -/
inductive SlavePhase where
  | idle
  | processCommand
  | sendResponse
  deriving DecidableEq, Repr

/-- R139: the Slave's own state, and that of the device-emulation layer behind its handler.
DESIGN CHOICE (entry 18): the spec calls the response staging buffer "small" and gives no size. Here its size is the length
of `buffer`, any number, and stays what it is. -/
structure Slave (σ : Type) where
  phase : SlavePhase
  /-- the "response staging buffer", the handler's `response_buffer` -/
  buffer : List Byte
  /-- R141: how many bytes of `buffer` are staged -/
  length : Nat
  /-- R142: "the last-written offset" -/
  offset : Nat
  /-- what the handler remembers from frame to frame -/
  device : σ
  deriving DecidableEq, Repr

/-- R139: `handler(frame, response_buffer) -> Option<response_length>`, an external collaborator: from the device's state, the
frame's region and the buffer to the device's new state, the buffer's new bytes and the answer. -/
abbrev Handler (σ : Type) := σ → List Byte → List Byte → σ × List Byte × Option Nat

/-- How one poll of `process` ends. An error carries the Slave too: "the engine remains usable for the next call" (R143). -/
inductive SlaveTurn (σ : Type) where
  | ok (slave : Slave σ) (s : State) (link : Link)
  | err (e : ExchangeError) (slave : Slave σ) (s : State) (link : Link)
  /-- a handler's length past the end of its buffer, of which `response_buffer[0..length]` is no slice; the spec gives it no
  effect (entry 18, DESIGN CHOICE, safe) -/
  | overrun
  /-- the block stopped -/
  | stopped
  deriving DecidableEq, Repr

/-- R141: the staged response. -/
def Slave.staged {σ : Type} (slave : Slave σ) : List Byte := slave.buffer.take slave.length

/-- R142: what is not yet written. -/
def Slave.unsent {σ : Type} (slave : Slave σ) : List Byte := slave.staged.drop slave.offset

/-- R140: `Idle`. -/
def Slave.idlePoll {σ : Type} (slave : Slave σ) (s : State) (link : Link) : SlaveTurn σ :=
  match pollOnce s with
  | .ready t => .ok { slave with phase := .processCommand } t link
  | .notYet t => .ok slave t link
  | .failed a t => .err (.assembly a) slave t link
  | .stopped => .stopped

/-- R141: "invoke `handler`": the buffer keeps its size, whatever the handler leaves in it (entry 18). -/
def Slave.handle {σ : Type} (slave : Slave σ) (handler : Handler σ) (r : List Byte) : Slave σ × Option Nat :=
  match handler slave.device r slave.buffer with
  | (device, left, answer) =>
    ({ slave with device := device, buffer := overwrite slave.buffer 0 (left.take slave.buffer.length) }, answer)

/-- R141: `ProcessCommand`: "verify checksum; on failure, drop the frame and return to `Idle` (no response, no fault
propagated)"; "`Some(length)` stages `response_buffer[0..length]`". -/
def Slave.processPoll {σ : Type} (slave : Slave σ) (handler : Handler σ) (s : State) (link : Link) : SlaveTurn σ :=
  match s.asm.exposed with
  | .bytes r =>
    match verifyError r with
    | some _ => .ok { slave with phase := .idle } s link
    | none =>
      match slave.handle handler r with
      | (slave, none) => .ok { slave with phase := .idle } s link
      | (slave, some length) =>
        if length ≤ slave.buffer.length then
          .ok { slave with phase := .sendResponse, length := length, offset := 0 } s link
        else .overrun
  | .noFrame => .stopped
  | .unwritten => .stopped

/-- The Slave after `bs` was accepted by the sink. -/
def Slave.advance {σ : Type} (slave : Slave σ) (bs : List Byte) : Slave σ :=
  { slave with offset := slave.offset + bs.length }

/-- R142: `SendResponse`: "write as many bytes as possible non-blockingly from the staged response, resuming from the
last-written offset on subsequent polls; a would-block signal simply pauses transmission until the next poll; full drain
returns to `Idle`". One choice of the sink is used for each write; with none left a write is accepted whole (entry 17).
DESIGN CHOICE (entry 22): the spec does not say where the Slave stands after a transport write error. Here it stays in
`SendResponse` behind the bytes that were accepted, so that a later poll resumes with the rest. -/
def Slave.sendLoop {σ : Type} : List SinkReply → Slave σ → State → Link → SlaveTurn σ
  | [], slave, s, link =>
    .ok { slave.advance slave.unsent with phase := .idle } (s.echo link slave.unsent)
      { link with sink := [], sent := link.sent ++ slave.unsent }
  | .wouldBlock :: later, slave, s, link => .ok slave s { link with sink := later }
  | .error e :: later, slave, s, link => .err (.transportWrite e) slave s { link with sink := later }
  | .written most :: later, slave, s, link =>
    let accepted := slave.unsent.take most
    let slave := slave.advance accepted
    let link := { link with sink := later, sent := link.sent ++ accepted }
    if slave.unsent = [] then .ok { slave with phase := .idle } (s.echo link accepted) link
    else Slave.sendLoop later slave (s.echo link accepted) link

/-- R142: "While in `ProcessCommand` or `SendResponse` the Slave does not poll the assembler." -/
def Slave.sendPoll {σ : Type} (slave : Slave σ) (s : State) (link : Link) : SlaveTurn σ :=
  if slave.unsent = [] then .ok { slave with phase := .idle } s link
  else Slave.sendLoop link.sink slave s link

/-- R139: one poll of `process(reader, writer, handler)`, which does one transition (entry 18). -/
def Slave.process {σ : Type} (slave : Slave σ) (handler : Handler σ) (s : State) (link : Link) : SlaveTurn σ :=
  match slave.phase with
  | .idle => slave.idlePoll s link
  | .processCommand => slave.processPoll handler s link
  | .sendResponse => slave.sendPoll s link

end Sys2Proof.Machine
end

