-- ==== Sys2Proof/Machine/Bus.lean ====
section
/-! DEFINITION. A Master and a Slave on one line (R146), outside the block (`00_scope.md` section 3; entry 23), and a handler
that answers reads of registers. -/

namespace Sys2Proof.Machine

/-- The two consumers, each with an assembler of its own and its end of the line. -/
structure Bus (σ : Type) where
  near : Exchange
  slave : Slave σ
  far : State
  farLink : Link
  deriving DecidableEq, Repr

/-- Who moves next. -/
inductive Mover where
  | master
  | slave
  deriving DecidableEq, Repr

/-- Bytes reach the other end (R35: at the end of what waits there). -/
def State.hear (s : State) (bs : List Byte) : State := { s with src := s.src.arrive bs }

/-- What was written between two states of an end of the line. -/
def Link.newlySent (before after : Link) : List Byte := after.sent.drop before.sent.length

/-- The Master's turn; what it wrote arrives at the Slave. DESIGN CHOICE (entry 23): at once, all of it and unchanged. -/
def Bus.masterMove {σ : Type} (b : Bus σ) : Bus σ :=
  { b with near := b.near.turn, far := b.far.hear (b.near.link.newlySent b.near.turn.link) }

/-- The Slave after its poll; what it wrote arrives at the Master. -/
def Bus.slaveMoved {σ : Type} (b : Bus σ) (slave : Slave σ) (s : State) (link : Link) : Bus σ where
  near := { b.near with block := b.near.block.hear (b.farLink.newlySent link) }
  slave := slave
  far := s
  farLink := link

/-- One poll of the Slave's `process`. An error is its caller's, who polls again later (R143); a Slave that stopped does not
move (entry 23). -/
def Bus.slaveMove {σ : Type} (handler : Handler σ) (b : Bus σ) : Bus σ :=
  match b.slave.process handler b.far b.farLink with
  | .ok slave s link => b.slaveMoved slave s link
  | .err _ slave s link => b.slaveMoved slave s link
  | .overrun => b
  | .stopped => b

def Bus.move {σ : Type} (handler : Handler σ) (b : Bus σ) : Mover → Bus σ
  | .master => b.masterMove
  | .slave => b.slaveMove handler

/-- The moves in order. -/
def Bus.run {σ : Type} (handler : Handler σ) : List Mover → Bus σ → Bus σ
  | [], b => b
  | m :: later, b => Bus.run handler later (b.move handler m)

/-- `count` registers from `address` on. -/
def registerData (regs : Byte → Byte) (address : Byte) (count : Nat) : List Byte :=
  (List.range count).map fun k => regs (address + BitVec.ofNat 8 k)

/-- R146: a device with the id `own` that answers a Read-Register command (R55) from `regs`, and no other frame, when the
response fits its buffer. DESIGN CHOICE (entry 23): it writes the whole wire image (U19; `95_test_vectors.md` P5), and it does
not answer a read of more than 253 registers, whatever its buffer's size: no frame can carry that response, and "what the
device does is outside the block" (R124). -/
def registerHandler (own status : Byte) (regs : Byte → Byte) : Handler Unit := fun device r buffer =>
  match r with
  | [id, _, command, address, count, _] =>
    if id = own ∧ command = 0x02 ∧ count.toNat ≤ 253 ∧ count.toNat + 6 ≤ buffer.length then
      (device, overwrite buffer 0 (frameImage own (status :: registerData regs address count.toNat)),
        some (count.toNat + 6))
    else (device, buffer, none)
  | _ => (device, buffer, none)

end Sys2Proof.Machine
end

