-- ==== Sys2Proof/Safety.lean ====
section
/-! DEFINITION. The terms claims are stated in: the invariant of R20, what a run of polls reports, and the transition
relation in words of the rules. -/

namespace Sys2Proof.Machine

/-- Every byte below `n` has been written. -/
abbrev Memory.writtenBelow (m : Memory) (n : Nat) : Prop := ∀ i, i < n → (Memory.read? m i).isSome = true

/-- R20, for the buffer and the cursor whatever the state: the canonical form, "Every store is at an index `< CAP`", and
the ranges of `CAP` and `cursor` (R10, R14). -/
abbrev Assembler.shape (a : Assembler) : Prop :=
  Config.minCapacity ≤ a.cap ∧ Memory.wf a.buf = true ∧ (∀ c ∈ a.buf, c.1 < a.cap) ∧ a.cursor ≤ a.cap ∧ a.cursor ≤ 257

/-- R20: what `state` says of `cursor` and `buf`. -/
abbrev Assembler.stage (a : Assembler) : Prop :=
  match a.state with
  | .seekMarker1 => True
  | .seekMarker2 => True
  | .header => a.cursor ≤ 1 ∧ Memory.writtenBelow a.buf a.cursor
  | .data =>
    match a.need? with
    | none => False
    | some need => 2 ≤ a.cursor ∧ a.cursor < need ∧ need ≤ a.cap ∧ Memory.writtenBelow a.buf a.cursor
  | .completed =>
    match a.need? with
    | none => False
    | some need => a.cursor = need ∧ need ≤ a.cap ∧ Memory.writtenBelow a.buf need

/-- R20: "Between operations ... the state satisfies all of the following." -/
abbrev Assembler.Inv (a : Assembler) : Prop := a.shape ∧ a.stage

/-- R20 of the machine's state. -/
abbrev State.Inv (s : State) : Prop := s.asm.Inv

/-- The outcome is a next state. -/
def isNext : StepOutcome → Bool
  | .next _ => true
  | .fault _ => false
  | .refused _ => false

/-- The outcome is a fault. -/
def isFault : StepOutcome → Bool
  | .next _ => false
  | .fault _ => true
  | .refused _ => false

/-- What a consumer sees of a run: after how many bytes a frame was completed or rejected, and the region exposed then. -/
structure Event where
  position : Nat
  signal : Signal
  frame : RegionView
  deriving DecidableEq, Repr

/-- The signal that the result of a poll carries (R91, R97, R98). -/
def resultSignal : Option Result → Option Signal
  | some (.ok (.flag true)) => some .done
  | some (.err (.assembly .insufficientCapacity)) => some .insufficientCapacity
  | _ => none

/-- `n` polls in a row (`ASM.READ`, R181), with the events they report; positions count from `start` bytes handed over.
None if a poll does not answer a next state. -/
def pollRun (start : Nat) : Nat → State → Option (State × List Event)
  | 0, s => some (s, [])
  | n + 1, s =>
    match execAsmRead s with
    | .next t =>
      match pollRun start n t with
      | some (u, events) =>
        some (u, (resultSignal t.result).toList.map (Event.mk (t.src.handed.length - start) · t.asm.exposed) ++ events)
      | none => none
    | .fault _ => none
    | .refused _ => none

/-- R34: how many bytes the poll's next request asks for. -/
def Assembler.requestSize (a : Assembler) : Nat :=
  match a.state with
  | .seekMarker1 => 2
  | .completed => 2
  | .seekMarker2 => 1
  | .header => 2 - a.cursor
  | .data => a.need?.getD 0 - a.cursor

/-- R94, R96, R104: where the next received byte is stored; seeking states store nothing (R16 (c)). -/
def Assembler.storeIndex (a : Assembler) : Option Nat :=
  match a.state with
  | .seekMarker1 => none
  | .completed => none
  | .seekMarker2 => none
  | .header => some a.cursor
  | .data => some a.cursor

/-- The buffer indices that a run of received bytes stores to. -/
def feedStores (a : Assembler) : List Byte → List Nat
  | [] => []
  | b :: bs =>
    match stepByte a b with
    | .fault _ => []
    | .ok a' _ => a.storeIndex.toList ++ feedStores a' bs

/-- R92: the states in which a new marker pair is looked for from its first byte. -/
abbrev Assembler.seeking (a : Assembler) : Prop := a.state = .seekMarker1 ∨ a.state = .completed

/-- An end of the line before an exchange: nothing on the line, a seeking assembler with room for `room` bytes. -/
abbrev State.quiet (s : State) (room : Nat) : Prop :=
  s.Inv ∧ s.asm.seeking ∧ s.src.waiting = [] ∧ s.src.script = [] ∧ s.src.endless = none ∧ room ≤ s.asm.cap

/-- R71, in the rule's own terms: the guard passes on `r`, whose length byte is `len`. -/
abbrev guardPasses (r : List Byte) (len : Byte) : Prop :=
  3 ≤ r.length ∧ r[1]? = some len ∧ 1 ≤ len.toNat ∧ len.toNat + 2 ≤ r.length

/-- R71, in the rule's own terms: the guard raises `e` on `r`. -/
abbrev guardFails (r : List Byte) (e : FrameError) : Prop :=
  (r.length < 3 ∧ e = .headerTooShort) ∨
    (3 ≤ r.length ∧ e = .lengthInconsistent ∧ ((r.getD 1 0).toNat = 0 ∨ (r.getD 1 0).toNat + 2 > r.length))

/-- The received bytes of the line, as opposed to operations (R65: the wire rows). -/
def isWire : Instr → Bool
  | .wireMarkerByte => true
  | .wireFrame _ _ => true
  | .wireReadReg _ _ _ _ => true
  | .wireWriteReg _ _ _ _ => true
  | .asmNew _ => false
  | .asmRead => false
  | .asmFrame => false
  | .frameId _ => false
  | .frameLength _ => false
  | .framePayload _ => false
  | .frameChecksum _ => false
  | .frameVerify _ => false
  | .frameSetId _ _ => false
  | .frameSetLength _ _ => false
  | .framePayloadMut _ _ _ => false
  | .frameUpdateChecksum _ => false
  | .buildReadReg _ _ _ => false
  | .buildWriteReg _ _ _ => false
  | .frameEncode _ _ => false

/-- The operations that write the assembler: construction, the poll, and received bytes (R11, R18). -/
def writesAssembler : Instr → Bool
  | .asmNew _ => true
  | .asmRead => true
  | i => isWire i

/-- R106: "contains no two adjacent marker bytes and does not end with a marker byte". -/
def harmlessGarbage : List Byte → Bool
  | [] => true
  | [b] => !(b == Config.marker)
  | b :: c :: g => !(b == Config.marker && c == Config.marker) && harmlessGarbage (c :: g)

/-- R52, R50: a well-formed frame's region: `L >= 1`, and `L + 2` bytes. -/
def properRegion (r : List Byte) : Bool :=
  decide (1 ≤ declaredLength r) && decide (r.length = declaredLength r + 2)

end Sys2Proof.Machine
end

