-- ==== Sys2Proof/Certificates/Slice0/Obligations.lean ====
section
/-! DEFINITION. The statements for the provers. A docstring names the rule of the spec that a statement formalises, or says
what it is derived from. -/

open Sys2Proof Sys2Proof.Machine

/-! ### Encoding -/

/-- Every well-formed instruction is read back from its bytes, with every operand. The operand bytes are the model's layout
(entry 1); the wire images are R50 to R58 and the selectors R61. A lone marker byte must not be followed by a second one. -/
def Obligations.DecodeOfEncodeIsTheInstruction : Prop :=
  ∀ (i : Instr) (rest : List Byte), i.wf = true →
    (i = .wireMarkerByte → rest.head? ≠ some Config.marker) → decode (encode i ++ rest) = .instr i rest

/-- The other direction: bytes that decode are the instruction's own bytes, so no bit of a request is dropped. The operand bytes
are the model's layout (entry 1). -/
def Obligations.RequestBytesHaveOneReading : Prop :=
  ∀ (bs : List Byte) (i : Instr) (rest : List Byte), decode bs = .instr i rest → bs = encode i ++ rest

/-- R61's last sentence, for first bytes other than the marker byte (which begins a wire image, entry 1); and each listed
selector selects something. -/
def Obligations.UnlistedSelectorsAreRefused : Prop :=
  let listed : List Byte :=
    [0x00, 0x01, 0x02, 0x10, 0x11, 0x12, 0x13, 0x14, 0x18, 0x19, 0x1A, 0x1B, 0x20, 0x21, 0x22]
  (∀ (op : Byte) (bs : List Byte) (later : List (List Byte)) (s : State), op ∉ listed → op ≠ Config.marker →
      s.requests = (op :: bs) :: later → step s = .refused (.unknownSelector op)) ∧
    ∀ (op : Byte) (bs : List Byte), op ∈ listed → decode (op :: bs) ≠ .rejected (.unknownSelector op)

/-- R65: the decoder agrees with the wire rows of the opcode table, and the command rows refine the frame row. The
Write-Register row's field note asks for a length of at least 3. -/
def Obligations.WireRowsAgreeWithTheDecoder : Prop :=
  ∀ bs : List Byte,
    (readRegRow.accepts bs = true → frameRow.accepts bs = true) ∧
    (writeRegRow.accepts bs = true → frameRow.accepts bs = true) ∧
    ∀ (i : Instr) (rest : List Byte), decode bs = .instr i rest →
      (markerByteRow.accepts bs = true ↔ isWire i = true) ∧
      (frameRow.accepts bs = true ↔ isWire i = true ∧ i ≠ .wireMarkerByte) ∧
      (readRegRow.accepts bs = true ↔ ∃ id address length checksum, i = .wireReadReg id address length checksum) ∧
      (writeRegRow.accepts bs = true ∧ 3 ≤ (bs.getD 3 0).toNat ↔
        ∃ id address data checksum, i = .wireWriteReg id address data checksum)

/-- Wire images written out from R50, R55 and R56, and requests that start with a selector of R61, decode to what they stand
for. The operand bytes behind a selector are the model's layout (entry 1, DESIGN CHOICE): the region bytes of `14 02` and
`18 00 02`, and the operand order of `20 01 10 04`. -/
def Obligations.WordsFromTheSpecDecode : Prop :=
  decode [0xFF] = .instr .wireMarkerByte [] ∧
  decode [0xFF, 0xFF, 0x05, 0x02, 0x00, 0xF8] = .instr (.wireFrame 0x05 [0x00, 0xF8]) [] ∧
  decode [0xFF, 0xFF, 0x02, 0x04, 0x02, 0x38, 0x02, 0xBD] = .instr (.wireReadReg 0x02 0x38 0x02 0xBD) [] ∧
  decode [0xFF, 0xFF, 0x01, 0x05, 0x03, 0x2A, 0x00, 0x14, 0xB8] =
    .instr (.wireWriteReg 0x01 0x2A [0x00, 0x14] 0xB8) [] ∧
  decode [0x01] = .instr .asmRead [] ∧
  decode [0x02] = .instr .asmFrame [] ∧
  decode [0x14, 0x02] = .instr (.frameVerify .frame) [] ∧
  decode [0x18, 0x00, 0x02] = .instr (.frameSetId .operand 0x02) [] ∧
  decode [0x20, 0x01, 0x10, 0x04] = .instr (.buildReadReg 0x01 0x10 0x04) []

/-! ### The step and reset -/

/-- The next request of the consumer runs as the instruction its bytes decode to; bytes that decode to nothing are refused
by name; with no request the block is quiescent (R184) and nothing changes (entry 3). -/
def Obligations.StepRunsTheNextRequest : Prop :=
  (∀ (s : State) (w : List Byte) (later : List (List Byte)) (i : Instr) (rest : List Byte),
      s.requests = w :: later → decode w = .instr i rest → step s = exec i { s with requests := later }) ∧
  (∀ (s : State) (w : List Byte) (later : List (List Byte)) (e : DecodeError),
      s.requests = w :: later → decode w = .rejected e → step s = .refused (refusalOf e)) ∧
  ∀ s : State, s.requests = [] → step s = .next s

/-- The state after reset: R23's values, a capacity that entry 4 chooses, and R20's invariant. -/
def Obligations.ResetMeetsTheInvariant : Prop :=
  State.reset.Inv ∧ State.reset.asm.state = .seekMarker1 ∧ State.reset.asm.cursor = 0 ∧
    State.reset.asm.cap = 257 ∧ ∀ i, Memory.read? State.reset.asm.buf i = none

/-- R90, with its corner cases; nothing but the assembler and the delivered result changes (R171: the byte source keeps
its bytes). -/
def Obligations.ConstructionGivesAFreshAssembler : Prop :=
  ∀ (cap : Nat) (s : State),
    (cap < 3 → exec (.asmNew cap) s = .refused .capacityTooSmall) ∧
    (3 ≤ cap →
      exec (.asmNew cap) s =
        .next { s with
          asm := { cap := cap, state := .seekMarker1, cursor := 0, buf := [] }
          result := some (.ok .unit) }) ∧
    (encode (.asmNew cap)).head? = some 0x00 ∧
    (∀ (id len : Byte), cap = 3 →
      ∃ a signals, feed { cap := cap, state := .seekMarker1, cursor := 0, buf := [] } [0xFF, 0xFF, id, len] =
        .ok a signals ∧ (signals = [.insufficientCapacity] ↔ 2 ≤ len.toNat)) ∧
    ∀ (id len : Byte), 257 ≤ cap →
      ∃ a signals, feed { cap := cap, state := .seekMarker1, cursor := 0, buf := [] } [0xFF, 0xFF, id, len] =
        .ok a signals ∧ Signal.insufficientCapacity ∉ signals

/-! ### The poll -/

/-- R104's last paragraph: `ASM.READ` is `ASM.STEP` applied in order to the bytes it takes; `true` at a `Done`, the error at
an error, and only results that R91 lists. On a line that ends it always answers a next state: R107 makes this depend on
the source, and here on the model's form of it (entries 8 and 14); see `EndlessLinesAreNeverDry` for a line that does not. -/
def Obligations.PollIsTheFoldOfReceivedBytes : Prop :=
  ∀ s : State, s.Inv →
    (s.src.endless = none → ∃ t, exec .asmRead s = .next t) ∧
    ∀ t, exec .asmRead s = .next t →
      ∃ d : List Byte, t.src.handed = s.src.handed ++ d ∧ t.src.stream = s.src.stream ∧
        (s.src.endless = none → s.src.remaining = d ++ t.src.remaining) ∧
        feed s.asm d = .ok t.asm (resultSignal t.result).toList ∧
        t = { s with asm := t.asm, src := t.src, result := t.result } ∧
        (t.result = some (.ok (.flag true)) ∨ t.result = some (.ok (.flag false)) ∨
          (∃ e, t.result = some (.err (.assembly (.transport e)))) ∨
          t.result = some (.err (.assembly .insufficientCapacity)))

/-- R91's loop, trip by trip, and R107's first sentence: a trip that does not end the poll consumes at least one byte, and
the poll goes on from the state it left; a trip that ends the poll decides its result. On an endless line a poll may run out
of the model's fuel instead (entry 14). -/
def Obligations.PollIsTheLoopOfTrips : Prop :=
  ∀ (s : State) (a : Assembler) (src : Source),
    (turn s.asm s.src = .again a src →
      s.src.handed.length < src.handed.length ∧
        (exec .asmRead s = exec .asmRead { s with asm := a, src := src } ∨
          s.src.endless ≠ none ∧
            (exec .asmRead s = .fault .pollDidNotEnd ∨
              exec .asmRead { s with asm := a, src := src } = .fault .pollDidNotEnd))) ∧
    ∀ how, turn s.asm s.src = .ended a src how →
      exec .asmRead s =
        .next { s with
          asm := a
          src := src
          result := some
            (match how with
            | .frameDone => .ok (.flag true)
            | .dry => .ok (.flag false)
            | .transport e => .err (.assembly (.transport e))
            | .insufficientCapacity => .err (.assembly .insufficientCapacity)) }

/-- R99: `WouldBlock` or zero bytes end the poll with `false` and write nothing. -/
def Obligations.EmptyAnswerEndsThePollUnchanged : Prop :=
  ∀ (s : State), s.Inv →
    (s.src.read s.asm.requestSize).1 = .wouldBlock ∨ (s.src.read s.asm.requestSize).1 = .bytes [] →
    turn s.asm s.src = .ended s.asm (s.src.read s.asm.requestSize).2 .dry ∧
    exec .asmRead s =
      .next { s with src := (s.src.read s.asm.requestSize).2, result := some (.ok (.flag false)) }

/-- R100: `Error(e)` ends the poll with `Transport(e)`, `e` unchanged, and writes nothing. -/
def Obligations.TransportErrorEndsThePollUnchanged : Prop :=
  ∀ (s : State) (e : TransportError), s.Inv → (s.src.read s.asm.requestSize).1 = .error e →
    turn s.asm s.src = .ended s.asm (s.src.read s.asm.requestSize).2 (.transport e) ∧
    exec .asmRead s =
      .next { s with
        src := (s.src.read s.asm.requestSize).2
        result := some (.err (.assembly (.transport e))) }

/-- R92 and R93: what the seek steps make of the bytes they get. -/
def Obligations.SeekStepsFollowTheMarkerBytes : Prop :=
  ∀ (a : Assembler) (src src' : Source) (e : TransportError),
    (a.seeking →
      (∀ b, src.read 2 = (.bytes [b], src') →
        turn a src = .again { a with state := if b = 0xFF then .seekMarker2 else .seekMarker1 } src') ∧
      (∀ b c, src.read 2 = (.bytes [b, c], src') →
        turn a src =
          .again
            (if b = 0xFF ∧ c = 0xFF then { a with state := .header, cursor := 0 }
            else { a with state := if c = 0xFF then .seekMarker2 else .seekMarker1 }) src') ∧
      (src.read 2 = (.error e, src') → turn a src = .ended a src' (.transport e))) ∧
    (a.state = .seekMarker2 →
      (∀ b, src.read 1 = (.bytes [b], src') →
        turn a src =
          .again (if b = 0xFF then { a with state := .header, cursor := 0 } else { a with state := .seekMarker1 }) src') ∧
      (src.read 1 = (.error e, src') → turn a src = .ended a src' (.transport e)))

/-- R94, R95 and R97: the header bytes are stored at the cursor; a whole header is rejected when `buf[1] + 2 > CAP`, and the
poll ends with `InsufficientCapacity`; else the loop goes on in `Data`. -/
def Obligations.HeaderStepStoresAndChecksCapacity : Prop :=
  (∀ (a : Assembler) (src src' : Source), a.Inv → a.state = .header →
    (∀ e, src.read (2 - a.cursor) = (.error e, src') → turn a src = .ended a src' (.transport e)) ∧
    ∀ d, d ≠ [] → src.read (2 - a.cursor) = (.bytes d, src') →
      a.cursor + d.length ≤ 2 ∧
      (a.cursor + d.length < 2 →
        turn a src =
          .again { a with buf := Memory.writeBytes a.buf a.cursor d, cursor := a.cursor + d.length } src') ∧
      (a.cursor + d.length = 2 →
        ∃ len, Memory.read? (Memory.writeBytes a.buf a.cursor d) 1 = some len ∧
          turn a src =
            if len.toNat + 2 > a.cap then
              .ended { a with state := .seekMarker1, buf := Memory.writeBytes a.buf a.cursor d, cursor := 2 } src'
                .insufficientCapacity
            else .again { a with state := .data, buf := Memory.writeBytes a.buf a.cursor d, cursor := 2 } src')) ∧
  ∀ (s : State) (a : Assembler) (src : Source), turn s.asm s.src = .ended a src .insufficientCapacity →
    exec .asmRead s =
      .next { s with asm := a, src := src, result := some (.err (.assembly .insufficientCapacity)) }

/-- R96 and R98: the body bytes are stored at the cursor; the frame completes at `buf[1] + 2` bytes, at once and without a
request when `buf[1]` is 0, and the poll returns `true`. -/
def Obligations.DataStepStoresAndCompletes : Prop :=
  (∀ (a : Assembler) (src src' : Source) (len : Byte), a.state = .data → Memory.read? a.buf 1 = some len →
    (a.cursor = len.toNat + 2 → turn a src = .ended { a with state := .completed } src .frameDone) ∧
    (a.Inv →
      (∀ e, src.read (len.toNat + 2 - a.cursor) = (.error e, src') → turn a src = .ended a src' (.transport e)) ∧
      ∀ d, d ≠ [] → src.read (len.toNat + 2 - a.cursor) = (.bytes d, src') →
        turn a src =
          if a.cursor + d.length = len.toNat + 2 then
            .ended
              { a with
                state := .completed
                buf := Memory.writeBytes a.buf a.cursor d
                cursor := a.cursor + d.length } src' .frameDone
          else
            .again { a with buf := Memory.writeBytes a.buf a.cursor d, cursor := a.cursor + d.length } src')) ∧
  ∀ (s : State) (a : Assembler) (src : Source), turn s.asm s.src = .ended a src .frameDone →
    exec .asmRead s = .next { s with asm := a, src := src, result := some (.ok (.flag true)) }

/-- R34: each trip makes one request, of the size the rule gives for the state, never 0 and never more than the frame in
progress lacks: the source that a trip leaves is the one that this request leaves, and a trip that stores bytes stores those
of its answer, no others. -/
def Obligations.RequestsAreTheExactRemainder : Prop :=
  ∀ a : Assembler, a.Inv →
    1 ≤ a.requestSize ∧
    (a.seeking → a.requestSize = 2) ∧
    (a.state = .seekMarker2 → a.requestSize = 1) ∧
    (a.state = .header → a.requestSize + a.cursor = 2) ∧
    (a.state = .data →
      ∃ len, Memory.read? a.buf 1 = some len ∧ a.requestSize + a.cursor = len.toNat + 2 ∧ a.requestSize ≤ 255) ∧
    ∀ src : Source, ∃ a' : Assembler,
      (turn a src = .again a' (src.read a.requestSize).2 ∨
        ∃ how, turn a src = .ended a' (src.read a.requestSize).2 how) ∧
      (∀ d, (src.read a.requestSize).1 = .bytes d → d ≠ [] →
        d.length ≤ a.requestSize ∧
        (a.state = .header ∨ a.state = .data →
          a'.buf = Memory.writeBytes a.buf a.cursor d ∧ a'.cursor = a.cursor + d.length) ∧
        (a.seeking ∨ a.state = .seekMarker2 →
          a'.buf = a.buf ∧ (a'.state = .seekMarker2 ↔ d.getLast? = some 0xFF ∧ (a.seeking ∧ d ≠ [0xFF, 0xFF])))) ∧
      ((∀ d, (src.read a.requestSize).1 = .bytes d → d = []) → a' = a)

/-! ### Received bytes -/

/-- R108: the transition table, row by row, "No byte, in any state, is stuck or refused", and that the source's other answers
change nothing. The spec marks R108 as derived from R92 to R98. -/
def Obligations.TransitionTable : Prop :=
  ∀ (a : Assembler) (b : Byte), a.Inv →
    (a.state = .seekMarker1 → b = 0xFF → stepByte a b = .ok { a with state := .seekMarker2 } none) ∧
    (a.state = .seekMarker1 → b ≠ 0xFF → stepByte a b = .ok { a with state := .seekMarker1 } none) ∧
    (a.state = .completed → b = 0xFF → stepByte a b = .ok { a with state := .seekMarker2 } none) ∧
    (a.state = .completed → b ≠ 0xFF → stepByte a b = .ok { a with state := .seekMarker1 } none) ∧
    (a.state = .seekMarker2 → b = 0xFF → stepByte a b = .ok { a with state := .header, cursor := 0 } none) ∧
    (a.state = .seekMarker2 → b ≠ 0xFF → stepByte a b = .ok { a with state := .seekMarker1 } none) ∧
    (a.state = .header → a.cursor = 0 →
      stepByte a b = .ok { a with buf := Memory.write a.buf 0 b, cursor := 1 } none) ∧
    (a.state = .header → a.cursor = 1 → b.toNat + 2 > a.cap →
      stepByte a b =
        .ok { a with state := .seekMarker1, buf := Memory.write a.buf 1 b, cursor := 2 } (some .insufficientCapacity)) ∧
    (a.state = .header → a.cursor = 1 → b.toNat = 0 →
      stepByte a b = .ok { a with state := .completed, buf := Memory.write a.buf 1 b, cursor := 2 } (some .done)) ∧
    (a.state = .header → a.cursor = 1 → 1 ≤ b.toNat → b.toNat + 2 ≤ a.cap →
      stepByte a b = .ok { a with state := .data, buf := Memory.write a.buf 1 b, cursor := 2 } none) ∧
    (∀ len, a.state = .data → Memory.read? a.buf 1 = some len → a.cursor + 1 < len.toNat + 2 →
      stepByte a b = .ok { a with buf := Memory.write a.buf a.cursor b, cursor := a.cursor + 1 } none) ∧
    (∀ len, a.state = .data → Memory.read? a.buf 1 = some len → a.cursor + 1 = len.toNat + 2 →
      stepByte a b =
        .ok { a with state := .completed, buf := Memory.write a.buf a.cursor b, cursor := a.cursor + 1 } (some .done)) ∧
    (∃ a' signal, stepByte a b = .ok a' signal) ∧
    ∀ src src' : Source,
      (src.read a.requestSize = (.wouldBlock, src') → turn a src = .ended a src' .dry) ∧
      (src.read a.requestSize = (.bytes [], src') → turn a src = .ended a src' .dry) ∧
      ∀ e, src.read a.requestSize = (.error e, src') → turn a src = .ended a src' (.transport e)

/-- R20's last item: `Completed` is reached only by the last byte of a frame, from `Data`, or from `Header` when the declared
length is 0; and then `Done` is reported. -/
def Obligations.CompletedOnlyAfterTheLastByte : Prop :=
  ∀ (a : Assembler) (b : Byte) (a' : Assembler) (signal : Option Signal), a.Inv → stepByte a b = .ok a' signal →
    (a'.state = .completed ↔ signal = some .done) ∧
    (a'.state = .completed →
      (a.state = .data ∧ a.need? = some (a.cursor + 1)) ∨ (a.state = .header ∧ a.cursor = 1 ∧ b = 0))

/-- The frame of reception: a poll and the wire rows (received bytes with one poll, entry 10) leave every byte of the buffer
as it was but those at the indices that the bytes they take are stored to, which lie inside the buffer; and of the rest of
the state only what they name. -/
def Obligations.ReceivedBytesChangeOnlyTheirCells : Prop :=
  ∀ (i : Instr) (s t : State), i = .asmRead ∨ isWire i = true → s.Inv → exec i s = .next t →
    ∃ d, t.src.handed = s.src.handed ++ d ∧
      (∀ j, j ∉ feedStores s.asm d → Memory.read? t.asm.buf j = Memory.read? s.asm.buf j) ∧
      (∀ j ∈ feedStores s.asm d, j < s.asm.cap) ∧
      t.asm.cap = s.asm.cap ∧ t.region = s.region ∧ t.image = s.image ∧ t.requests = s.requests ∧
      t.freeCount = s.freeCount

/-- R105: two runs of polls from the same assembler state that are handed the same bytes report the same events (the same
frames, with the same bytes, in the same order, and the same rejections, each at the same byte position) and end in the
same assembler state, however the bytes were cut and whatever `WouldBlock`, zero-byte or error answers came between. The
result of a single poll does depend on the cutting. The spec marks R105 as derived from R104. -/
def Obligations.ResultsDoNotDependOnTheCutting : Prop :=
  (∀ (s t s' t' : State) (m n : Nat) (es et : List Event) (d : List Byte),
    s.Inv → s.asm = t.asm →
    pollRun s.src.handed.length m s = some (s', es) → pollRun t.src.handed.length n t = some (t', et) →
    s'.src.handed = s.src.handed ++ d → t'.src.handed = t.src.handed ++ d →
    s'.asm = t'.asm ∧ es = et) ∧
  ∃ s t s' t' : State, s.Inv ∧ s.asm = t.asm ∧ s.src.remaining = t.src.remaining ∧
    exec .asmRead s = .next s' ∧ exec .asmRead t = .next t' ∧ s'.result ≠ t'.result

/-- R106's first two sentences: after garbage without an adjacent marker pair that does not end with a marker byte, the next
frame completed is the well-formed frame that follows, uncorrupted, and nothing is reported before it. -/
def Obligations.FrameIsFoundAfterHarmlessGarbage : Prop :=
  ∀ (s t : State) (g r tail : List Byte) (n : Nat) (events : List Event),
    s.Inv → s.asm.seeking → harmlessGarbage g = true → properRegion r = true → r.length ≤ s.asm.cap →
    s.src.remaining = g ++ (0xFF :: 0xFF :: r) ++ tail →
    pollRun s.src.handed.length n s = some (t, events) →
    if t.src.handed.length < s.src.handed.length + (g.length + (r.length + 2)) then events = []
    else events.head? = some { position := g.length + (r.length + 2), signal := .done, frame := .bytes r }

/-- The same for a source that hands over what is waiting at once (entry 8): one poll returns `true`, exposes exactly the
frame's region and leaves the bytes after the frame (R91, R34, R106). -/
def Obligations.PromptPollReturnsTheFrame : Prop :=
  ∀ (s : State) (g r tail : List Byte),
    s.Inv → s.asm.seeking → harmlessGarbage g = true → properRegion r = true → r.length ≤ s.asm.cap →
    s.src.script = [] → s.src.waiting = g ++ (0xFF :: 0xFF :: r) ++ tail →
    ∃ t, exec .asmRead s = .next t ∧ t.result = some (.ok (.flag true)) ∧ t.asm.exposed = .bytes r ∧
      t.src.waiting = tail ∧ t.src.handed = s.src.handed ++ (g ++ (0xFF :: 0xFF :: r))

/-- R106's second half (and `90_conflicts.md` C1): a stray marker byte right before a frame makes the frame's second marker
byte the id and the frame's id the length. -/
def Obligations.StrayMarkerByteLosesTheFrame : Prop :=
  ∀ (a : Assembler) (g : List Byte) (id : Byte), a.Inv → a.seeking → harmlessGarbage g = true →
    ∃ a' signals, feed a (g ++ [0xFF] ++ [0xFF, 0xFF, id]) = .ok a' signals ∧
      Memory.read? a'.buf 0 = some 0xFF ∧ Memory.read? a'.buf 1 = some id ∧ a'.cursor = 2 ∧
      a'.state = (if id.toNat + 2 > a.cap then .seekMarker1 else if id = 0 then .completed else .data) ∧
      signals = (if id.toNat + 2 > a.cap then [.insufficientCapacity] else if id = 0 then [.done] else [])

/-- R50, R58 (and R63 for length 0): a frame that fits, received while seeking, completes, and its region is exposed with the
markers stripped. The three frame rows; that a wire row comes with one poll, whose result it delivers, is the model's choice
(entry 10), and that the source answers at once is entry 8's. -/
def Obligations.WireFrameCompletesFromSeeking : Prop :=
  ∀ (i : Instr) (s : State) (id len : Byte) (body : List Byte),
    isWire i = true → i.wf = true → encode i = 0xFF :: 0xFF :: id :: len :: body →
    s.Inv → s.asm.seeking → s.src.waiting = [] → s.src.script = [] → body.length + 2 ≤ s.asm.cap →
    body.length = len.toNat ∧
    ∃ t, exec i s = .next t ∧
      t = { s with
        asm :=
          { s.asm with
            state := .completed
            cursor := body.length + 2
            buf := Memory.writeBytes s.asm.buf 0 (id :: len :: body) }
        src := { s.src with handed := s.src.handed ++ encode i }
        result := some (.ok (.flag true)) } ∧
      t.asm.exposed = .bytes (id :: len :: body)

/-- R97, R63: a frame that does not fit is rejected at its header, and its body is scanned as garbage from `SeekMarker1`. -/
def Obligations.OversizedFrameIsRejectedAndRescanned : Prop :=
  ∀ (a : Assembler) (id : Byte) (body : List Byte),
    a.Inv → a.seeking → body.length ≤ 255 → body.length + 2 > a.cap →
    feed a (wireBytes id body) =
      (feed
        { a with
          state := .seekMarker1
          cursor := 2
          buf := Memory.writeBytes a.buf 0 [id, BitVec.ofNat 8 body.length] } body).prepend
        (some .insufficientCapacity)

/-- `00_scope.md` section 5, R30 and R104: the bytes of a wire row arrive behind those that wait, and one poll follows, which
takes bytes in line order through `ASM.STEP`. That a wire row comes with one poll is the model's choice (entry 10). On a line
that ends it always completes (entries 8 and 14). -/
def Obligations.WireRowsArriveAndArePolled : Prop :=
  ∀ (i : Instr) (s : State), isWire i = true → s.Inv →
    exec i s = exec .asmRead { s with src := { s.src with waiting := s.src.waiting ++ encode i } } ∧
    (s.src.endless = none →
      ∃ (t : State) (d : List Byte), exec i s = .next t ∧ t.src.handed = s.src.handed ++ d ∧
        s.src.waiting ++ encode i ++ s.src.script.flatMap (·.arriving) = d ++ t.src.remaining ∧
        feed s.asm d = .ok t.asm (resultSignal t.result).toList ∧
        t = { s with asm := t.asm, src := t.src, result := t.result })

/-! ### The exposed frame -/

/-- R101: in `Completed`, `ASM.FRAME` delivers exactly `buf[0 .. buf[1] + 2)`, on which the guard fails only for length 0, with
`HeaderTooShort`; in any other state it is refused. That the read accessors see that region, and are refused where it is not
there, and that a mutator on it is refused in every state, is entry 13 (DEDUCED). -/
def Obligations.ExposedFrameIsExactlyTheRegion : Prop :=
  ∀ s : State, s.Inv →
    (s.asm.state = .completed →
      ∃ len r, Memory.read? s.asm.buf 1 = some len ∧ r.length = len.toNat + 2 ∧
        (∀ k, k < r.length → Memory.read? s.asm.buf k = r[k]?) ∧
        exec .asmFrame s = .next { s with result := some (.ok (.bytes r)) } ∧ s.view .frame = .bytes r ∧
        (len.toNat = 0 → guardFails r .headerTooShort) ∧ (1 ≤ len.toNat → guardPasses r len)) ∧
    (s.asm.state ≠ .completed →
      ∀ i ∈ [Instr.asmFrame, .frameId .frame, .frameLength .frame, .framePayload .frame, .frameChecksum .frame,
          .frameVerify .frame],
        exec i s = .refused .noFrame) ∧
    (∀ (v : Byte) (off : Nat) (bs : List Byte),
      exec (.frameSetId .frame v) s = .refused .readOnlyRegion ∧
      exec (.frameSetLength .frame v) s = .refused .readOnlyRegion ∧
      exec (.framePayloadMut .frame off bs) s = .refused .readOnlyRegion ∧
      exec (.frameUpdateChecksum .frame) s = .refused .readOnlyRegion) ∧
    (encode .asmFrame).head? = some 0x02

/-- R102: a poll from `Completed` that consumes no byte leaves the frame exposed; one that consumes a byte leaves `Completed`
unless it completes the next frame. -/
def Obligations.EmptyPollKeepsTheFrameExposed : Prop :=
  ∀ s t : State, s.Inv → s.asm.state = .completed → exec .asmRead s = .next t →
    (t.src.handed = s.src.handed → t.asm = s.asm) ∧
    (t.src.handed ≠ s.src.handed → t.asm.state = .completed → t.result = some (.ok (.flag true)))

/-! ### The codec -/

/-- R71: the guard's errors, in its order, for every operation that applies it to the stored length; nothing else
changes. -/
def Obligations.GuardErrorsLeaveEverythingElse : Prop :=
  ∀ (s : State) (ref : RegionRef) (r : List Byte) (e : FrameError) (v : Byte) (off : Nat) (bs : List Byte),
    s.view ref = .bytes r → guardFails r e →
    (∀ i ∈ [Instr.frameId ref, .frameLength ref, .framePayload ref, .frameChecksum ref, .frameVerify ref],
      exec i s = .next { s with result := some (.err (.frame e)) }) ∧
    (ref ≠ .frame →
      ∀ i ∈ [Instr.frameSetId ref v, .framePayloadMut ref off bs, .frameUpdateChecksum ref],
        exec i s = .next { s with result := some (.err (.frame e)) })

/-- R72. -/
def Obligations.FrameIdReturnsTheFirstByte : Prop :=
  ∀ (s : State) (ref : RegionRef) (r : List Byte), s.view ref = .bytes r →
    (∀ len id, guardPasses r len → r[0]? = some id →
      exec (.frameId ref) s = .next { s with result := some (.ok (.byte id)) }) ∧
    (∀ e, guardFails r e → exec (.frameId ref) s = .next { s with result := some (.err (.frame e)) }) ∧
    (encode (.frameId ref)).head? = some 0x10

/-- R73. -/
def Obligations.FrameLengthReturnsTheDeclaredLength : Prop :=
  ∀ (s : State) (ref : RegionRef) (r : List Byte), s.view ref = .bytes r →
    (∀ len, guardPasses r len →
      exec (.frameLength ref) s = .next { s with result := some (.ok (.byte len)) } ∧ len ≠ 0) ∧
    (∀ e, guardFails r e → exec (.frameLength ref) s = .next { s with result := some (.err (.frame e)) }) ∧
    (encode (.frameLength ref)).head? = some 0x11

/-- R74. -/
def Obligations.FramePayloadReturnsTheSlice : Prop :=
  ∀ (s : State) (ref : RegionRef) (r : List Byte), s.view ref = .bytes r →
    (∀ len, guardPasses r len →
      ∃ p : List Byte, p.length + 1 = len.toNat ∧ (∀ k, k < p.length → p[k]? = r[k + 2]?) ∧
        exec (.framePayload ref) s = .next { s with result := some (.ok (.bytes p)) }) ∧
    (∀ e, guardFails r e → exec (.framePayload ref) s = .next { s with result := some (.err (.frame e)) }) ∧
    (encode (.framePayload ref)).head? = some 0x12

/-- R75. -/
def Obligations.FrameChecksumReturnsTheStoredByte : Prop :=
  ∀ (s : State) (ref : RegionRef) (r : List Byte), s.view ref = .bytes r →
    (∀ len c, guardPasses r len → r[len.toNat + 1]? = some c →
      exec (.frameChecksum ref) s = .next { s with result := some (.ok (.byte c)) }) ∧
    (∀ e, guardFails r e → exec (.frameChecksum ref) s = .next { s with result := some (.err (.frame e)) }) ∧
    (encode (.frameChecksum ref)).head? = some 0x13

/-- R76: the stored checksum is compared with the recomputed one, the complement of the sum of region bytes 0 to `L` modulo
256. -/
def Obligations.FrameVerifyComparesTheChecksums : Prop :=
  ∀ (s : State) (ref : RegionRef) (r : List Byte), s.view ref = .bytes r →
    (∀ len c, guardPasses r len → r[len.toNat + 1]? = some c →
      exec (.frameVerify ref) s =
        .next { s with
          result := some
            (if c.toNat = 255 - ((r.take (len.toNat + 1)).map BitVec.toNat).sum % 256 then .ok .unit
            else .err (.frame .checksumMismatch)) }) ∧
    (∀ e, guardFails r e → exec (.frameVerify ref) s = .next { s with result := some (.err (.frame e)) }) ∧
    (encode (.frameVerify ref)).head? = some 0x14

/-- R77, on the operand region and on the image's (whose index 0 is wire index 2): one byte is stored; a verifying region
stops verifying when the id changes; a failed guard writes nothing. -/
def Obligations.SetIdStoresTheFirstByte : Prop :=
  ∀ (s : State) (v len : Byte) (e : FrameError),
    (guardPasses s.region len →
      exec (.frameSetId .operand v) s =
        .next { s with region := s.region.set 0 v, result := some (.ok .unit) }) ∧
    (guardPasses (s.image.drop 2) len →
      exec (.frameSetId .image v) s = .next { s with image := s.image.set 2 v, result := some (.ok .unit) }) ∧
    (guardFails s.region e →
      exec (.frameSetId .operand v) s = .next { s with result := some (.err (.frame e)) }) ∧
    (guardFails (s.image.drop 2) e →
      exec (.frameSetId .image v) s = .next { s with result := some (.err (.frame e)) }) ∧
    (∀ t, exec (.frameSetId .operand v) s = .next t → s.region[0]? ≠ some v →
      exec (.frameVerify .operand) s = .next { s with result := some (.ok .unit) } →
        exec (.frameVerify .operand) t = .next { t with result := some (.err (.frame .checksumMismatch)) }) ∧
    (∀ t, exec (.frameSetId .image v) s = .next t → (s.image.drop 2)[0]? ≠ some v →
      exec (.frameVerify .image) s = .next { s with result := some (.ok .unit) } →
        exec (.frameVerify .image) t = .next { t with result := some (.err (.frame .checksumMismatch)) }) ∧
    ∀ ref, (encode (.frameSetId ref v)).head? = some 0x18

/-- R78: the new length is tested, not the stored one; after success the guard passes; one byte is stored. -/
def Obligations.SetLengthTestsTheNewLength : Prop :=
  ∀ (s : State) (v : Byte),
    (3 ≤ s.region.length → 1 ≤ v.toNat → v.toNat + 2 ≤ s.region.length →
      exec (.frameSetLength .operand v) s =
        .next { s with region := s.region.set 1 v, result := some (.ok .unit) } ∧
      guardPasses (s.region.set 1 v) v) ∧
    (3 ≤ (s.image.drop 2).length → 1 ≤ v.toNat → v.toNat + 2 ≤ (s.image.drop 2).length →
      exec (.frameSetLength .image v) s =
        .next { s with image := s.image.set 3 v, result := some (.ok .unit) } ∧
      guardPasses ((s.image.set 3 v).drop 2) v) ∧
    (s.region.length < 3 →
      exec (.frameSetLength .operand v) s = .next { s with result := some (.err (.frame .headerTooShort)) }) ∧
    (3 ≤ s.region.length → v.toNat = 0 ∨ v.toNat + 2 > s.region.length →
      exec (.frameSetLength .operand v) s = .next { s with result := some (.err (.frame .lengthInconsistent)) }) ∧
    ((s.image.drop 2).length < 3 →
      exec (.frameSetLength .image v) s = .next { s with result := some (.err (.frame .headerTooShort)) }) ∧
    (3 ≤ (s.image.drop 2).length → v.toNat = 0 ∨ v.toNat + 2 > (s.image.drop 2).length →
      exec (.frameSetLength .image v) s = .next { s with result := some (.err (.frame .lengthInconsistent)) }) ∧
    ∀ ref, (encode (.frameSetLength ref v)).head? = some 0x19

/-- R79: exactly the bytes `2 + off` to `2 + off + |v|` of the region are replaced, in order; outside the payload slice the
operation is refused. -/
def Obligations.PayloadMutWritesInsideTheSlice : Prop :=
  ∀ (s : State) (off : Nat) (v : List Byte) (len : Byte) (e : FrameError),
    (guardPasses s.region len → off + v.length ≤ len.toNat - 1 →
      ∃ r', exec (.framePayloadMut .operand off v) s = .next { s with region := r', result := some (.ok .unit) } ∧
        r'.length = s.region.length ∧
        ∀ k, r'[k]? = if 2 + off ≤ k ∧ k < 2 + off + v.length then v[k - (2 + off)]? else s.region[k]?) ∧
    (guardPasses (s.image.drop 2) len → off + v.length ≤ len.toNat - 1 →
      ∃ w', exec (.framePayloadMut .image off v) s = .next { s with image := w', result := some (.ok .unit) } ∧
        w'.length = s.image.length ∧
        ∀ k, w'[k]? = if 4 + off ≤ k ∧ k < 4 + off + v.length then v[k - (4 + off)]? else s.image[k]?) ∧
    (guardPasses s.region len → len.toNat - 1 < off + v.length →
      exec (.framePayloadMut .operand off v) s = .refused .outsidePayload) ∧
    (guardPasses (s.image.drop 2) len → len.toNat - 1 < off + v.length →
      exec (.framePayloadMut .image off v) s = .refused .outsidePayload) ∧
    (guardFails s.region e →
      exec (.framePayloadMut .operand off v) s = .next { s with result := some (.err (.frame e)) }) ∧
    (guardFails (s.image.drop 2) e →
      exec (.framePayloadMut .image off v) s = .next { s with result := some (.err (.frame e)) }) ∧
    ∀ ref, (encode (.framePayloadMut ref off v)).head? = some 0x1A

/-- R80: the checksum byte, and no other, is replaced by the complement of the sum of region bytes 0 to `L` modulo 256; then
`FRAME.VERIFY` succeeds, in every later state whose region still has those `L + 2` bytes. -/
def Obligations.UpdateChecksumStoresTheChecksum : Prop :=
  ∀ (s : State) (len c : Byte) (e : FrameError),
    (guardPasses s.region len → c.toNat = 255 - ((s.region.take (len.toNat + 1)).map BitVec.toNat).sum % 256 →
      ∃ t, t = { s with region := s.region.set (len.toNat + 1) c, result := some (.ok .unit) } ∧
        exec (.frameUpdateChecksum .operand) s = .next t ∧
        ∀ u : State, u.region.take (len.toNat + 2) = t.region.take (len.toNat + 2) →
          exec (.frameVerify .operand) u = .next { u with result := some (.ok .unit) }) ∧
    (guardPasses (s.image.drop 2) len →
      c.toNat = 255 - (((s.image.drop 2).take (len.toNat + 1)).map BitVec.toNat).sum % 256 →
      ∃ t, t = { s with image := s.image.set (len.toNat + 3) c, result := some (.ok .unit) } ∧
        exec (.frameUpdateChecksum .image) s = .next t ∧
        ∀ u : State, (u.image.drop 2).take (len.toNat + 2) = (t.image.drop 2).take (len.toNat + 2) →
          exec (.frameVerify .image) u = .next { u with result := some (.ok .unit) }) ∧
    (guardFails s.region e →
      exec (.frameUpdateChecksum .operand) s = .next { s with result := some (.err (.frame e)) }) ∧
    (guardFails (s.image.drop 2) e →
      exec (.frameUpdateChecksum .image) s = .next { s with result := some (.err (.frame e)) }) ∧
    ∀ ref, (encode (.frameUpdateChecksum ref)).head? = some 0x1B

/-- R70: the checksum function, its 8-bit form (accumulate with wrap-around, complement bit by bit), and the sum of a region
whose stored checksum is correct. -/
def Obligations.ChecksumIsTheComplementedSum : Prop :=
  ∀ (r : List Byte) (len c : Byte), 2 ≤ r.length → r[1]? = some len → len.toNat + 2 ≤ r.length →
    (cks r).toNat = 255 - ((r.take (len.toNat + 1)).map BitVec.toNat).sum % 256 ∧
    cks r = ~~~((r.take (len.toNat + 1)).foldl (· + ·) 0) ∧
    (r[len.toNat + 1]? = some c →
      (c = cks r ↔ ((r.take (len.toNat + 2)).map BitVec.toNat).sum % 256 = 255))

/-- R81, round trip: an encoded frame reads back, for every payload up to 254 bytes, the empty one included. -/
def Obligations.EncodedFramesReadBack : Prop :=
  ∀ (s : State) (id : Byte) (payload : List Byte), payload.length ≤ 254 →
    ∃ t len, exec (.frameEncode id payload) s = .next t ∧ len.toNat = payload.length + 1 ∧
      exec (.frameId .image) t = .next { t with result := some (.ok (.byte id)) } ∧
      exec (.frameLength .image) t = .next { t with result := some (.ok (.byte len)) } ∧
      exec (.framePayload .image) t = .next { t with result := some (.ok (.bytes payload)) } ∧
      exec (.frameVerify .image) t = .next { t with result := some (.ok .unit) }

/-- R81, checksum sensitivity, and R82 (a): flipping any one bit of the stored checksum, of the id or of a payload byte of a
region that verifies makes `FRAME.VERIFY` raise `ChecksumMismatch`. -/
def Obligations.OneFlippedBitIsDetected : Prop :=
  ∀ (s : State) (len b : Byte) (j k : Nat),
    guardPasses s.region len → exec (.frameVerify .operand) s = .next { s with result := some (.ok .unit) } →
    j ≤ len.toNat + 1 → j ≠ 1 → k < 8 → s.region[j]? = some b →
    let t : State := { s with region := s.region.set j (b ^^^ (1#8 <<< k)) }
    exec (.frameVerify .operand) t = .next { t with result := some (.err (.frame .checksumMismatch)) }

/-- R81, restoration: any payload mutation, then `FRAME.UPDATE_CHECKSUM`, then `FRAME.VERIFY` succeeds. -/
def Obligations.UpdateRestoresVerification : Prop :=
  ∀ (s : State) (ref : RegionRef) (r : List Byte) (len : Byte) (off : Nat) (v : List Byte),
    ref ≠ .frame → s.view ref = .bytes r → guardPasses r len → off + v.length ≤ len.toNat - 1 →
    ∃ t u, exec (.framePayloadMut ref off v) s = .next t ∧ exec (.frameUpdateChecksum ref) t = .next u ∧
      exec (.frameVerify ref) u = .next { u with result := some (.ok .unit) }

/-- R82 (b): swapping two summed bytes, or moving an amount from one to the other, is not detected. -/
def Obligations.SumPreservingChangesGoUnseen : Prop :=
  ∀ (s : State) (len x y d : Byte) (i j : Nat),
    guardPasses s.region len → i ≤ len.toNat → j ≤ len.toNat → i ≠ 1 → j ≠ 1 → i ≠ j →
    s.region[i]? = some x → s.region[j]? = some y →
    verifyError ((s.region.set i y).set j x) = verifyError s.region ∧
    verifyError ((s.region.set i (x + d)).set j (y - d)) = verifyError s.region

/-- R71's last sentence: bytes beyond index `L + 1` are neither read nor written. `FRAME.SET_LENGTH` is not among these
operations, since its test is on the region's whole length. -/
def Obligations.BytesPastTheFrameAreIgnored : Prop :=
  ∀ (s : State) (len v : Byte) (off : Nat) (bs extra : List Byte), guardPasses s.region len →
    (∀ i ∈ [Instr.frameId .operand, .frameLength .operand, .framePayload .operand, .frameChecksum .operand,
        .frameVerify .operand],
      ∃ q, exec i s = .next { s with result := q } ∧
        exec i { s with region := s.region ++ extra } =
          .next { s with region := s.region ++ extra, result := q }) ∧
    (off + bs.length ≤ len.toNat - 1 →
      ∀ i ∈ [Instr.frameSetId .operand v, .framePayloadMut .operand off bs, .frameUpdateChecksum .operand],
        ∃ r', exec i s = .next { s with region := r', result := some (.ok .unit) } ∧
          exec i { s with region := s.region ++ extra } =
            .next { s with region := r' ++ extra, result := some (.ok .unit) })

/-! ### The builders -/

/-- R120: the 8-byte image, its checksum, and that its region verifies. -/
def Obligations.ReadRegImageIsTheCommandFrame : Prop :=
  ∀ (s : State) (id address length c : Byte),
    c.toNat = 255 - (id.toNat + 4 + 2 + address.toNat + length.toNat) % 256 →
    ∃ t w, w = [0xFF, 0xFF, id, 4, 0x02, address, length, c] ∧
      t = { s with image := w, result := some (.ok (.bytes w)) } ∧
      exec (.buildReadReg id address length) s = .next t ∧
      exec (.frameVerify .image) t = .next { t with result := some (.ok .unit) } ∧
      (encode (.buildReadReg id address length)).head? = some 0x20

/-- R121: the image's first six bytes; more than 252 data bytes are refused; the guard passes on the region. The data bytes and
the checksum "hold no defined value": they are free values that nothing constrains, the next ones by the model's count
(entry 7). -/
def Obligations.WriteRegImageLeavesDataAndChecksumFree : Prop :=
  ∀ (s : State) (id address : Byte) (dataLen : Nat),
    (252 < dataLen → exec (.buildWriteReg id address dataLen) s = .refused .dataTooLong) ∧
    (dataLen ≤ 252 →
      ∃ (len : Byte) (u w : List Byte), len.toNat = 3 + dataLen ∧ u.length = dataLen + 1 ∧
        (∀ k, k < dataLen + 1 → u[k]? = some (Config.freeByte (s.freeCount + k))) ∧
        w = [0xFF, 0xFF, id, len, 0x03, address] ++ u ∧ guardPasses (w.drop 2) len ∧
        exec (.buildWriteReg id address dataLen) s =
          .next { s with
            image := w
            result := some (.ok (.bytes w))
            freeCount := s.freeCount + (dataLen + 1) }) ∧
    (encode (.buildWriteReg id address dataLen)).head? = some 0x21

/-- R122: the caller's two steps finish a write image: it is then the frame of `[0x03, address] ++ data`, and verifies. -/
def Obligations.FinishedWriteImageIsTheEncodedFrame : Prop :=
  ∀ (s : State) (id address : Byte) (data : List Byte), data.length ≤ 252 →
    ∃ t1 t2 t3 t4, exec (.buildWriteReg id address data.length) s = .next t1 ∧
      exec (.framePayloadMut .image 2 data) t1 = .next t2 ∧
      exec (.frameUpdateChecksum .image) t2 = .next t3 ∧
      exec (.frameEncode id (0x03 :: address :: data)) s = .next t4 ∧ t3.image = t4.image ∧
      exec (.frameVerify .image) t3 = .next { t3 with result := some (.ok .unit) }

/-- R123: the frame format of R50 as an image, its checksum, that it verifies, the bound on the payload, and that both builders
are instances. The spec marks R123 as its own decision (D25), derived from R50 and R70. -/
def Obligations.EncodeImageIsTheFrameFormat : Prop :=
  ∀ (s : State) (id : Byte) (payload : List Byte),
    (254 < payload.length → exec (.frameEncode id payload) s = .refused .payloadTooLong) ∧
    (payload.length ≤ 254 →
      ∃ (len c : Byte) (w : List Byte) (t : State), len.toNat = payload.length + 1 ∧
        c.toNat = 255 - (id.toNat + len.toNat + (payload.map BitVec.toNat).sum) % 256 ∧
        w = [0xFF, 0xFF, id, len] ++ payload ++ [c] ∧
        t = { s with image := w, result := some (.ok (.bytes w)) } ∧
        exec (.frameEncode id payload) s = .next t ∧
        exec (.frameVerify .image) t = .next { t with result := some (.ok .unit) }) ∧
    (∀ address length, exec (.buildReadReg id address length) s = exec (.frameEncode id [0x02, address, length]) s) ∧
    (∀ address data t1 t2 t3 t4, payload = 0x03 :: address :: data →
      exec (.buildWriteReg id address data.length) s = .next t1 → exec (.framePayloadMut .image 2 data) t1 = .next t2 →
      exec (.frameUpdateChecksum .image) t2 = .next t3 → exec (.frameEncode id payload) s = .next t4 →
        t3.image = t4.image) ∧
    (encode (.frameEncode id payload)).head? = some 0x22

/-- R64: the expansion of `FRAME.ENCODE` (and of `BUILD.READ_REG`) into codec mutators ends with the same image, whatever the
bytes after the markers were: "length first" makes every later guard pass. The expansion of `BUILD.WRITE_REG` ends with the
same length and the same six written bytes. -/
def Obligations.ExpansionBuildsTheSameImage : Prop :=
  (∀ (s : State) (id len : Byte) (payload u : List Byte),
    len.toNat = payload.length + 1 → u.length = payload.length + 3 → s.image = 0xFF :: 0xFF :: u →
    ∃ t1 t2 t3 t4 t5, exec (.frameSetLength .image len) s = .next t1 ∧
      exec (.frameSetId .image id) t1 = .next t2 ∧
      exec (.framePayloadMut .image 0 payload) t2 = .next t3 ∧
      exec (.frameUpdateChecksum .image) t3 = .next t4 ∧
      exec (.frameEncode id payload) s = .next t5 ∧ t4.image = t5.image ∧
      ∀ address length, payload = [0x02, address, length] →
        ∃ t6, exec (.buildReadReg id address length) s = .next t6 ∧ t4.image = t6.image) ∧
  ∀ (s : State) (id address len : Byte) (dataLen : Nat) (u : List Byte),
    len.toNat = 3 + dataLen → u.length = dataLen + 5 → s.image = 0xFF :: 0xFF :: u →
    ∃ t1 t2 t3 t4, exec (.frameSetLength .image len) s = .next t1 ∧
      exec (.frameSetId .image id) t1 = .next t2 ∧
      exec (.framePayloadMut .image 0 [0x03, address]) t2 = .next t3 ∧
      exec (.buildWriteReg id address dataLen) s = .next t4 ∧
      t3.image.length = t4.image.length ∧ t3.image.take 6 = t4.image.take 6

/-! ### The whole machine -/

/-- R20: every step keeps the invariant, from every state that meets it. -/
def Obligations.StepKeepsTheInvariant : Prop :=
  ∀ s t : State, s.Inv → step s = .next t → t.Inv

/-- From every state that meets R20 nothing faults but a poll that runs out of the model's fuel on a line that never runs dry,
where R107 and U7 give no result (entries 8, 14 and 15). On a line that ends nothing faults. -/
def Obligations.OnlyFuelRunsOutUnderTheInvariant : Prop :=
  ∀ (s : State) (f : Fault), s.Inv →
    (step s = .fault f → f = .pollDidNotEnd ∧ s.src.endless ≠ none) ∧
    ∀ i, exec i s = .fault f → f = .pollDidNotEnd ∧ s.src.endless ≠ none ∧ (i = .asmRead ∨ isWire i = true)

/-- R4, R14: only construction sets `CAP`; in a step, only when the next request is `ASM.NEW`. -/
def Obligations.OnlyConstructionSetsTheCapacity : Prop :=
  (∀ (i : Instr) (s t : State), exec i s = .next t → (∀ cap, i ≠ .asmNew cap) → t.asm.cap = s.asm.cap) ∧
  ∀ s t : State, step s = .next t →
    t.asm.cap = s.asm.cap ∨
      ∃ w later cap rest, s.requests = w :: later ∧ decode w = .instr (.asmNew cap) rest ∧ t.asm.cap = cap

/-- R11, R30, R44: only construction, the poll and received bytes write the assembler's state; only the poll and received
bytes take bytes from the source. -/
def Obligations.OnlyReceptionWritesTheAssembler : Prop :=
  ∀ (i : Instr) (s t : State), exec i s = .next t →
    (writesAssembler i = false → t.asm = s.asm) ∧
    (isWire i = false → i ≠ .asmRead → t.src = s.src) ∧
    t.requests = s.requests

/-- R35, R40: bytes are handed over in line order, each once: what was handed over stays so and is extended, and `S` stays what
it is, but that the bytes of a wire row come into it behind those waiting, where the poll of that row can take them (entry
10, the model's choice). -/
def Obligations.BytesAreHandedOverOnceInOrder : Prop :=
  ∀ (i : Instr) (s t : State), exec i s = .next t →
    ∃ d, t.src.handed = s.src.handed ++ d ∧
      (∀ k, k < d.length → d[k]? = t.src.stream (s.src.handed.length + k)) ∧
      (isWire i = false → t.src.stream = s.src.stream) ∧
      (isWire i = true →
        t.src.stream = Source.stream { s.src with waiting := s.src.waiting ++ encode i })

/-! ### The consumers -/

/-- R135: checksum, then id, then, for reads, the payload length. R136: a read gives the payload without its status byte,
whatever that is. R137 (with the spec's decision D20): a write gives no byte, and nothing else of the response is looked at. -/
def Obligations.MasterValidatesInOrder : Prop :=
  ∀ (s : State) (r : List Byte) (id : Byte) (outLen : Option Nat), s.asm.exposed = .bytes r →
    (∀ f, exec (.frameVerify .frame) s = .next { s with result := some (.err (.frame f)) } →
      validate id outLen s = .err (.frame f)) ∧
    (exec (.frameVerify .frame) s = .next { s with result := some (.ok .unit) } →
      (r[0]? ≠ some id → validate id outLen s = .err .unexpectedResponseId) ∧
      (∀ (p : List Byte), r[0]? = some id → exec (.framePayload .frame) s = .next { s with result := some (.ok (.bytes p)) } →
        (∀ n, outLen = some n → p.length ≠ n + 1 → validate id outLen s = .err .unexpectedResponseLength) ∧
        (∀ n, outLen = some n → p.length = n + 1 → validate id outLen s = .ok (p.drop 1)) ∧
        (outLen = none → validate id outLen s = .ok [])))

/-- R141: a frame that does not verify is dropped without a response; else the handler sees the frame's region and the buffer,
and decides. That one call makes one transition, that the buffer keeps its size, and that a length past it has no effect
given, is the model's choice (entry 18). -/
def Obligations.SlaveDropsFramesThatFail : Prop :=
  ∀ (σ : Type) (handler : Handler σ) (slave : Slave σ) (s : State) (link : Link) (r : List Byte),
    slave.phase = .processCommand → s.asm.exposed = .bytes r →
    (∀ f, exec (.frameVerify .frame) s = .next { s with result := some (.err (.frame f)) } →
      slave.process handler s link = .ok { slave with phase := .idle } s link) ∧
    (exec (.frameVerify .frame) s = .next { s with result := some (.ok .unit) } →
      ∀ (device : σ) (left : List Byte) (answer : Option Nat), handler slave.device r slave.buffer = (device, left, answer) →
        ∃ kept : List Byte, kept.length = slave.buffer.length ∧
          (∀ k, k < kept.length → kept[k]? = if k < left.length then left[k]? else slave.buffer[k]?) ∧
          (answer = none →
            slave.process handler s link = .ok { slave with phase := .idle, device := device, buffer := kept } s link) ∧
          ∀ n, answer = some n →
            slave.process handler s link =
              if n ≤ slave.buffer.length then
                .ok { phase := .sendResponse, buffer := kept, length := n, offset := 0, device := device } s link
              else .overrun)

/-- R131, R134 to R136: with the response waiting on a line that does not echo, `read_register` sends the command frame and
returns the response's data without the status byte, whatever the timeout predicate would answer later. The prompt source is
entry 8's, the sink and the order within an iteration entry 17's. -/
def Obligations.ReadRegisterReturnsTheData : Prop :=
  ∀ (s : State) (link : Link) (id address n status : Byte) (data tail : List Byte),
    s.Inv → s.asm.seeking → s.src.script = [] → s.src.waiting = frameImage id (status :: data) ++ tail →
    data.length = n.toNat → n.toNat ≤ 253 → data.length + 4 ≤ s.asm.cap →
    link.sink = [] → link.loopsBack = false →
    ∃ x, readRegister false id address n s link = x ∧ x.master.phase = .finished (.ok data) ∧
      x.link.sent = link.sent ++ readRegImage id address n ∧ x.block.src.waiting = tail

/-- R107, U7: a poll on a line that never runs dry never answers `false`: it answers at a completed or rejected frame, or it
does not end, which is the fault of running out of fuel, after more bytes than the fuel that signalled nothing. More fuel
changes no answer. That the line's bytes are free values and that the fuel stands in the state are the model's (entries 8
and 14). -/
def Obligations.EndlessLinesAreNeverDry : Prop :=
  ∀ (s : State) (rest : Endless), s.Inv → s.src.script = [] → s.src.endless = some rest →
    ((∃ t, exec .asmRead s = .next t ∧
        (t.result = some (.ok (.flag true)) ∨ t.result = some (.err (.assembly .insufficientCapacity)))) ∨
      exec .asmRead s = .fault .pollDidNotEnd ∧
        ∃ (d : List Byte) (a : Assembler), rest.patience ≤ d.length ∧
          (∀ k, k < d.length → d[k]? = s.src.stream (s.src.handed.length + k)) ∧ feed s.asm d = .ok a []) ∧
    ∀ (more : Nat) (t : State), exec .asmRead s = .next t →
      exec .asmRead
          { s with src := { s.src with endless := some { rest with patience := rest.patience + more } } } =
        .next { t with
          src := { t.src with endless := t.src.endless.map fun r => { r with patience := r.patience + more } } }

/-- R142: in `SendResponse` the Slave writes a prefix of what is unsent and stands behind it, with every choice of the sink; it
is back in `Idle` exactly when all is sent, and the assembler is not polled. After a write error it stands behind what was
accepted, so that the next poll goes on with the rest: entry 22, the model's choice. That a sink with no choices left accepts
everything, and that an echo arrives at once behind what waits, is entry 17's. -/
def Obligations.NoResponseByteIsLostOrSentTwice : Prop :=
  ∀ (σ : Type) (handler : Handler σ) (slave : Slave σ) (s : State) (link : Link), slave.phase = .sendResponse →
    ∃ (slave' : Slave σ) (s' : State) (link' : Link) (d : List Byte),
      (slave.process handler s link = .ok slave' s' link' ∨
        ∃ e, slave.process handler s link = .err (.transportWrite e) slave' s' link' ∧ .error e ∈ link.sink ∧
          slave'.phase = .sendResponse) ∧
      link'.sent = link.sent ++ d ∧ slave.unsent = d ++ slave'.unsent ∧
      slave' = { slave with phase := slave'.phase, offset := slave'.offset } ∧
      (slave'.phase = .idle ∨ slave'.phase = .sendResponse) ∧
      (slave.process handler s link = .ok slave' s' link' → (slave'.phase = .idle ↔ slave'.unsent = [])) ∧
      s'.asm = s.asm ∧ s'.src.waiting = s.src.waiting ++ (if link.loopsBack then d else []) ∧
      (link.sink = [] → d = slave.unsent)

/-- R146: a Master that reads registers of a Slave whose device answers from `regs`, without and with echo. In whatever order
the two move, the exchange ends with that data or with the timed-out error, never with another one; and when the Slave gets
its three polls after the command was sent, it ends with the data. The line between them is entry 23's, prompt ends are
entries 8 and 17. -/
def Obligations.MasterReadsTheSlavesRegisters : Prop :=
  ∀ (regs : Byte → Byte) (own status address count : Byte) (echoBack : Bool) (b : Bus Unit) (moves : List Mover),
    b.near.master =
      { phase := .transmit (readRegImage own address count)
        echoBack := echoBack
        id := own
        outLen := some count.toNat } →
    b.near.block.quiet (count.toNat + 4) → (echoBack = true → 6 ≤ b.near.block.asm.cap) → b.far.quiet 6 →
    b.near.link.sink = [] → b.near.link.loopsBack = echoBack → b.farLink.sink = [] → b.farLink.loopsBack = false →
    b.slave.phase = .idle → count.toNat ≤ 253 → count.toNat + 6 ≤ b.slave.buffer.length →
    let phase := (b.run (registerHandler own status regs) moves).near.master.phase
    (∀ outcome, phase = .finished outcome →
      outcome = .err .timedOut ∨ outcome = .ok (registerData regs address count.toNat)) ∧
    (moves = [.master, .slave, .slave, .slave] ++ (if echoBack then [.master, .master] else [.master]) →
      phase = .finished (.ok (registerData regs address count.toNat)))
end

