-- ==== Sys2Proof/Laws/Memory.lean ====
section
/-! SUPPORT. The laws of the scratch buffer: read after write, the canonical form is kept, indices stay below a bound. -/

namespace Sys2Proof.Machine

@[simp] theorem Memory.read?_nil (i : Nat) : Memory.read? [] i = none := rfl

theorem Memory.read?_write_same (m : Memory) (i : Nat) (b : Byte) :
    Memory.read? (Memory.write m i b) i = some b := by
  induction m with
  | nil => simp [Memory.write, Memory.read?]
  | cons c m ih =>
    obtain ⟨a, c⟩ := c
    simp only [Memory.write]
    split
    · simp [Memory.read?]
    · split
      · simp [Memory.read?]
      · rename_i h
        rw [Memory.read?, if_neg (fun e => h e.symm)]
        exact ih

theorem Memory.read?_write_other (m : Memory) {i j : Nat} (b : Byte) (h : j ≠ i) :
    Memory.read? (Memory.write m i b) j = Memory.read? m j := by
  induction m with
  | nil => simp [Memory.write, Memory.read?, Ne.symm h]
  | cons c m ih =>
    obtain ⟨a, c⟩ := c
    simp only [Memory.write]
    split
    · simp [Memory.read?, Ne.symm h]
    · split
      · rename_i _ e
        subst e
        simp [Memory.read?, Ne.symm h]
      · simp only [Memory.read?, ih]

theorem Memory.read?_write (m : Memory) (i j : Nat) (b : Byte) :
    Memory.read? (Memory.write m i b) j = if j = i then some b else Memory.read? m j := by
  split
  · rename_i h
    subst h
    exact Memory.read?_write_same m _ b
  · rename_i h
    exact Memory.read?_write_other m b h

/-- A bytes-long store: the byte at index `j` is the stored one inside, the old one outside. -/
theorem Memory.read?_writeBytes (m : Memory) (i j : Nat) (d : List Byte) :
    Memory.read? (Memory.writeBytes m i d) j =
      if i ≤ j ∧ j < i + d.length then d[j - i]? else Memory.read? m j := by
  induction d generalizing m i with
  | nil =>
    rw [if_neg (by simp)]
    rfl
  | cons b d ih =>
    rw [Memory.writeBytes, ih, Memory.read?_write]
    simp only [List.length_cons]
    by_cases h1 : j = i
    · subst h1
      rw [if_neg (by omega), if_pos rfl, if_pos (by omega), Nat.sub_self, List.getElem?_cons_zero]
    · by_cases h2 : i + 1 ≤ j ∧ j < i + 1 + d.length
      · rw [if_pos h2, if_pos (by omega)]
        have : j - i = (j - (i + 1)) + 1 := by omega
        rw [this, List.getElem?_cons_succ]
      · rw [if_neg h2, if_neg h1, if_neg (by omega)]

theorem Memory.writeBytes_append (m : Memory) (i : Nat) (d e : List Byte) :
    Memory.writeBytes m i (d ++ e) = Memory.writeBytes (Memory.writeBytes m i d) (i + d.length) e := by
  induction d generalizing m i with
  | nil => rfl
  | cons b d ih =>
    simp only [List.cons_append, Memory.writeBytes, ih, List.length_cons]
    congr 1
    omega

/-- Inside the stored range every byte is written; outside, what was written stays so. -/
theorem Memory.isSome_read?_writeBytes (m : Memory) (i j : Nat) (d : List Byte) :
    (Memory.read? (Memory.writeBytes m i d) j).isSome =
      (decide (i ≤ j ∧ j < i + d.length) || (Memory.read? m j).isSome) := by
  rw [Memory.read?_writeBytes]
  by_cases h : i ≤ j ∧ j < i + d.length
  · rw [if_pos h, List.getElem?_eq_getElem (by omega)]
    simp [h]
  · rw [if_neg h]
    simp [h]

/-- The canonical form of a longer list: its first index lies below every other. -/
theorem Memory.wf_cons {a : Nat} {b : Byte} {m : Memory} :
    Memory.wf ((a, b) :: m) = true ↔ (∀ c ∈ m, a < c.1) ∧ Memory.wf m = true := by
  induction m generalizing a b with
  | nil => simp [Memory.wf]
  | cons c m ih =>
    obtain ⟨x, y⟩ := c
    simp only [Memory.wf, Bool.and_eq_true, decide_eq_true_eq, List.mem_cons, forall_eq_or_imp]
    constructor
    · rintro ⟨h1, h2⟩
      exact ⟨⟨h1, fun c hc => lt_trans h1 ((ih.mp h2).1 c hc)⟩, h2⟩
    · rintro ⟨⟨h1, _⟩, h2⟩
      exact ⟨h1, h2⟩

/-- A store lists its own index and no other new one. -/
theorem Memory.mem_write {m : Memory} {i : Nat} {b : Byte} {c : Host.Cell} (h : c ∈ Memory.write m i b) :
    c = (i, b) ∨ c ∈ m := by
  induction m with
  | nil => simpa [Memory.write] using h
  | cons d m ih =>
    obtain ⟨a, x⟩ := d
    simp only [Memory.write] at h
    split at h
    · simpa using h
    · split at h
      · rcases List.mem_cons.mp h with h | h
        · exact .inl h
        · exact .inr (List.mem_cons_of_mem _ h)
      · rcases List.mem_cons.mp h with h | h
        · exact .inr (by simp [h])
        · exact (ih h).imp id (List.mem_cons_of_mem _)

theorem Memory.write_wf {m : Memory} (h : Memory.wf m = true) (i : Nat) (b : Byte) :
    Memory.wf (Memory.write m i b) = true := by
  induction m with
  | nil => rfl
  | cons c m ih =>
    obtain ⟨a, x⟩ := c
    obtain ⟨h1, h2⟩ := Memory.wf_cons.mp h
    simp only [Memory.write]
    split
    · rename_i lt
      refine Memory.wf_cons.mpr ⟨?_, h⟩
      intro c hc
      rcases List.mem_cons.mp hc with rfl | hc
      · exact lt
      · exact lt_trans lt (h1 c hc)
    · split
      · rename_i _ e
        subst e
        exact Memory.wf_cons.mpr ⟨h1, h2⟩
      · refine Memory.wf_cons.mpr ⟨?_, ih h2⟩
        intro c hc
        rcases Memory.mem_write hc with rfl | hc
        · simp only
          omega
        · exact h1 c hc

theorem Memory.writeBytes_wf {m : Memory} (h : Memory.wf m = true) (i : Nat) (d : List Byte) :
    Memory.wf (Memory.writeBytes m i d) = true := by
  induction d generalizing m i with
  | nil => exact h
  | cons b d ih => exact ih (Memory.write_wf h i b) (i + 1)

theorem Memory.writeBytes_lt {m : Memory} {n : Nat} (h : ∀ c ∈ m, c.1 < n) {i : Nat} {d : List Byte}
    (hd : i + d.length ≤ n) : ∀ c ∈ Memory.writeBytes m i d, c.1 < n := by
  induction d generalizing m i with
  | nil => exact h
  | cons b d ih =>
    simp only [List.length_cons] at hd
    refine ih ?_ (by omega)
    intro c hc
    rcases Memory.mem_write hc with rfl | hc
    · simp only
      omega
    · exact h c hc

/-- `MemRead` answers exactly when every byte of the range is written, and then it is those bytes. -/
theorem Memory.readBytes?_eq_some {m : Memory} {i n : Nat} {d : List Byte} :
    Memory.readBytes? m i n = some d ↔ d.length = n ∧ ∀ k, k < n → Memory.read? m (i + k) = d[k]? := by
  induction n generalizing i d with
  | zero => cases d <;> simp [Memory.readBytes?]
  | succ n ih =>
    simp only [Memory.readBytes?]
    constructor
    · intro h
      split at h
      · rename_i b e hb he
        obtain ⟨h1, h2⟩ := ih.mp he
        cases h
        refine ⟨by simp [h1], ?_⟩
        intro k hk
        cases k with
        | zero => simpa using hb
        | succ k => simpa [Nat.add_assoc, Nat.add_comm 1 k] using h2 k (by omega)
      · cases h
    · rintro ⟨h1, h2⟩
      cases d with
      | nil => simp at h1
      | cons b d =>
        have hb : Memory.read? m i = some b := by simpa using h2 0 (by omega)
        have he : Memory.readBytes? m (i + 1) n = some d := by
          refine ih.mpr ⟨by simpa using h1, ?_⟩
          intro k hk
          simpa [Nat.add_assoc, Nat.add_comm 1 k] using h2 (k + 1) (by omega)
        simp [hb, he]

/-- `MemRead` answers when every byte of the range is written. -/
theorem Memory.readBytes?_isSome {m : Memory} {i n : Nat} (h : ∀ k, k < n → (Memory.read? m (i + k)).isSome = true) :
    ∃ d, Memory.readBytes? m i n = some d := by
  induction n generalizing i with
  | zero => exact ⟨[], rfl⟩
  | succ n ih =>
    obtain ⟨b, hb⟩ := Option.isSome_iff_exists.mp (h 0 (by omega))
    obtain ⟨d, hd⟩ := ih (i := i + 1) (fun k hk => by simpa [Nat.add_assoc, Nat.add_comm 1 k] using h (k + 1) (by omega))
    exact ⟨b :: d, by simp only [Nat.add_zero] at hb; simp [Memory.readBytes?, hb, hd]⟩

end Sys2Proof.Machine
end

