-- ==== Sys2Proof/Laws/State.lean ====
section
/-! SUPPORT. One lemma per field per named update, so that no later proof unfolds a record update. -/

namespace Sys2Proof.Machine

/-! ### The assembler -/

@[simp] theorem Assembler.fresh_cap (n : Nat) : (Assembler.fresh n).cap = n := rfl
@[simp] theorem Assembler.fresh_state (n : Nat) : (Assembler.fresh n).state = .seekMarker1 := rfl
@[simp] theorem Assembler.fresh_cursor (n : Nat) : (Assembler.fresh n).cursor = 0 := rfl
@[simp] theorem Assembler.fresh_buf (n : Nat) : (Assembler.fresh n).buf = [] := rfl
@[simp] theorem Assembler.enterHeader_cap (a : Assembler) : a.enterHeader.cap = a.cap := rfl
@[simp] theorem Assembler.enterHeader_state (a : Assembler) : a.enterHeader.state = .header := rfl
@[simp] theorem Assembler.enterHeader_cursor (a : Assembler) : a.enterHeader.cursor = 0 := rfl
@[simp] theorem Assembler.enterHeader_buf (a : Assembler) : a.enterHeader.buf = a.buf := rfl

/-! ### The byte source -/

@[simp] theorem Source.hand_handed (src : Source) (k : Nat) : (src.hand k).handed = src.handed ++ src.waiting.take k := rfl
@[simp] theorem Source.hand_waiting (src : Source) (k : Nat) : (src.hand k).waiting = src.waiting.drop k := rfl
@[simp] theorem Source.hand_script (src : Source) (k : Nat) : (src.hand k).script = src.script := rfl
@[simp] theorem Source.arrive_handed (src : Source) (d : List Byte) : (src.arrive d).handed = src.handed := rfl
@[simp] theorem Source.arrive_waiting (src : Source) (d : List Byte) : (src.arrive d).waiting = src.waiting ++ d := rfl
@[simp] theorem Source.hand_endless (src : Source) (k : Nat) : (src.hand k).endless = src.endless := rfl
@[simp] theorem Source.arrive_script (src : Source) (d : List Byte) : (src.arrive d).script = src.script := rfl
@[simp] theorem Source.arrive_endless (src : Source) (d : List Byte) : (src.arrive d).endless = src.endless := rfl
@[simp] theorem Source.topUp_handed (n : Nat) (src : Source) : (src.topUp n).handed = src.handed := by
  unfold Source.topUp
  split <;> rfl
@[simp] theorem Source.topUp_script (n : Nat) (src : Source) : (src.topUp n).script = src.script := by
  unfold Source.topUp
  split <;> rfl
theorem Source.topUp_finite (n : Nat) {src : Source} (h : src.endless = none) : src.topUp n = src := by
  simp [Source.topUp, h]

/-! ### The consumers -/

@[simp] theorem State.hear_asm (s : State) (bs : List Byte) : (s.hear bs).asm = s.asm := rfl
@[simp] theorem State.hear_src (s : State) (bs : List Byte) : (s.hear bs).src = s.src.arrive bs := rfl
@[simp] theorem Exchange.enter_phase (x : Exchange) (p : MasterPhase) : (x.enter p).master.phase = p := rfl
@[simp] theorem Exchange.enter_id (x : Exchange) (p : MasterPhase) : (x.enter p).master.id = x.master.id := rfl
@[simp] theorem Exchange.enter_outLen (x : Exchange) (p : MasterPhase) : (x.enter p).master.outLen = x.master.outLen := rfl
@[simp] theorem Exchange.enter_echoBack (x : Exchange) (p : MasterPhase) : (x.enter p).master.echoBack = x.master.echoBack := rfl
@[simp] theorem Exchange.enter_block (x : Exchange) (p : MasterPhase) : (x.enter p).block = x.block := rfl
@[simp] theorem Exchange.enter_link (x : Exchange) (p : MasterPhase) : (x.enter p).link = x.link := rfl
@[simp] theorem Exchange.finish_phase (x : Exchange) (o : MasterOutcome) : (x.finish o).master.phase = .finished o := rfl
@[simp] theorem Exchange.finish_block (x : Exchange) (o : MasterOutcome) : (x.finish o).block = x.block := rfl
@[simp] theorem Exchange.finish_link (x : Exchange) (o : MasterOutcome) : (x.finish o).link = x.link := rfl
@[simp] theorem Slave.advance_phase {σ : Type} (slave : Slave σ) (bs : List Byte) :
    (slave.advance bs).phase = slave.phase := rfl
@[simp] theorem Slave.advance_buffer {σ : Type} (slave : Slave σ) (bs : List Byte) :
    (slave.advance bs).buffer = slave.buffer := rfl
@[simp] theorem Slave.advance_device {σ : Type} (slave : Slave σ) (bs : List Byte) :
    (slave.advance bs).device = slave.device := rfl
@[simp] theorem Slave.advance_unsent {σ : Type} (slave : Slave σ) (bs : List Byte) :
    (slave.advance bs).unsent = slave.unsent.drop bs.length := by
  simp [Slave.unsent, Slave.staged, Slave.advance]

/-! ### Putting a mutated region back -/

@[simp] theorem State.putRegion_asm (s : State) (ref : RegionRef) (r : List Byte) : (s.putRegion ref r).asm = s.asm := by
  cases ref <;> rfl
@[simp] theorem State.putRegion_src (s : State) (ref : RegionRef) (r : List Byte) : (s.putRegion ref r).src = s.src := by
  cases ref <;> rfl
@[simp] theorem State.putRegion_result (s : State) (ref : RegionRef) (r : List Byte) :
    (s.putRegion ref r).result = s.result := by
  cases ref <;> rfl
@[simp] theorem State.putRegion_requests (s : State) (ref : RegionRef) (r : List Byte) :
    (s.putRegion ref r).requests = s.requests := by
  cases ref <;> rfl
@[simp] theorem State.putRegion_freeCount (s : State) (ref : RegionRef) (r : List Byte) :
    (s.putRegion ref r).freeCount = s.freeCount := by
  cases ref <;> rfl
@[simp] theorem State.putRegion_operand_region (s : State) (r : List Byte) : (s.putRegion .operand r).region = r := rfl
@[simp] theorem State.putRegion_operand_image (s : State) (r : List Byte) : (s.putRegion .operand r).image = s.image := rfl
@[simp] theorem State.putRegion_image_region (s : State) (r : List Byte) : (s.putRegion .image r).region = s.region := rfl
@[simp] theorem State.putRegion_image_image (s : State) (r : List Byte) :
    (s.putRegion .image r).image = s.image.take 2 ++ r := rfl
@[simp] theorem State.putRegion_frame (s : State) (r : List Byte) : s.putRegion .frame r = s := rfl

/-! ### Ending an operation -/

@[simp] theorem State.deliver_eq_next {s t : State} {v : Value} :
    s.deliver v = .next t ↔ { s with result := some (.ok v) } = t := by
  simp [State.deliver]
@[simp] theorem State.raise_eq_next {s t : State} {e : BlockError} :
    s.raise e = .next t ↔ { s with result := some (.err e) } = t := by
  simp [State.raise]
@[simp] theorem State.deliver_ne_fault (s : State) (v : Value) (f : Fault) : s.deliver v ≠ .fault f := by
  simp [State.deliver]
@[simp] theorem State.raise_ne_fault (s : State) (e : BlockError) (f : Fault) : s.raise e ≠ .fault f := by
  simp [State.raise]
@[simp] theorem State.deliver_ne_refused (s : State) (v : Value) (q : Refusal) : s.deliver v ≠ .refused q := by
  simp [State.deliver]
@[simp] theorem State.raise_ne_refused (s : State) (e : BlockError) (q : Refusal) : s.raise e ≠ .refused q := by
  simp [State.raise]

end Sys2Proof.Machine
end

