-- ==== Sys2Proof/Laws/Source.lean ====
section
/-! SUPPORT. What one `SrcRead` can do (R35, R36, R40): it hands over some bytes in line order, or nothing. -/

namespace Sys2Proof.Machine

/-- The bytes an answer hands over. -/
def Answer.taken : Answer → List Byte
  | .bytes d => d
  | .wouldBlock => []
  | .error _ => []

@[simp] theorem length_lineBytes (line start n : Nat) : (lineBytes line start n).length = n := by
  induction n generalizing start with
  | zero => rfl
  | succ n ih => simp [lineBytes, ih]

theorem getElem?_lineBytes {line start n k : Nat} (h : k < n) :
    (lineBytes line start n)[k]? = some (Config.lineByte line (start + k)) := by
  induction n generalizing start k with
  | zero => omega
  | succ n ih =>
    cases k with
    | zero => simp [lineBytes]
    | succ k =>
      rw [lineBytes, List.getElem?_cons_succ, ih (by omega)]
      congr 2
      omega

/-- `src'` is `src` after `d` was handed over (R35): `S` is the same, `d` comes next in it, and only an endless line lists
`more` than it did. -/
structure Took (src src' : Source) (d : List Byte) : Prop where
  handed : src'.handed = src.handed ++ d
  stream : src'.stream = src.stream
  remaining : ∃ more, src.remaining ++ more = d ++ src'.remaining ∧ (src.endless = none → more = [])
  patience : src'.endless.map Endless.patience = src.endless.map Endless.patience

theorem Took.refl (src : Source) : Took src src [] := ⟨by simp, rfl, ⟨[], by simp⟩, rfl⟩

theorem Took.endless_eq_none {src src' : Source} {d : List Byte} (t : Took src src' d) :
    src'.endless = none ↔ src.endless = none := by
  have := t.patience
  cases h : src.endless <;> cases h' : src'.endless <;> simp_all

theorem Took.trans {src src' src'' : Source} {d e : List Byte} (t : Took src src' d) (u : Took src' src'' e) :
    Took src src'' (d ++ e) := by
  obtain ⟨m, q, qn⟩ := t.remaining
  obtain ⟨n, r, rn⟩ := u.remaining
  refine ⟨by rw [u.handed, t.handed, List.append_assoc], u.stream.trans t.stream, ⟨m ++ n, ?_, fun h => ?_⟩,
    u.patience.trans t.patience⟩
  · rw [← List.append_assoc, q, List.append_assoc, r, List.append_assoc]
  · simp [qn h, rn (t.endless_eq_none.mpr h)]

/-- On a finite line. -/
theorem Took.remaining_finite {src src' : Source} {d : List Byte} (t : Took src src' d) (h : src.endless = none) :
    src.remaining = d ++ src'.remaining := by
  obtain ⟨m, q, qn⟩ := t.remaining
  simpa [qn h] using q

/-- `S` is what is listed and the endless rest. -/
theorem Source.stream_congr {src src' : Source} (h : src.listed = src'.listed) (he : src.endless = src'.endless) :
    src.stream = src'.stream := by
  funext j
  simp only [Source.stream, h, he]

/-- Topping up changes what is listed, not `S`. -/
theorem Source.topUp_stream (n : Nat) (src : Source) (hs : src.script = []) : (src.topUp n).stream = src.stream := by
  cases he : src.endless with
  | none => rw [Source.topUp_finite n he]
  | some rest =>
    funext j
    have hl : src.listed = src.handed ++ src.waiting := by simp [Source.listed, hs]
    have hl' : (src.topUp n).listed =
        src.listed ++ lineBytes rest.line rest.next (n - src.waiting.length) := by
      simp [Source.listed, Source.topUp, he, hs]
    have hen : (src.topUp n).endless = some { rest with next := rest.next + (n - src.waiting.length) } := by
      simp [Source.topUp, he]
    simp only [Source.stream, hl', hen, he, List.length_append, length_lineBytes, Option.map_some]
    by_cases h1 : j < src.listed.length
    · rw [if_pos (by omega), if_pos h1, List.getElem?_append_left h1]
    · by_cases h2 : j < src.listed.length + (n - src.waiting.length)
      · rw [if_pos h2, if_neg h1, List.getElem?_append_right (by omega), getElem?_lineBytes (by omega)]
      · rw [if_neg h2, if_neg h1]
        congr 2
        omega

theorem Source.topUp_took (n : Nat) {src : Source} (hs : src.script = []) : Took src (src.topUp n) [] := by
  refine ⟨by simp, Source.topUp_stream n src hs, ?_, ?_⟩
  · cases he : src.endless with
    | none => exact ⟨[], by simp [Source.topUp, he]⟩
    | some rest =>
      exact ⟨lineBytes rest.line rest.next (n - src.waiting.length), by simp [Source.topUp, Source.remaining, he, hs]⟩
  · cases he : src.endless <;> simp [Source.topUp, he]

/-- An endless line is never dry (U7). -/
theorem Source.topUp_waiting {n : Nat} {src : Source} (h : src.endless ≠ none) : n ≤ (src.topUp n).waiting.length := by
  cases he : src.endless with
  | none => exact absurd he h
  | some rest =>
    simp only [Source.topUp, he, List.length_append, length_lineBytes]
    omega

/-- Where enough waits, nothing is topped up. -/
theorem Source.topUp_enough {n : Nat} {src : Source} (h : n ≤ src.waiting.length) : src.topUp n = src := by
  rcases src with ⟨handed, waiting, script, _ | ⟨line, next, patience⟩⟩
  · rfl
  · have : n - waiting.length = 0 := Nat.sub_eq_zero_of_le h
    simp [Source.topUp, this, lineBytes]

theorem Source.hand_took (src : Source) (k : Nat) : Took src (src.hand k) (src.waiting.take k) := by
  have hl : (src.hand k).listed = src.listed := by
    simp only [Source.listed, Source.hand_handed, Source.hand_waiting, Source.hand_script, List.append_assoc]
    rw [← List.append_assoc (src.waiting.take k), List.take_append_drop]
  exact ⟨rfl, Source.stream_congr hl rfl,
    ⟨[], by simp [Source.remaining, ← List.append_assoc]⟩, rfl⟩

/-- A choice of the script is used up: its bytes have arrived. -/
theorem Source.arrive_took {src : Source} {c : SrcChoice} {later : List SrcChoice} (hs : src.script = c :: later) :
    Took src { src.arrive c.arriving with script := later } [] := by
  have hl : Source.listed { src.arrive c.arriving with script := later } = src.listed := by
    simp [Source.listed, Source.arrive, hs]
  exact ⟨by simp, Source.stream_congr hl rfl,
    ⟨[], by simp [Source.remaining, hs]⟩, rfl⟩

/-- Everything a request for `n` bytes can do. -/
theorem Source.read_spec (n : Nat) (src : Source) :
    Took src (src.read n).2 (src.read n).1.taken ∧ (src.read n).1.taken.length ≤ n ∧
      (src.read n).2.script = src.script.drop 1 := by
  unfold Source.read
  split
  · rename_i hs
    have t := Source.topUp_took n hs
    dsimp only
    split
    · exact ⟨t, by simp [Answer.taken], by simp [hs]⟩
    · rename_i b d hd
      have u := t.trans (Source.hand_took (src.topUp n) n)
      rw [hd] at u
      refine ⟨u, ?_, by simp [hs]⟩
      have := congrArg List.length hd
      rw [List.length_take] at this
      simp only [Answer.taken]
      omega
  · rename_i c later hs
    have t := Source.arrive_took hs
    dsimp only
    split
    · rename_i most _
      exact ⟨t.trans (Source.hand_took _ _), by simp [Answer.taken], by simp [hs]⟩
    · exact ⟨t, by simp [Answer.taken], by simp [hs]⟩
    · exact ⟨t, by simp [Answer.taken], by simp [hs]⟩

/-- Without a script, a source on which enough waits answers in full. -/
theorem Source.read_prompt {n : Nat} {src : Source} (hs : src.script = []) (hn : 0 < n) (h : n ≤ src.waiting.length) :
    src.read n = (.bytes (src.waiting.take n), src.hand n) := by
  unfold Source.read
  rw [hs]
  dsimp only
  rw [Source.topUp_enough h]
  split
  · rename_i hd
    have := congrArg List.length hd
    rw [List.length_take, List.length_nil] at this
    omega
  · rename_i b d hd
    rw [hd]

end Sys2Proof.Machine
end

