-- ==== Sys2Proof/Laws/Assembler.lean ====
section
/-! SUPPORT. What a store, one received byte and one trip round the poll's loop can do in a state that meets R20. -/

namespace Sys2Proof.Machine

/-! ### Stores -/

theorem Assembler.store_eq_some {a a' : Assembler} {d : List Byte} :
    a.store d = some a' ↔
      a.cursor + d.length ≤ a.cap ∧
        a' = { a with buf := Memory.writeBytes a.buf a.cursor d, cursor := a.cursor + d.length } := by
  unfold Assembler.store
  split
  · rename_i h
    simp [h, eq_comm]
  · rename_i h
    simp [h]

/-- What a store that fits leaves: the buffer stays canonical and inside `CAP`, what was written stays written, and the
stored bytes are written. -/
theorem Assembler.store_shape {a : Assembler} {d : List Byte} (h : a.shape) (hd : a.cursor + d.length ≤ a.cap)
    (h7 : a.cursor + d.length ≤ 257) :
    Assembler.shape { a with buf := Memory.writeBytes a.buf a.cursor d, cursor := a.cursor + d.length } := by
  obtain ⟨h1, h2, h3, _, _⟩ := h
  exact ⟨h1, Memory.writeBytes_wf h2 _ _, Memory.writeBytes_lt h3 hd, hd, h7⟩

theorem Memory.writtenBelow_writeBytes {m : Memory} {n : Nat} (h : Memory.writtenBelow m n) (d : List Byte) :
    Memory.writtenBelow (Memory.writeBytes m n d) (n + d.length) := by
  intro i hi
  rw [Memory.isSome_read?_writeBytes]
  by_cases hn : i < n
  · simp [h i hn]
  · have : n ≤ i ∧ i < n + d.length := ⟨by omega, hi⟩
    simp [this]

/-- A store from index 2 on does not move `need`. -/
theorem Memory.read?_one_writeBytes {m : Memory} {n : Nat} (h : 2 ≤ n) (d : List Byte) :
    Memory.read? (Memory.writeBytes m n d) 1 = Memory.read? m 1 := by
  rw [Memory.read?_writeBytes, if_neg (by omega)]

/-! ### One received byte (R104) -/

@[simp] theorem Fed.prepend_none (f : Fed) : f.prepend none = f := by
  cases f <;> simp [Fed.prepend]

theorem feed_append (a : Assembler) (d e : List Byte) :
    feed a (d ++ e) =
      match feed a d with
      | .fault f => .fault f
      | .ok a' signals =>
        match feed a' e with
        | .fault f => .fault f
        | .ok a'' more => .ok a'' (signals ++ more) := by
  induction d generalizing a with
  | nil =>
    simp only [List.nil_append, feed]
    cases feed a e <;> rfl
  | cons b d ih =>
    simp only [List.cons_append, feed]
    cases hs : stepByte a b with
    | fault f => rfl
    | ok a' signal =>
      simp only [ih]
      cases hd : feed a' d with
      | fault f => rfl
      | ok a'' signals =>
        simp only [Fed.prepend]
        cases he : feed a'' e with
        | fault f => rfl
        | ok a''' more => simp

/-- R20 is kept by every received byte, which is never stuck (R108), and `CAP` stays. -/
theorem stepByte_inv {a : Assembler} (h : a.Inv) (b : Byte) : ∃ a' sig, stepByte a b = .ok a' sig ∧ a'.Inv ∧ a'.cap = a.cap := by
  obtain ⟨hs, hg⟩ := h
  obtain ⟨h1, h2, h3, h4, h5⟩ := hs
  unfold stepByte
  rcases a with ⟨cap, st, cur, buf⟩
  simp only [Config.minCapacity] at *
  cases st
  · dsimp only; split
    · exact ⟨_, _, rfl, ⟨⟨h1, h2, h3, h4, h5⟩, trivial⟩, rfl⟩
    · exact ⟨_, _, rfl, ⟨⟨h1, h2, h3, h4, h5⟩, trivial⟩, rfl⟩
  · dsimp only; split
    · exact ⟨_, _, rfl, ⟨⟨h1, h2, h3, by simp, by simp⟩, ⟨by simp [Assembler.enterHeader], fun i hi => by simp [Assembler.enterHeader] at hi⟩⟩, rfl⟩
    · exact ⟨_, _, rfl, ⟨⟨h1, h2, h3, h4, h5⟩, trivial⟩, rfl⟩
  · obtain ⟨hc, hw⟩ := hg
    simp only at hc hw
    have hst : Assembler.store ⟨cap, .header, cur, buf⟩ [b] = some ⟨cap, .header, cur + 1, Memory.writeBytes buf cur [b]⟩ := by
      rw [Assembler.store_eq_some]; exact ⟨by simp; omega, rfl⟩
    have hsh := Assembler.store_shape (a := ⟨cap, .header, cur, buf⟩) (d := [b]) ⟨h1, h2, h3, h4, h5⟩ (by simp; omega) (by simp; omega)
    have hw' := Memory.writtenBelow_writeBytes hw [b]
    simp only [List.length_singleton] at hsh hw'
    obtain ⟨_, g2, g3, g4, g5⟩ := hsh
    simp only at g2 g3 g4 g5
    dsimp only [headerByte]
    rw [if_neg (by omega), hst]
    dsimp only
    split
    · refine ⟨_, _, rfl, ⟨⟨h1, g2, g3, g4, g5⟩, ?_⟩, rfl⟩
      exact ⟨by simp only; omega, hw'⟩
    · have hcur : cur = 1 := by omega
      subst hcur
      have hn : Memory.read? (Memory.writeBytes buf 1 [b]) 1 = some b := by
        rw [Memory.read?_writeBytes]; simp
      split
      · exact ⟨_, _, rfl, ⟨⟨h1, g2, g3, g4, g5⟩, trivial⟩, rfl⟩
      · split
        · rename_i hb
          refine ⟨_, _, rfl, ⟨⟨h1, g2, g3, g4, g5⟩, ?_⟩, rfl⟩
          simp only [Assembler.stage, Assembler.need?, hn, Option.map_some, hb]
          exact ⟨trivial, by omega, hw'⟩
        · rename_i hb hb'
          refine ⟨_, _, rfl, ⟨⟨h1, g2, g3, g4, g5⟩, ?_⟩, rfl⟩
          simp only [Assembler.stage, Assembler.need?, hn, Option.map_some]
          exact ⟨by omega, by omega, by omega, hw'⟩
  · simp only [Assembler.stage, Assembler.need?] at hg
    cases hr : Memory.read? buf 1 with
    | none => simp [hr] at hg
    | some len =>
      simp only [hr, Option.map_some] at hg
      obtain ⟨q1, q2, q3, q4⟩ := hg
      have hl := len.isLt
      have hst : Assembler.store ⟨cap, .data, cur, buf⟩ [b] = some ⟨cap, .data, cur + 1, Memory.writeBytes buf cur [b]⟩ := by
        rw [Assembler.store_eq_some]; exact ⟨by simp; omega, rfl⟩
      have hsh := Assembler.store_shape (a := ⟨cap, .data, cur, buf⟩) (d := [b]) ⟨h1, h2, h3, h4, h5⟩ (by simp; omega) (by simp; omega)
      have hw' := Memory.writtenBelow_writeBytes q4 [b]
      simp only [List.length_singleton] at hsh hw'
      obtain ⟨_, g2, g3, g4, g5⟩ := hsh
      simp only at g2 g3 g4 g5
      have hn : Memory.read? (Memory.writeBytes buf cur [b]) 1 = some len := by
        rw [Memory.read?_one_writeBytes q1, hr]
      dsimp only [dataByte]
      rw [hst]
      simp only [Assembler.need?, hn, Option.map_some]
      split
      · rename_i hc
        refine ⟨_, _, rfl, ⟨⟨h1, g2, g3, g4, g5⟩, ?_⟩, rfl⟩
        simp only [Assembler.stage, Assembler.need?, hn, Option.map_some]
        exact ⟨hc, q3, hc ▸ hw'⟩
      · rw [if_neg (by omega)]
        refine ⟨_, _, rfl, ⟨⟨h1, g2, g3, g4, g5⟩, ?_⟩, rfl⟩
        simp only [Assembler.stage, Assembler.need?, hn, Option.map_some]
        exact ⟨by omega, by omega, by omega, hw'⟩
  · dsimp only; split
    · exact ⟨_, _, rfl, ⟨⟨h1, h2, h3, h4, h5⟩, trivial⟩, rfl⟩
    · exact ⟨_, _, rfl, ⟨⟨h1, h2, h3, h4, h5⟩, trivial⟩, rfl⟩

/-- R20 is kept by every run of received bytes. -/
theorem feed_inv {a : Assembler} (h : a.Inv) (d : List Byte) : ∃ a' sig, feed a d = .ok a' sig ∧ a'.Inv ∧ a'.cap = a.cap := by
  induction d generalizing a with
  | nil => exact ⟨a, [], rfl, h, rfl⟩
  | cons b d ih =>
    obtain ⟨a', sig, e, hi, hc⟩ := stepByte_inv h b
    obtain ⟨a'', sigs, e', hi', hc'⟩ := ih hi
    exact ⟨a'', sig.toList ++ sigs, by simp [feed, e, e', Fed.prepend], hi', hc'.trans hc⟩

/-- A run of bytes in `Data` that does not go past the frame is one store (R96). -/
theorem feed_data {a : Assembler} {len : Byte} (hst : a.state = .data) (hl : Memory.read? a.buf 1 = some len)
    (h2 : 2 ≤ a.cursor) (hcap : len.toNat + 2 ≤ a.cap) (d : List Byte) (hd : a.cursor + d.length ≤ len.toNat + 2) (hne : d ≠ []) :
    feed a d = .ok { a with
        state := if a.cursor + d.length = len.toNat + 2 then .completed else .data
        buf := Memory.writeBytes a.buf a.cursor d
        cursor := a.cursor + d.length } (if a.cursor + d.length = len.toNat + 2 then [.done] else []) := by
  induction d generalizing a with
  | nil => exact absurd rfl hne
  | cons b d ih =>
    rcases a with ⟨cap, st, cur, buf⟩
    simp only at hst hl h2 hcap hd
    subst hst
    simp only [List.length_cons] at hd
    have hs : Assembler.store ⟨cap, .data, cur, buf⟩ [b] = some ⟨cap, .data, cur + 1, Memory.writeBytes buf cur [b]⟩ := by
      rw [Assembler.store_eq_some]; exact ⟨by simp; omega, rfl⟩
    have hn : Memory.read? (Memory.writeBytes buf cur [b]) 1 = some len := by
      rw [Memory.read?_one_writeBytes h2, hl]
    simp only [feed, stepByte, dataByte, hs, Assembler.need?, hn, Option.map_some]
    by_cases hdn : d = []
    · subst hdn
      simp only [List.length_singleton]
      by_cases hfin : cur + 1 = len.toNat + 2
      · simp only [if_pos hfin]
        simp [feed, Fed.prepend]
      · simp at hd
        have : ¬ (cur + 1 > len.toNat + 2) := by omega
        simp only [if_neg hfin, if_neg this]
        simp [feed]
    · have hpos : 0 < d.length := List.length_pos_iff.mpr hdn
      rw [if_neg (by omega), if_neg (by omega)]
      simp only [Fed.prepend_none]
      have := ih (a := ⟨cap, .data, cur + 1, Memory.writeBytes buf cur [b]⟩) rfl hn (by simp; omega) hcap (by simp only; omega) hdn
      rw [this]
      simp only [List.length_cons, Memory.writeBytes]
      have e : cur + 1 + d.length = cur + (d.length + 1) := by omega
      rw [e]

/-! ### One trip round the loop (R91) -/

/-- Everything `Fetch` can do: end the poll with nothing handed over, or go on with at least one byte. -/
theorem fetch_cases {n : Nat} {a : Assembler} {src : Source} {k} :
    (∃ src' e, fetch n a src k = .ended a src' (.transport e) ∧ Took src src' []) ∨
    (∃ src', fetch n a src k = .ended a src' .dry ∧ Took src src' []) ∨
    (∃ src' b d, fetch n a src k = k b d src' ∧ Took src src' (b :: d) ∧ (b :: d).length ≤ n) := by
  have h := Source.read_spec n src
  unfold fetch
  rcases hr : src.read n with ⟨ans, src'⟩
  rw [hr] at h
  obtain ⟨q1, q2, -⟩ := h
  cases ans with
  | error e => exact .inl ⟨src', e, rfl, q1⟩
  | wouldBlock => exact .inr (.inl ⟨src', rfl, q1⟩)
  | bytes d =>
    cases d with
    | nil => exact .inr (.inl ⟨src', rfl, q1⟩)
    | cons b d => exact .inr (.inr ⟨src', b, d, rfl, q1, q2⟩)

/-- The signals that the end of a poll stands for (R104). -/
def endSignals : PollEnd → List Signal
  | .frameDone => [.done]
  | .dry => []
  | .transport _ => []
  | .insufficientCapacity => [.insufficientCapacity]

/-- Everything one trip can do in a state that meets R20, in terms of `ASM.STEP` over the bytes `d` it takes, which are at
most as many as it asks for. -/
inductive TurnSpec (a : Assembler) (src : Source) : Turn → Prop where
  /-- the poll ends with nothing taken -/
  | idle {src' : Source} {how : PollEnd} (took : Took src src' []) (quiet : endSignals how = []) :
      TurnSpec a src (.ended a src' how)
  /-- the poll ends at a signal -/
  | signalled {a' : Assembler} {src' : Source} {how : PollEnd} {d : List Byte} {signal : Signal} (took : Took src src' d)
      (ne : d ≠ []) (size : d.length ≤ a.requestSize) (fed : feed a d = .ok a' [signal])
      (how_eq : endSignals how = [signal]) : TurnSpec a src (.ended a' src' how)
  /-- the loop goes round, and nothing was signalled -/
  | onward {a' : Assembler} {src' : Source} {d : List Byte} (took : Took src src' d) (ne : d ≠ [])
      (size : d.length ≤ a.requestSize) (fed : feed a d = .ok a' []) : TurnSpec a src (.again a' src')
  /-- a declared length of 0: the loop goes round once more with the frame already complete (R96) -/
  | emptyFrame {a' : Assembler} {src' : Source} {d : List Byte} (took : Took src src' d) (ne : d ≠ [])
      (size : d.length ≤ a.requestSize) (fed : feed a d = .ok a' [.done]) (need : a'.need? = some a'.cursor)
      (state : a'.state = .completed) : TurnSpec a src (.again { a' with state := .data } src')

theorem seekStep_spec {a : Assembler} (h : a.seeking) (src : Source) : TurnSpec a src (seekStep a src) := by
  unfold seekStep
  have hs : a.requestSize = 2 := by rcases h with h | h <;> simp [Assembler.requestSize, h]
  have step1 (b : Byte) : stepByte a b =
      if b = Config.marker then .ok { a with state := .seekMarker2 } none
      else .ok { a with state := .seekMarker1 } none := by
    rcases h with h | h <;> simp [stepByte, h]
  rcases fetch_cases (n := 2) (a := a) (src := src) (k := _) with ⟨src', e, q, t⟩ | ⟨src', q, t⟩ | ⟨src', b, d, q, t, l⟩
  · rw [q]
    exact .idle t rfl
  · rw [q]
    exact .idle t rfl
  · rw [q]
    rcases d with _ | ⟨c, _ | ⟨d, _⟩⟩
    · dsimp only
      split <;> exact .onward t (by simp) (by simp [hs]) (by simp [feed, *])
    · dsimp only
      have two (a' : Assembler) (e : feed a [b, c] = .ok a' []) : TurnSpec a src (.again a' src') :=
        .onward t (by simp) (by simp [hs]) e
      by_cases hb : b = Config.marker <;> by_cases hc : c = Config.marker
      · rw [if_pos ⟨hb, hc⟩]
        exact two _ (by rw [feed, step1, if_pos hb]; simp [feed, stepByte, hc, Assembler.enterHeader])
      · rw [if_neg (fun h => hc h.2), if_neg hc]
        exact two _ (by rw [feed, step1, if_pos hb]; simp [feed, stepByte, hc])
      · rw [if_neg (fun h => hb h.1), if_pos hc]
        exact two _ (by rw [feed, step1, if_neg hb]; simp [feed, stepByte, hc])
      · rw [if_neg (fun h => hb h.1), if_neg hc]
        exact two _ (by rw [feed, step1, if_neg hb]; simp [feed, stepByte, hc])
    · simp at l

theorem seek2Step_spec {a : Assembler} (h : a.state = .seekMarker2) (src : Source) : TurnSpec a src (seek2Step a src) := by
  unfold seek2Step
  rcases fetch_cases (n := 1) (a := a) (src := src) (k := _) with ⟨src', e, q, t⟩ | ⟨src', q, t⟩ | ⟨src', b, d, q, t, l⟩
  · rw [q]
    exact .idle t rfl
  · rw [q]
    exact .idle t rfl
  · rw [q]
    have : d = [] := by simpa using l
    subst this
    split <;>
      exact .onward t (by simp) (by simp [Assembler.requestSize, h]) (by simp [feed, stepByte, *])

/-- The last header byte, whatever the id's place holds. -/
theorem headerDone_spec {cap : Nat} {buf : Memory} {a : Assembler} {b : Byte} {d : List Byte} {src src' : Source}
    (hcap : 3 ≤ cap) (t : Took src src' d) (hne : d ≠ []) (size : d.length ≤ a.requestSize)
    (hf : feed a d = feed { cap := cap, state := .header, cursor := 1, buf := buf } [b]) :
    TurnSpec a src (headerDone { cap := cap, state := .header, cursor := 2, buf := Memory.writeBytes buf 1 [b] } src') := by
  have hs : Assembler.store ⟨cap, .header, 1, buf⟩ [b] = some ⟨cap, .header, 2, Memory.writeBytes buf 1 [b]⟩ := by
    rw [Assembler.store_eq_some]
    exact ⟨by simp; omega, rfl⟩
  have hn : Memory.read? (Memory.writeBytes buf 1 [b]) 1 = some b := by
    rw [Memory.read?_writeBytes]
    simp
  simp only [feed, stepByte, headerByte, hs] at hf
  rw [if_neg (by omega), if_neg (by omega)] at hf
  simp only [headerDone, Assembler.need?, hn, Option.map_some]
  split
  · rename_i hgt
    rw [if_pos hgt] at hf
    exact .signalled t hne size hf rfl
  · rename_i hgt
    rw [if_neg hgt] at hf
    by_cases hz : b.toNat = 0
    · rw [if_pos hz] at hf
      exact .emptyFrame t hne size hf (by simp [Assembler.need?, hn, hz]) rfl
    · rw [if_neg hz] at hf
      exact .onward t hne size hf

theorem headerStep_spec {a : Assembler} (h : a.Inv) (hst : a.state = .header) (src : Source) :
    TurnSpec a src (headerStep a src) := by
  rcases a with ⟨cap, st, cur, buf⟩
  subst hst
  obtain ⟨⟨h1, h2, h3, h4, h5⟩, hc, hw⟩ := h
  simp only [Config.minCapacity] at h1 hc
  simp only [headerStep]
  rw [if_neg (by omega)]
  rcases fetch_cases (n := 2 - cur) (a := ⟨cap, .header, cur, buf⟩) (src := src) (k := _) with
    ⟨src', e, q, t⟩ | ⟨src', q, t⟩ | ⟨src', b, d, q, t, l⟩
  · rw [q]
    exact .idle t rfl
  · rw [q]
    exact .idle t rfl
  · rw [q]
    have hs : Assembler.store ⟨cap, .header, cur, buf⟩ (b :: d) =
        some ⟨cap, .header, cur + (b :: d).length, Memory.writeBytes buf cur (b :: d)⟩ := by
      rw [Assembler.store_eq_some]
      exact ⟨by simp only; omega, rfl⟩
    simp only [hs]
    rcases d with _ | ⟨c, _ | ⟨d, _⟩⟩
    · by_cases h0 : cur = 0
      · subst h0
        rw [if_neg (by simp)]
        refine .onward t (by simp) l ?_
        have : Assembler.store ⟨cap, .header, 0, buf⟩ [b] = some ⟨cap, .header, 1, Memory.writeBytes buf 0 [b]⟩ := hs
        simp [feed, stepByte, headerByte, this]
      · obtain rfl : cur = 1 := by omega
        rw [if_pos (by simp)]
        exact headerDone_spec h1 t (by simp) l rfl
    · obtain rfl : cur = 0 := by
        simp at l
        omega
      rw [if_pos (by simp)]
      refine headerDone_spec (buf := Memory.writeBytes buf 0 [b]) h1 t (by simp) l ?_
      have : Assembler.store ⟨cap, .header, 0, buf⟩ [b] = some ⟨cap, .header, 1, Memory.writeBytes buf 0 [b]⟩ := by
        rw [Assembler.store_eq_some]
        exact ⟨by simp; omega, rfl⟩
      rw [feed]
      simp [stepByte, headerByte, this]
    · simp at l
      omega

theorem dataStep_spec {a : Assembler} (h : a.Inv) (hst : a.state = .data) (src : Source) :
    TurnSpec a src (dataStep a src) := by
  rcases a with ⟨cap, st, cur, buf⟩
  subst hst
  obtain ⟨_, hg⟩ := h
  simp only [Assembler.stage, Assembler.need?] at hg
  cases hr : Memory.read? buf 1 with
  | none => simp [hr] at hg
  | some len =>
    simp only [hr, Option.map_some] at hg
    obtain ⟨q1, q2, q3, _⟩ := hg
    simp only [dataStep, Assembler.need?, hr, Option.map_some]
    rw [if_neg (by omega), if_neg (by omega)]
    rcases fetch_cases (n := len.toNat + 2 - cur) (a := ⟨cap, .data, cur, buf⟩) (src := src) (k := _) with
      ⟨src', e, q, t⟩ | ⟨src', q, t⟩ | ⟨src', b, d, q, t, l⟩
    · rw [q]
      exact .idle t rfl
    · rw [q]
      exact .idle t rfl
    · rw [q]
      have hs : Assembler.store ⟨cap, .data, cur, buf⟩ (b :: d) =
          some ⟨cap, .data, cur + (b :: d).length, Memory.writeBytes buf cur (b :: d)⟩ := by
        rw [Assembler.store_eq_some]
        exact ⟨by simp only; omega, rfl⟩
      have hf := feed_data (a := ⟨cap, .data, cur, buf⟩) rfl hr q1 q3 (b :: d) (by simp only; omega) (by simp)
      have size : (b :: d).length ≤ Assembler.requestSize ⟨cap, .data, cur, buf⟩ := by
        simpa [Assembler.requestSize, Assembler.need?, hr] using l
      simp only [hs]
      split
      · rename_i hc
        rw [if_pos hc, if_pos hc] at hf
        exact .signalled t (by simp) size hf rfl
      · rename_i hc
        rw [if_neg hc, if_neg hc] at hf
        exact .onward t (by simp) size hf

/-- What one trip does, from every state that meets R20. -/
theorem turn_spec {a : Assembler} (h : a.Inv) (src : Source) : TurnSpec a src (turn a src) := by
  cases hst : a.state <;> simp only [turn, hst]
  · exact seekStep_spec (.inl hst) src
  · exact seek2Step_spec hst src
  · exact headerStep_spec h hst src
  · exact dataStep_spec h hst src
  · exact seekStep_spec (.inr hst) src

/-- R104's last sentence: fewer bytes than a request asks for signal nothing. -/
theorem feed_quiet {a : Assembler} (h : a.Inv) {d : List Byte} (hd : d.length < a.requestSize) :
    ∃ a', feed a d = .ok a' [] := by
  rcases a with ⟨cap, st, cur, buf⟩
  obtain ⟨⟨h1, _⟩, hg⟩ := h
  simp only [Config.minCapacity] at h1
  rcases d with _ | ⟨b, d⟩
  · exact ⟨_, rfl⟩
  cases st <;> simp only [Assembler.requestSize, List.length_cons] at hd
  · obtain rfl : d = [] := List.length_eq_zero_iff.mp (by omega)
    by_cases hb : b = Config.marker <;> simp [feed, stepByte, hb]
  · omega
  · obtain rfl : cur = 0 := by omega
    obtain rfl : d = [] := List.length_eq_zero_iff.mp (by omega)
    have : Assembler.store ⟨cap, .header, 0, buf⟩ [b] = some ⟨cap, .header, 1, Memory.writeBytes buf 0 [b]⟩ := by
      rw [Assembler.store_eq_some]
      exact ⟨by simp; omega, rfl⟩
    exact ⟨_, by simp [feed, stepByte, headerByte, this]; rfl⟩
  · simp only [Assembler.stage, Assembler.need?] at hg
    cases hr : Memory.read? buf 1 with
    | none => simp [hr] at hg
    | some len =>
      simp only [hr, Option.map_some] at hg
      simp only [Assembler.need?, hr, Option.map_some, Option.getD_some] at hd
      have := feed_data (a := ⟨cap, .data, cur, buf⟩) rfl hr hg.1 hg.2.2.1 (b :: d)
        (by simp only [List.length_cons]; omega) (by simp)
      rw [if_neg (by simp only [List.length_cons]; omega), if_neg (by simp only [List.length_cons]; omega)] at this
      exact ⟨_, this⟩
  · obtain rfl : d = [] := List.length_eq_zero_iff.mp (by omega)
    by_cases hb : b = Config.marker <;> simp [feed, stepByte, hb]

end Sys2Proof.Machine
end

