-- ==== Sys2Proof/Laws/Decode.lean ====
section
/-! SUPPORT. Reading back what the encoder wrote, operand by operand (entry 1), and wire images (R50, R58). -/

namespace Sys2Proof

theorem toNat_ofNat8 {n : Nat} (h : n ≤ 255) : (BitVec.ofNat 8 n).toNat = n := by
  rw [BitVec.toNat_ofNat]
  omega

theorem RegionRef.ofCode_code (r : RegionRef) : RegionRef.ofCode r.code = some r := by
  cases r <;> rfl

theorem takeRegion_code (r : RegionRef) (rest : List Byte) (k : RegionRef → List Byte → Decoded) :
    takeRegion (r.code :: rest) k = k r rest := by
  simp [takeRegion, takeByte, RegionRef.ofCode_code]

theorem takeCount_append (v rest : List Byte) (k : List Byte → List Byte → Decoded) :
    takeCount v.length (v ++ rest) k = k v rest := by
  simp [takeCount]

theorem takeSequence_bytes {v : List Byte} (h : v.length ≤ 255) (rest : List Byte)
    (k : List Byte → List Byte → Decoded) : takeSequence (sequenceBytes v ++ rest) k = k v rest := by
  simp only [takeSequence, sequenceBytes, List.cons_append, takeByte, toNat_ofNat8 h, takeCount_append]

theorem takeWord32_bytes {n : Nat} (h : n < 4294967296) (rest : List Byte) (k : Nat → List Byte → Decoded) :
    takeWord32 (word32Bytes n ++ rest) k = k n rest := by
  simp only [takeWord32, word32Bytes, List.cons_append, List.nil_append, BitVec.toNat_ofNat]
  congr 1
  omega

/-- A wire image is read back as its frame (R58). -/
theorem decode_wireBytes {id : Byte} {body : List Byte} (h : body.length ≤ 255) (rest : List Byte) :
    decode (wireBytes id body ++ rest) = .instr (classifyFrame id body) rest := by
  simp only [decode, wireBytes, List.cons_append, ite_true, decodeWire, takeByte, toNat_ofNat8 h, takeCount_append]

end Sys2Proof
end

