-- ==== Sys2Proof/Laws/Operands.lean ====
section
/-! SUPPORT. What the shared operations of the codec can do: the guard (R71), running an operation on a region, replacing
bytes of a region, and the checksum (R70). -/

namespace Sys2Proof.Machine

/-! ### The guard and the declared length -/

theorem declaredLength_eq {r : List Byte} {len : Byte} (h : r[1]? = some len) : declaredLength r = len.toNat := by
  simp [declaredLength, List.getD_eq_getElem?_getD, h]

theorem guardError_of_passes {r : List Byte} {len : Byte} (h : guardPasses r len) :
    guardError r = none ∧ declaredLength r = len.toNat := by
  obtain ⟨h1, h2, h3, h4⟩ := h
  refine ⟨?_, declaredLength_eq h2⟩
  unfold guardError
  rw [declaredLength_eq h2, if_neg (by omega), if_neg (by omega), if_neg (by omega)]

theorem guardError_of_fails {r : List Byte} {e : FrameError} (h : guardFails r e) : guardError r = some e := by
  unfold guardError declaredLength
  rcases h with ⟨h1, rfl⟩ | ⟨h1, rfl, h2⟩
  · rw [if_pos h1]
  · rw [if_neg (by omega)]
    split
    · rfl
    · rw [if_pos (by omega)]

/-- R78: after `FRAME.SET_LENGTH` the guard passes. -/
theorem lengthGuardError_none {r : List Byte} {v : Byte} (h1 : 3 ≤ r.length) (h2 : 1 ≤ v.toNat)
    (h3 : v.toNat + 2 ≤ r.length) : lengthGuardError r v = none ∧ guardPasses (r.set 1 v) v := by
  refine ⟨?_, by simpa using h1, List.getElem?_set_self (by omega), h2, by simpa using h3⟩
  unfold lengthGuardError
  rw [if_neg (by omega), if_neg (by omega)]

/-- A store beside the length byte keeps the guard passing. -/
theorem guardPasses_set {r : List Byte} {len : Byte} (h : guardPasses r len) {i : Nat} (hi : i ≠ 1) (v : Byte) :
    guardPasses (r.set i v) len := by
  obtain ⟨h1, h2, h3, h4⟩ := h
  exact ⟨by simpa using h1, by rw [List.getElem?_set_ne hi]; exact h2, h3, by simpa using h4⟩

/-! ### Running an operation on a region -/

/-- A read accessor answers a next state only on a region that is there. -/
theorem State.withRegion_next {s t : State} {ref : RegionRef} {k : List Byte → StepOutcome}
    (h : s.withRegion ref k = .next t) : ∃ r, s.view ref = .bytes r ∧ k r = .next t := by
  unfold State.withRegion at h
  split at h
  · exact ⟨_, by assumption, h⟩
  · cases h
  · cases h

/-- A mutator answers a next state only on the consumer's regions. -/
theorem State.withMutable_next {s t : State} {ref : RegionRef} {k : List Byte → StepOutcome}
    (h : s.withMutable ref k = .next t) : ∃ r, s.view ref = .bytes r ∧ ref ≠ .frame ∧ k r = .next t := by
  unfold State.withMutable at h
  split at h
  · exact ⟨_, rfl, by simp, h⟩
  · exact ⟨_, rfl, by simp, h⟩
  · cases h

/-- A guarded operation raises the guard's error, or goes on. -/
theorem State.guarded_next {s t : State} {e : Option FrameError} {k : StepOutcome} (h : s.guarded e k = .next t) :
    (∃ f, e = some f ∧ t = { s with result := some (.err (.frame f)) }) ∨ (e = none ∧ k = .next t) := by
  unfold State.guarded at h
  split at h
  · exact .inl ⟨_, rfl, (State.raise_eq_next.mp h).symm⟩
  · exact .inr ⟨rfl, h⟩

/-! ### Replacing bytes -/

theorem overwrite_length {r : List Byte} {i : Nat} {v : List Byte} (h : i + v.length ≤ r.length) :
    (overwrite r i v).length = r.length := by
  simp [overwrite]
  omega

/-- The byte at an index after a replacement: the new one inside, the old one outside. -/
theorem getElem?_overwrite {r : List Byte} {i : Nat} {v : List Byte} (h : i + v.length ≤ r.length) (k : Nat) :
    (overwrite r i v)[k]? = if i ≤ k ∧ k < i + v.length then v[k - i]? else r[k]? := by
  unfold overwrite
  have hl : (r.take i).length = i := by
    simp
    omega
  rw [List.append_assoc]
  by_cases h1 : k < i
  · rw [List.getElem?_append_left (by omega), if_neg (by omega), List.getElem?_take, if_pos h1]
  · rw [List.getElem?_append_right (by omega), hl]
    by_cases h2 : k - i < v.length
    · rw [List.getElem?_append_left h2, if_pos (by omega)]
    · rw [List.getElem?_append_right (by omega), if_neg (by omega), List.getElem?_drop]
      congr 1
      omega

/-- The wire image's region starts at its index 2 (R64). -/
theorem image_set {w : List Byte} (h : 2 ≤ w.length) (i : Nat) (v : Byte) :
    w.take 2 ++ (w.drop 2).set i v = w.set (i + 2) v := by
  rcases w with _ | ⟨a, _ | ⟨b, w⟩⟩
  · simp at h
  · simp at h
  · simp [List.set]

/-! ### The checksum -/

theorem cks_toNat (r : List Byte) : (cks r).toNat = 255 - byteSum (r.take (declaredLength r + 1)) % 256 := by
  simp only [cks, not8, BitVec.toNat_ofNat]
  omega

/-- One byte of a sum replaced. -/
theorem byteSum_set (r : List Byte) (i : Nat) (v x : Byte) (h : r[i]? = some x) :
    byteSum (r.set i v) + x.toNat = byteSum r + v.toNat := by
  induction r generalizing i with
  | nil => simp at h
  | cons b r ih =>
    cases i with
    | zero =>
      simp at h
      subst h
      simp [byteSum]
      omega
    | succ i =>
      simp at h
      have := ih i h
      simp [byteSum] at this ⊢
      omega

/-- R76 in numbers. -/
theorem verifyError_of_passes {r : List Byte} {len c : Byte} (hg : guardPasses r len)
    (hc : r[len.toNat + 1]? = some c) :
    verifyError r =
      if c.toNat = 255 - byteSum (r.take (len.toNat + 1)) % 256 then none else some .checksumMismatch := by
  obtain ⟨h1, h2⟩ := guardError_of_passes hg
  have h3 : storedChecksum r = c := by simp [storedChecksum, h2, hc]
  have h4 : (c = cks r) = (c.toNat = 255 - byteSum (r.take (len.toNat + 1)) % 256) := by
    rw [← h2, ← cks_toNat]
    exact propext ⟨fun h => by rw [h], BitVec.eq_of_toNat_eq⟩
  simp only [verifyError, h1, h3, h4]

end Sys2Proof.Machine
end

