-- ==== Sys2Proof/Laws/PerInstr.lean ====
section
/-! SUPPORT. The family `EncodingFirstByte`: the first byte of every instruction's bytes is the selector of R61, or the marker
byte for the wire rows (R65). One lemma per constructor. -/

namespace Sys2Proof.Laws.EncodingFirstByte

/-- The instruction's bytes start with its first byte. -/
def Statement (i : Instr) : Prop := (encode i).head? = some i.firstByte

theorem wireMarkerByte : Statement (.wireMarkerByte) := rfl
theorem wireFrame (id : Byte) (body : List Byte) : Statement (.wireFrame id body) := rfl
theorem wireReadReg (id address length checksum : Byte) : Statement (.wireReadReg id address length checksum) := rfl
theorem wireWriteReg (id address : Byte) (data : List Byte) (checksum : Byte) : Statement (.wireWriteReg id address data checksum) := rfl
theorem asmNew (cap : Nat) : Statement (.asmNew cap) := rfl
theorem asmRead : Statement (.asmRead) := rfl
theorem asmFrame : Statement (.asmFrame) := rfl
theorem frameId (r : RegionRef) : Statement (.frameId r) := rfl
theorem frameLength (r : RegionRef) : Statement (.frameLength r) := rfl
theorem framePayload (r : RegionRef) : Statement (.framePayload r) := rfl
theorem frameChecksum (r : RegionRef) : Statement (.frameChecksum r) := rfl
theorem frameVerify (r : RegionRef) : Statement (.frameVerify r) := rfl
theorem frameSetId (r : RegionRef) (v : Byte) : Statement (.frameSetId r v) := rfl
theorem frameSetLength (r : RegionRef) (v : Byte) : Statement (.frameSetLength r v) := rfl
theorem framePayloadMut (r : RegionRef) (off : Nat) (v : List Byte) : Statement (.framePayloadMut r off v) := rfl
theorem frameUpdateChecksum (r : RegionRef) : Statement (.frameUpdateChecksum r) := rfl
theorem buildReadReg (id address length : Byte) : Statement (.buildReadReg id address length) := rfl
theorem buildWriteReg (id address : Byte) (dataLen : Nat) : Statement (.buildWriteReg id address dataLen) := rfl
theorem frameEncode (id : Byte) (payload : List Byte) : Statement (.frameEncode id payload) := rfl

end Sys2Proof.Laws.EncodingFirstByte
end

