-- ==== Sys2Proof/Tests/Slice0.lean ====
section
/-! SUPPORT. Tests with expected results from `spec/95_test_vectors.md` (V-A, V-B, V-C, P5) or from the rules by hand, and the
witnesses of the obligations' hypotheses. -/

namespace Sys2Proof.Tests

open Sys2Proof Sys2Proof.Machine

/-! ### Small states and views of an outcome -/

def resultOf : StepOutcome → Option Result
  | .next t => t.result
  | .fault _ => none
  | .refused _ => none

def regionOf : StepOutcome → List Byte
  | .next t => t.region
  | .fault _ => []
  | .refused _ => []

def imageOf : StepOutcome → List Byte
  | .next t => t.image
  | .fault _ => []
  | .refused _ => []

def refusalIn : StepOutcome → Option Refusal
  | .next _ => none
  | .fault _ => none
  | .refused q => some q

/-- State tag, cursor and waiting bytes of a next state. -/
def placeOf : StepOutcome → Option (Tag × Nat × List Byte)
  | .next t => some (t.asm.state, t.asm.cursor, t.src.waiting)
  | .fault _ => none
  | .refused _ => none

/-- `f1` without its markers, the region of the worked examples. -/
def r1 : List Byte := [0x01, 0x05, 0x03, 0x2A, 0x00, 0x14, 0xB8]
/-- `f1` of `95_test_vectors.md`. -/
def f1 : List Byte := 0xFF :: 0xFF :: r1
/-- `f2` of `95_test_vectors.md`. -/
def f2 : List Byte := [0xFF, 0xFF, 0x02, 0x04, 0x02, 0x38, 0x02, 0xBD]

def onRegion (r : List Byte) : State := { State.reset with region := r }
def onImage (w : List Byte) : State := { State.reset with image := w }
def onLine (cap : Nat) (bs : List Byte) : State :=
  { State.reset with
    asm := Assembler.fresh cap
    src := { State.reset.src with waiting := bs } }
def onScript (a : Assembler) (script : List SrcChoice) : State :=
  { State.reset with
    asm := a
    src := { State.reset.src with script := script } }

def idle : Assembler := Assembler.fresh 16
def second : Assembler := { idle with state := .seekMarker2 }
def header0 : Assembler := { idle with state := .header }
def header1 : Assembler := { idle with state := .header, cursor := 1, buf := [(0, 0x01)] }
def body2 : Assembler := { idle with state := .data, cursor := 2, buf := [(0, 0x01), (1, 0x05)] }
def body6 : Assembler :=
  { idle with
    state := .data
    cursor := 6
    buf := [(0, 0x01), (1, 0x05), (2, 0x03), (3, 0x2A), (4, 0x00), (5, 0x14)] }
def done : Assembler :=
  { idle with
    state := .completed
    cursor := 7
    buf := [(0, 0x01), (1, 0x05), (2, 0x03), (3, 0x2A), (4, 0x00), (5, 0x14), (6, 0xB8)] }
/-- A completed frame whose declared length is 0. -/
def done0 : Assembler := { idle with state := .completed, cursor := 2, buf := [(0, 0x07), (1, 0x00)] }
def withAsm (a : Assembler) : State := { State.reset with asm := a }

theorem witness_inv_reset : State.reset.Inv :=
  ⟨⟨by decide, by decide, by decide, by decide, by decide⟩, trivial⟩
theorem witness_inv_idle : idle.Inv := ⟨⟨by decide, by decide, by decide, by decide, by decide⟩, trivial⟩
theorem witness_inv_second : second.Inv := ⟨⟨by decide, by decide, by decide, by decide, by decide⟩, trivial⟩
theorem witness_inv_header0 : header0.Inv :=
  ⟨⟨by decide, by decide, by decide, by decide, by decide⟩, by decide, by decide⟩
theorem witness_inv_header1 : header1.Inv :=
  ⟨⟨by decide, by decide, by decide, by decide, by decide⟩, by decide, by decide⟩
theorem witness_inv_body2 : body2.Inv :=
  ⟨⟨by decide, by decide, by decide, by decide, by decide⟩, by decide, by decide, by decide, by decide⟩
theorem witness_inv_body6 : body6.Inv :=
  ⟨⟨by decide, by decide, by decide, by decide, by decide⟩, by decide, by decide, by decide, by decide⟩
theorem witness_inv_done : done.Inv :=
  ⟨⟨by decide, by decide, by decide, by decide, by decide⟩, by decide, by decide, by decide⟩
theorem witness_inv_done0 : done0.Inv :=
  ⟨⟨by decide, by decide, by decide, by decide, by decide⟩, by decide, by decide, by decide⟩
theorem witness_inv_line (cap : Nat) (h : 3 ≤ cap) (bs : List Byte) : (onLine cap bs).Inv :=
  ⟨⟨h, rfl, by simp [onLine, Assembler.fresh], Nat.zero_le _, Nat.zero_le _⟩, trivial⟩

/-! ### WellFormed: one ill-formed term for each check -/

theorem test_wf_frame_too_long : (Instr.wireFrame 1 (List.replicate 256 0)).wf = false := by decide +kernel
theorem test_wf_frame_is_read_command : (Instr.wireFrame 1 [0x02, 0x10, 0x04, 0xE6]).wf = false := by decide
theorem test_wf_frame_is_write_command : (Instr.wireFrame 1 [0x03, 0x2A, 0x00]).wf = false := by decide
theorem test_wf_write_command_too_long : (Instr.wireWriteReg 1 2 (List.replicate 253 0) 0).wf = false := by decide +kernel
theorem test_wf_capacity_too_small : (Instr.asmNew 2).wf = false := by decide
theorem test_wf_capacity_too_large : (Instr.asmNew 4294967299).wf = false := by decide
theorem test_wf_set_id_read_only : (Instr.frameSetId .frame 1).wf = false := by decide
theorem test_wf_set_length_read_only : (Instr.frameSetLength .frame 1).wf = false := by decide
theorem test_wf_payload_read_only : (Instr.framePayloadMut .frame 0 []).wf = false := by decide
theorem test_wf_payload_outside : (Instr.framePayloadMut .operand 254 [1]).wf = false := by decide
theorem test_wf_update_read_only : (Instr.frameUpdateChecksum .frame).wf = false := by decide
theorem test_wf_write_reg_too_long : (Instr.buildWriteReg 1 2 253).wf = false := by decide
theorem test_wf_encode_too_long : (Instr.frameEncode 1 (List.replicate 255 0)).wf = false := by decide +kernel

/-! ### Decode: every constructor, from a word written out from R50 to R56 and R61 -/

theorem test_decode_marker_byte : decode [0xFF] = .instr .wireMarkerByte [] := by decide
theorem test_decode_frame : decode [0xFF, 0xFF, 0x05, 0x02, 0x00, 0xF8] = .instr (.wireFrame 0x05 [0x00, 0xF8]) [] := by
  decide
theorem test_decode_read_reg : decode f2 = .instr (.wireReadReg 0x02 0x38 0x02 0xBD) [] := by decide
theorem test_decode_write_reg : decode f1 = .instr (.wireWriteReg 0x01 0x2A [0x00, 0x14] 0xB8) [] := by decide
theorem test_decode_asm_new : decode [0x00, 0x0D, 0x00, 0x00, 0x00] = .instr (.asmNew 16) [] := by decide
theorem test_decode_asm_read : decode [0x01] = .instr .asmRead [] := by decide
theorem test_decode_asm_frame : decode [0x02] = .instr .asmFrame [] := by decide
theorem test_decode_id : decode [0x10, 0x00] = .instr (.frameId .operand) [] := by decide
theorem test_decode_length : decode [0x11, 0x01] = .instr (.frameLength .image) [] := by decide
theorem test_decode_payload : decode [0x12, 0x02] = .instr (.framePayload .frame) [] := by decide
theorem test_decode_checksum : decode [0x13, 0x00] = .instr (.frameChecksum .operand) [] := by decide
theorem test_decode_verify : decode [0x14, 0x02] = .instr (.frameVerify .frame) [] := by decide
theorem test_decode_set_id : decode [0x18, 0x00, 0x02] = .instr (.frameSetId .operand 0x02) [] := by decide
theorem test_decode_set_length : decode [0x19, 0x01, 0x05] = .instr (.frameSetLength .image 0x05) [] := by decide
theorem test_decode_payload_mut :
    decode [0x1A, 0x00, 0x02, 0x02, 0x00, 0x14] = .instr (.framePayloadMut .operand 2 [0x00, 0x14]) [] := by
  decide
theorem test_decode_update : decode [0x1B, 0x01] = .instr (.frameUpdateChecksum .image) [] := by decide
theorem test_decode_build_read : decode [0x20, 0x01, 0x10, 0x04] = .instr (.buildReadReg 0x01 0x10 0x04) [] := by decide
theorem test_decode_build_write : decode [0x21, 0x01, 0x2A, 0x02] = .instr (.buildWriteReg 0x01 0x2A 2) [] := by decide
theorem test_decode_encode :
    decode [0x22, 0x01, 0x04, 0x03, 0x2A, 0x00, 0x14] = .instr (.frameEncode 0x01 [0x03, 0x2A, 0x00, 0x14]) [] := by
  decide
theorem test_decode_unknown_selector : decode [0x03] = .rejected (.unknownSelector 0x03) := by decide
theorem test_decode_unknown_region : decode [0x10, 0x03] = .rejected (.unknownRegion 0x03) := by decide
theorem test_decode_truncated : decode [0xFF, 0xFF, 0x01, 0x05, 0x03] = .rejected .truncated := by decide
theorem test_decode_empty : decode [] = .rejected .empty := by decide

/-! ### The opcode table's words (entry 2) -/

theorem test_table_marker_byte : decodeTableWord 8 0xFF = some .wireMarkerByte := by decide
theorem test_table_frame : decodeTableWord 16 0xFFFF = some (.wireFrame 0 []) := by decide
theorem test_table_read_reg_wire_order : decodeTableWord 40 0xFFFF000402 = some (.wireReadReg 0 0 0 0) := by decide
theorem test_table_read_reg_low_first : decodeTableWord 40 0x020400FFFF = some (.wireReadReg 0 0 0 0) := by decide
theorem test_table_write_reg_wire_order : decodeTableWord 40 0xFFFF000303 = some (.wireWriteReg 0 0 [] 0) := by decide
theorem test_table_write_reg_low_first : decodeTableWord 40 0x030300FFFF = some (.wireWriteReg 0 0 [] 0) := by decide
theorem test_table_long_payload : decodeTableWord 24 0x090122 = some (.frameEncode 0x01 (List.replicate 9 0)) := by
  decide +kernel
theorem test_table_asm_new : decodeTableWord 8 0x00 = some (.asmNew 3) := by decide
theorem test_table_asm_read_runs : placeOf (step (State.reset.withFetchWord 8 0x01)) = some (.seekMarker1, 0, []) := by
  decide
theorem test_table_frame_runs : placeOf (step (State.reset.withFetchWord 16 0xFFFF)) = some (.completed, 2, []) := by
  decide
theorem test_table_asm_frame_runs : refusalIn (step (State.reset.withFetchWord 8 0x02)) = some .noFrame := by decide

/-! ### The codec (V-C) -/

theorem test_id : resultOf (exec (.frameId .operand) (onRegion r1)) = some (.ok (.byte 0x01)) := by decide
theorem test_id_short : resultOf (exec (.frameId .operand) (onRegion [0x01, 0x05])) =
    some (.err (.frame .headerTooShort)) := by decide
theorem test_length : resultOf (exec (.frameLength .operand) (onRegion r1)) = some (.ok (.byte 0x05)) := by decide
theorem test_payload : resultOf (exec (.framePayload .operand) (onRegion r1)) =
    some (.ok (.bytes [0x03, 0x2A, 0x00, 0x14])) := by decide
theorem test_payload_empty : resultOf (exec (.framePayload .operand) (onRegion [0x01, 0x01, 0xFD])) =
    some (.ok (.bytes [])) := by decide
theorem test_checksum_stored :
    resultOf (exec (.frameChecksum .operand) (onRegion [0x01, 0x05, 0x03, 0x2A, 0x00, 0x14, 0x00])) =
      some (.ok (.byte 0x00)) := by decide
theorem test_verify_wrapping_sum : resultOf (exec (.frameVerify .operand) (onRegion [0x80, 0x02, 0x7F, 0xFE])) =
    some (.ok .unit) := by decide
theorem test_verify_no_wrap_of_length : resultOf (exec (.frameVerify .operand) (onRegion [0xFF, 0xFF, 0x01])) =
    some (.err (.frame .lengthInconsistent)) := by decide
theorem test_set_id : regionOf (exec (.frameSetId .operand 0x02) (onRegion r1)) =
    [0x02, 0x05, 0x03, 0x2A, 0x00, 0x14, 0xB8] := by decide
theorem test_set_length : regionOf (exec (.frameSetLength .operand 5) (onRegion (List.replicate 7 0xEE))) =
    [0xEE, 0x05, 0xEE, 0xEE, 0xEE, 0xEE, 0xEE] := by decide
theorem test_set_length_too_long :
    resultOf (exec (.frameSetLength .operand 6) (onRegion (List.replicate 7 0xEE))) =
      some (.err (.frame .lengthInconsistent)) := by decide
theorem test_payload_mut :
    regionOf (exec (.framePayloadMut .operand 2 [0x00, 0x14]) (onRegion [0x01, 0x05, 0x03, 0x2A, 0x77, 0x88, 0x99])) =
      [0x01, 0x05, 0x03, 0x2A, 0x00, 0x14, 0x99] := by decide
theorem test_payload_mut_outside :
    refusalIn (exec (.framePayloadMut .operand 3 [0x00, 0x14]) (onRegion r1)) = some .outsidePayload := by decide
theorem test_update_checksum :
    regionOf (exec (.frameUpdateChecksum .operand) (onRegion [0x02, 0x05, 0x03, 0x2A, 0x00, 0x14, 0xB8])) =
      [0x02, 0x05, 0x03, 0x2A, 0x00, 0x14, 0xB7] := by decide
theorem test_update_checksum_image :
    imageOf (exec (.frameUpdateChecksum .image) (onImage [0xFF, 0xFF, 0x01, 0x05, 0x03, 0x2A, 0x00, 0x14, 0x00])) = f1 := by
  decide

/-! ### The builders (V-B) -/

theorem test_build_read : imageOf (exec (.buildReadReg 0x01 0x10 0x04) State.reset) =
    [0xFF, 0xFF, 0x01, 0x04, 0x02, 0x10, 0x04, 0xE4] := by decide
theorem test_build_read_unchecked : imageOf (exec (.buildReadReg 0xFF 0x00 0x00) State.reset) =
    [0xFF, 0xFF, 0xFF, 0x04, 0x02, 0x00, 0x00, 0xFA] := by decide
theorem test_build_write_written : (imageOf (exec (.buildWriteReg 0x01 0x2A 2) State.reset)).take 6 =
    [0xFF, 0xFF, 0x01, 0x05, 0x03, 0x2A] := by decide
theorem test_build_write_refused : refusalIn (exec (.buildWriteReg 0 0 253) State.reset) = some .dataTooLong := by decide
theorem test_encode : imageOf (exec (.frameEncode 0x01 [0x03, 0x2A, 0x00, 0x14]) State.reset) = f1 := by decide
theorem test_encode_empty : imageOf (exec (.frameEncode 0xFE []) State.reset) = [0xFF, 0xFF, 0xFE, 0x01, 0x00] := by
  decide

/-! ### The assembler (V-A) -/

theorem test_new : placeOf (exec (.asmNew 16) State.reset) = some (.seekMarker1, 0, []) := by decide
theorem test_new_refused : refusalIn (exec (.asmNew 2) State.reset) = some .capacityTooSmall := by decide
/-- V-A3, first poll: the second frame stays unread. -/
theorem test_read_back_to_back : placeOf (exec .asmRead (onLine 16 (f1 ++ f2))) = some (.completed, 7, f2) := by decide
/-- V-A14, first poll. -/
theorem test_read_oversized : resultOf (exec .asmRead (onLine 6 f1)) = some (.err (.assembly .insufficientCapacity)) := by
  decide
theorem test_frame : resultOf (exec .asmFrame (withAsm done)) = some (.ok (.bytes r1)) := by decide
theorem test_frame_refused : refusalIn (exec .asmFrame (withAsm body6)) = some .noFrame := by decide
theorem test_wire_marker_byte : placeOf (exec .wireMarkerByte (withAsm idle)) = some (.seekMarker2, 0, []) := by decide
theorem test_wire_frame_zero_length : placeOf (exec (.wireFrame 0x07 []) (withAsm idle)) = some (.completed, 2, []) := by
  decide
theorem test_wire_read_reg : resultOf (exec (.wireReadReg 0x02 0x38 0x02 0xBD) (withAsm idle)) =
    some (.ok (.flag true)) := by decide
theorem test_wire_write_reg : resultOf (exec (.wireWriteReg 0x01 0x2A [0x00, 0x14] 0xB8) (withAsm idle)) =
    some (.ok (.flag true)) := by decide

/-! ### The consumers (P5) -/

/-- The data of a Master that finished with `Ok`. -/
def dataOf (x : Exchange) : Option (List Byte) :=
  match x.master.phase with
  | .finished (.ok d) => some d
  | .finished (.err _) => none
  | .finished .stopped => none
  | .transmit _ => none
  | .discardEcho => none
  | .receive => none

def quietLink : Link := { sink := [], sent := [], loopsBack := false, timeouts := [] }
def response : List Byte := [0xFF, 0xFF, 0x01, 0x06, 0x00, 0x10, 0x11, 0x12, 0x13, 0xB2]

theorem test_read_register :
    dataOf (readRegister false 0x01 0x10 0x04 (onLine 16 response) quietLink) = some [0x10, 0x11, 0x12, 0x13] := by decide
theorem test_read_register_echo :
    dataOf (readRegister true 0x01 0x10 0x04
      (onLine 16 ([0xFF, 0xFF, 0x01, 0x04, 0x02, 0x10, 0x04, 0xE4] ++ response)) quietLink) =
      some [0x10, 0x11, 0x12, 0x13] := by decide

/-- A Slave with the 16-byte buffer of a small device. -/
def slave0 : Slave Unit := { phase := .idle, buffer := List.replicate 16 0xEE, length := 0, offset := 0, device := () }
/-- R146, P5: a Master that asks device 1 for 4 registers from 0x10 on, and the Slave. -/
def bus (echoBack : Bool) : Bus Unit where
  near := Exchange.startRead echoBack 0x01 0x10 0x04 (onLine 16 []) { quietLink with loopsBack := echoBack }
  slave := slave0
  far := onLine 16 []
  farLink := quietLink
/-- R146: register `N` holds `N`. -/
def device : Handler Unit := registerHandler 0x01 0x00 fun n => n

/-- P5: "register 0x10 contains 0x10 and so on". -/
theorem test_master_reads_the_slave :
    dataOf ((bus false).run device [.master, .slave, .slave, .slave, .master]).near = some [0x10, 0x11, 0x12, 0x13] := by
  decide
theorem test_slave_sends_the_response :
    ((bus true).run device [.master, .slave, .slave, .slave]).farLink.sent = response := by decide

/-! ### Witnesses: states and operands that meet the hypotheses of each obligation

The hypotheses that a region verifies, or raises an error, are `witness_verifies`. -/

def takes (bs : List Byte) (n : Nat) : Source :=
  { State.reset.src with waiting := bs, script := [{ arriving := [], reply := .bytes n }] }
def answers (reply : SrcReply) : List SrcChoice := [{ arriving := [], reply := reply }]

theorem witness_DecodeOfEncodeIsTheInstruction :
    (Instr.framePayloadMut .image 250 [1, 2, 3, 4]).wf = true ∧ Instr.wireMarkerByte.wf = true ∧
      ([0x00] : List Byte).head? ≠ some Config.marker := by decide
theorem witness_RequestBytesHaveOneReading : decode (f2 ++ [0x07]) = .instr (.wireReadReg 0x02 0x38 0x02 0xBD) [0x07] := by
  decide
theorem witness_UnlistedSelectorsAreRefused :
    (0x03 : Byte) ∉ ([0x00, 0x01, 0x02, 0x10, 0x11, 0x12, 0x13, 0x14, 0x18, 0x19, 0x1A, 0x1B, 0x20, 0x21, 0x22] : List Byte) ∧
      (0xFE : Byte) ≠ Config.marker ∧ ({ State.reset with requests := [[0x03, 0x00]] }).requests = [[0x03, 0x00]] := by decide
theorem witness_WireRowsAgreeWithTheDecoder :
    markerByteRow.accepts [0xFF] = true ∧ frameRow.accepts [0xFF, 0xFF, 0x07, 0x00] = true ∧ readRegRow.accepts f2 = true ∧
      writeRegRow.accepts f1 = true ∧ 3 ≤ ((0xFF :: 0xFF :: [0x01, 0x03, 0x03, 0x00, 0xF8] : List Byte).getD 3 0).toNat ∧
      decode [0xFF, 0xFF, 0x01, 0x03, 0x03, 0x00, 0xF8] = .instr (.wireWriteReg 0x01 0x00 [] 0xF8) [] := by decide
theorem witness_StepRunsTheNextRequest :
    ({ State.reset with requests := [[0x01]] }).requests = [[0x01]] ∧ decode [0x01] = .instr .asmRead [] ∧
      decode [0x10] = .rejected .truncated ∧ State.reset.requests = [] := by decide
theorem witness_ConstructionGivesAFreshAssembler :
    (2 < 3 ∧ 3 ≤ 3 ∧ 257 ≤ 257) ∧ 2 ≤ (0x02 : Byte).toNat ∧ (0xFF : Byte).toNat = 255 := by decide
theorem witness_PollIsTheFoldOfReceivedBytes : (withAsm header1).Inv ∧ (withAsm header1).src.endless = none :=
  ⟨witness_inv_header1, rfl⟩

/-- A line that does not end, with `bs` waiting, where a poll gets no more fuel than `bs` asks for. -/
def onEndless (bs : List Byte) : State :=
  { onLine 16 bs with src := { State.reset.src with waiting := bs, endless := some { line := 0, next := 0, patience := 0 } } }
theorem witness_inv_endless (bs : List Byte) : (onEndless bs).Inv := witness_inv_line 16 (by decide) bs

/-- Whatever two bytes the line gives, the first trip goes round again, and the fuel is one trip. -/
theorem witness_EndlessLinesAreNeverDry_stuck : execAsmRead (onEndless []) = .fault .pollDidNotEnd := by
  have h : poll 1 (Assembler.fresh 16) (onEndless []).src = .fault .pollDidNotEnd := by
    simp only [poll, turn, Assembler.fresh, seekStep, fetch, onEndless, Source.read, Source.topUp, State.reset]
    simp only [List.length_nil, Nat.sub_zero, List.nil_append, lineBytes, List.take_succ_cons, List.take_zero]
    split_ifs <;> rfl
  unfold execAsmRead
  rw [show poll (onEndless []).src.pollFuel (onEndless []).asm (onEndless []).src =
    poll 1 (Assembler.fresh 16) (onEndless []).src from rfl, h]

theorem witness_PollIsTheLoopOfTrips_again :
    turn idle (takes [0xFF, 0xFF] 2) = .again header0 { State.reset.src with handed := [0xFF, 0xFF] } := by decide
theorem witness_PollIsTheLoopOfTrips_dry : turn idle State.reset.src = .ended idle State.reset.src .dry := by decide
theorem witness_PollIsTheLoopOfTrips_done :
    turn body6 (takes [0xB8] 1) = .ended done { State.reset.src with handed := [0xB8] } .frameDone := by decide

theorem witness_EmptyAnswerEndsThePollUnchanged :
    (withAsm done).Inv ∧ ((withAsm done).src.read done.requestSize).1 = .wouldBlock ∧
      ((onScript body2 (answers (.bytes 0))).src.read body2.requestSize).1 = .bytes [] ∧ (onScript body2 (answers (.bytes 0))).Inv :=
  ⟨witness_inv_done, by decide, by decide, witness_inv_body2⟩
theorem witness_TransportErrorEndsThePollUnchanged :
    (onScript header1 (answers (.error ⟨7⟩))).Inv ∧
      ((onScript header1 (answers (.error ⟨7⟩))).src.read header1.requestSize).1 = .error ⟨7⟩ :=
  ⟨witness_inv_header1, by decide⟩
theorem witness_SeekStepsFollowTheMarkerBytes :
    (idle.seeking ∧ done.seeking ∧ second.state = .seekMarker2) ∧
      (Source.read 2 (takes [0xFF] 1)).1 = .bytes [0xFF] ∧ (Source.read 2 (takes [0x55, 0xFF] 2)).1 = .bytes [0x55, 0xFF] ∧
      (Source.read 1 (takes [0x00] 1)).1 = .bytes [0x00] ∧
      (Source.read 1 (onScript second (answers (.error ⟨0⟩))).src).1 = .error ⟨0⟩ := by decide
theorem witness_HeaderStepStoresAndChecksCapacity :
    (header0.Inv ∧ header1.Inv) ∧ (Source.read 2 (takes [0x01] 1)).1 = .bytes [0x01] ∧
      (Source.read 2 (takes [0x01, 0x0F] 2)).1 = .bytes [0x01, 0x0F] ∧ (Source.read 1 (takes [0x0E] 1)).1 = .bytes [0x0E] :=
  ⟨⟨witness_inv_header0, witness_inv_header1⟩, by decide⟩
theorem witness_HeaderStepStoresAndChecksCapacity_rejected :
    ∃ a src, turn header0 (takes [0x01, 0x0F] 2) = .ended a src .insufficientCapacity := ⟨_, _, rfl⟩
theorem witness_DataStepStoresAndCompletes :
    body2.Inv ∧ body2.state = .data ∧ Memory.read? body2.buf 1 = some 0x05 ∧
      (Source.read 5 (takes [0x03, 0x2A] 2)).1 = .bytes [0x03, 0x2A] ∧
      (Source.read 5 (takes [0x03, 0x2A, 0x00, 0x14, 0xB8] 5)).1 = .bytes [0x03, 0x2A, 0x00, 0x14, 0xB8] :=
  ⟨witness_inv_body2, by decide⟩
/-- A declared length of 0 completes without a request. -/
theorem witness_DataStepStoresAndCompletes_zero :
    ({ done0 with state := .data }).state = .data ∧ Memory.read? done0.buf 1 = some 0x00 ∧
      done0.cursor = (0x00 : Byte).toNat + 2 := by decide
/-- In every state, bytes that the request asks for, as many as it asks for or fewer. -/
theorem witness_RequestsAreTheExactRemainder :
    (idle.Inv ∧ done.Inv ∧ second.Inv ∧ header0.Inv ∧ header1.Inv ∧ body2.Inv ∧ body6.Inv) ∧
      [idle, done, second, header0, header1, body2, body6].map (·.requestSize) = [2, 2, 1, 2, 1, 5, 1] ∧
      (Source.read idle.requestSize (takes [0xFF, 0xFF, 0xFF] 9)).1 = .bytes [0xFF, 0xFF] ∧
      (Source.read second.requestSize (takes [0xFF, 0xFF] 9)).1 = .bytes [0xFF] ∧
      (Source.read header0.requestSize (takes [0x01, 0x02] 1)).1 = .bytes [0x01] ∧
      (Source.read body2.requestSize (takes r1 9)).1 = .bytes (r1.take 5) ∧
      (Source.read body2.requestSize (takes r1 0)).1 = .bytes [] :=
  ⟨⟨witness_inv_idle, witness_inv_done, witness_inv_second, witness_inv_header0, witness_inv_header1, witness_inv_body2,
    witness_inv_body6⟩, by decide⟩

/-- One byte for each row of R108, at the boundary: capacity 16, so 15 is rejected and 14 is not. -/
theorem witness_TransitionTable :
    ((0xFF : Byte) = 0xFF ∧ (0xFE : Byte) ≠ 0xFF) ∧ (header0.cursor = 0 ∧ header1.cursor = 1) ∧
      (0x0F : Byte).toNat + 2 > header1.cap ∧ (0x00 : Byte).toNat = 0 ∧
      (1 ≤ (0x0E : Byte).toNat ∧ (0x0E : Byte).toNat + 2 ≤ header1.cap) ∧
      body2.cursor + 1 < (0x05 : Byte).toNat + 2 ∧ body6.cursor + 1 = (0x05 : Byte).toNat + 2 := by decide
theorem witness_TransitionTable_answers :
    Source.read idle.requestSize State.reset.src = (.wouldBlock, State.reset.src) ∧
      Source.read body2.requestSize { State.reset.src with script := answers (.bytes 0) } = (.bytes [], State.reset.src) ∧
      Source.read header1.requestSize { State.reset.src with script := answers (.error ⟨1⟩) } = (.error ⟨1⟩, State.reset.src) := by
  decide
theorem witness_CompletedOnlyAfterTheLastByte : body6.Inv ∧ stepByte body6 0xB8 = .ok done (some .done) :=
  ⟨witness_inv_body6, by decide⟩
theorem witness_ReceivedBytesChangeOnlyTheirCells :
    (onLine 16 f1).Inv ∧ (∃ t, exec .asmRead (onLine 16 f1) = .next t) ∧ isWire .wireMarkerByte = true ∧
      ∃ t, exec .wireMarkerByte (withAsm header1) = .next t :=
  ⟨witness_inv_line 16 (by decide) f1, ⟨_, rfl⟩, rfl, ⟨_, rfl⟩⟩
/-- The same frame at once and in two pieces (V-A1, V-A2). -/
theorem witness_ResultsDoNotDependOnTheCutting :
    (onLine 16 f1).Inv ∧
      (∃ s' es, pollRun 0 1 (onLine 16 f1) = some (s', es) ∧ s'.src.handed = f1) ∧
      ∃ t' et, pollRun 0 2 (onScript idle [⟨f1.take 4, .bytes 2⟩, ⟨[], .bytes 2⟩, ⟨[], .wouldBlock⟩, ⟨f1.drop 4, .bytes 5⟩]) =
        some (t', et) ∧ t'.src.handed = f1 :=
  ⟨witness_inv_line 16 (by decide) f1, ⟨_, _, rfl, by decide⟩, ⟨_, _, rfl, by decide⟩⟩
theorem witness_FrameIsFoundAfterHarmlessGarbage :
    (onLine 7 ([0x01, 0xFF, 0x00] ++ (0xFF :: 0xFF :: r1) ++ f2)).Inv ∧ harmlessGarbage [0x01, 0xFF, 0x00] = true ∧
      properRegion r1 = true ∧ r1.length ≤ 7 ∧
      ∃ t es, pollRun 0 1 (onLine 7 ([0x01, 0xFF, 0x00] ++ (0xFF :: 0xFF :: r1) ++ f2)) = some (t, es) :=
  ⟨witness_inv_line 7 (by decide) _, by decide, by decide, by decide, ⟨_, _, rfl⟩⟩
theorem witness_PromptPollReturnsTheFrame :
    (onLine 16 ([] ++ (0xFF :: 0xFF :: r1) ++ f2)).Inv ∧ harmlessGarbage [] = true ∧ properRegion [0x01, 0x01, 0xFD] = true ∧
      (onLine 16 f1).src.script = [] :=
  ⟨witness_inv_line 16 (by decide) _, by decide, by decide, rfl⟩
theorem witness_StrayMarkerByteLosesTheFrame :
    idle.Inv ∧ idle.seeking ∧ harmlessGarbage [0x01] = true ∧ (0x0E : Byte).toNat + 2 ≤ idle.cap ∧
      (0x0F : Byte).toNat + 2 > idle.cap := ⟨witness_inv_idle, by decide⟩
/-- The least and the largest body that fits. -/
theorem witness_WireFrameCompletesFromSeeking :
    (withAsm idle).Inv ∧ idle.seeking ∧ (Instr.wireFrame 0x07 []).wf = true ∧
      encode (.wireFrame 0x07 []) = 0xFF :: 0xFF :: 0x07 :: 0x00 :: [] ∧ ([] : List Byte).length + 2 ≤ idle.cap ∧
      (Instr.wireReadReg 0x02 0x38 0x02 0xBD).wf = true ∧ encode (.wireReadReg 0x02 0x38 0x02 0xBD) = f2 ∧
      (Instr.wireWriteReg 0x01 0x2A [0x00, 0x14] 0xB8).wf = true ∧
      encode (.wireWriteReg 0x01 0x2A [0x00, 0x14] 0xB8) = f1 ∧ (withAsm idle).src.waiting = [] ∧
      (withAsm idle).src.script = [] :=
  ⟨witness_inv_idle, by decide⟩
theorem witness_OversizedFrameIsRejectedAndRescanned :
    (Assembler.fresh 6).Inv ∧ (Assembler.fresh 6).seeking ∧ ([0x03, 0x2A, 0x00, 0x14, 0xB8] : List Byte).length ≤ 255 ∧
      ([0x03, 0x2A, 0x00, 0x14, 0xB8] : List Byte).length + 2 > (Assembler.fresh 6).cap :=
  ⟨witness_inv_line 6 (by decide) [], by decide⟩
theorem witness_WireRowsArriveAndArePolled :
    isWire .wireMarkerByte = true ∧ (withAsm second).Inv ∧ (withAsm second).src.endless = none :=
  ⟨rfl, witness_inv_second, rfl⟩

theorem witness_ExposedFrameIsExactlyTheRegion :
    (withAsm done).Inv ∧ (withAsm done0).Inv ∧ done.state = .completed ∧ done0.state = .completed ∧
      body6.state ≠ .completed ∧ (withAsm body6).Inv :=
  ⟨witness_inv_done, witness_inv_done0, by decide, by decide, by decide, witness_inv_body6⟩
theorem witness_EmptyPollKeepsTheFrameExposed :
    (withAsm done).Inv ∧ done.state = .completed ∧
      (∃ t, exec .asmRead (withAsm done) = .next t ∧ t.src.handed = (withAsm done).src.handed) ∧
      ∃ t, exec .asmRead (onScript done [⟨f2, .bytes 2⟩, ⟨[], .bytes 2⟩, ⟨[], .bytes 4⟩]) = .next t ∧ t.src.handed = f2 ∧
        t.asm.state = .completed :=
  ⟨witness_inv_done, rfl, ⟨_, rfl, rfl⟩, ⟨_, rfl, by decide, by decide⟩⟩

/-- Each way the guard fails, at its boundary, and the least region on which it passes. -/
theorem witness_guard :
    guardFails [0x07, 0x00] .headerTooShort ∧ guardFails [0x01, 0x00, 0xFE] .lengthInconsistent ∧
      guardFails [0x01, 0x02, 0x00] .lengthInconsistent ∧ guardPasses [0x01, 0x01, 0xFD] 0x01 ∧ guardPasses r1 0x05 := by
  decide
theorem witness_GuardErrorsLeaveEverythingElse :
    (onRegion [0x07, 0x00]).view .operand = .bytes [0x07, 0x00] ∧ (withAsm done0).view .frame = .bytes [0x07, 0x00] ∧
      (onImage [0xFF, 0xFF, 0x01, 0x02, 0x00]).view .image = .bytes [0x01, 0x02, 0x00] ∧ RegionRef.image ≠ .frame := by decide
/-- FRAME.ID, FRAME.LENGTH, FRAME.PAYLOAD, FRAME.CHECKSUM and FRAME.VERIFY: a region of each kind, and its bytes. -/
theorem witness_reads :
    (onRegion r1).view .operand = .bytes r1 ∧ (onImage f1).view .image = .bytes r1 ∧ (withAsm done).view .frame = .bytes r1 ∧
      guardPasses r1 0x05 ∧ r1[0]? = some 0x01 ∧ r1[(0x05 : Byte).toNat + 1]? = some 0xB8 ∧
      (onRegion [0x07, 0x00]).view .operand = .bytes [0x07, 0x00] ∧ guardFails [0x07, 0x00] .headerTooShort := by decide
theorem witness_SetIdStoresTheFirstByte :
    guardPasses (onRegion r1).region 0x05 ∧ guardPasses ((onImage f1).image.drop 2) 0x05 ∧
      guardFails (onRegion [0x01]).region .headerTooShort ∧ guardFails ((onImage [0xFF, 0xFF]).image.drop 2) .headerTooShort ∧
      (onRegion r1).region[0]? ≠ some 0x02 := by decide
theorem witness_verifies :
    exec (.frameVerify .operand) (onRegion r1) = .next { onRegion r1 with result := some (.ok .unit) } ∧
      exec (.frameVerify .image) (onImage f1) = .next { onImage f1 with result := some (.ok .unit) } ∧
      exec (.frameVerify .frame) (withAsm done) = .next { withAsm done with result := some (.ok .unit) } ∧
      exec (.frameVerify .frame) (withAsm done0) =
        .next { withAsm done0 with result := some (.err (.frame .headerTooShort)) } := ⟨rfl, rfl, rfl, rfl⟩
theorem witness_SetLengthTestsTheNewLength :
    (3 ≤ (onRegion r1).region.length ∧ (0x05 : Byte).toNat + 2 ≤ (onRegion r1).region.length) ∧
      (0x06 : Byte).toNat + 2 > (onRegion r1).region.length ∧ (0x00 : Byte).toNat = 0 ∧ 1 ≤ (0x01 : Byte).toNat ∧
      (onRegion [0x01, 0x05]).region.length < 3 ∧
      (3 ≤ ((onImage f1).image.drop 2).length ∧ (0x05 : Byte).toNat + 2 ≤ ((onImage f1).image.drop 2).length) ∧
      ((onImage [0xFF, 0xFF, 0x01]).image.drop 2).length < 3 := by decide
theorem witness_PayloadMutWritesInsideTheSlice :
    guardPasses (onRegion r1).region 0x05 ∧ guardPasses ((onImage f1).image.drop 2) 0x05 ∧
      2 + ([0x00, 0x14] : List Byte).length ≤ (0x05 : Byte).toNat - 1 ∧
      (0x05 : Byte).toNat - 1 < 3 + ([0x00, 0x14] : List Byte).length ∧
      guardFails (onRegion [0x01, 0x05, 0x03]).region .lengthInconsistent := by decide
theorem witness_UpdateChecksumStoresTheChecksum :
    guardPasses (onRegion r1).region 0x05 ∧ guardPasses ((onImage f1).image.drop 2) 0x05 ∧
      (0xB8 : Byte).toNat = 255 - ((r1.take ((0x05 : Byte).toNat + 1)).map BitVec.toNat).sum % 256 ∧
      (onRegion (r1 ++ [0x99])).region.take ((0x05 : Byte).toNat + 2) = r1.take ((0x05 : Byte).toNat + 2) ∧
      guardFails (onRegion []).region .headerTooShort := by decide
theorem witness_ChecksumIsTheComplementedSum :
    (2 ≤ r1.length ∧ r1[1]? = some 0x05 ∧ (0x05 : Byte).toNat + 2 ≤ r1.length ∧ r1[(0x05 : Byte).toNat + 1]? = some 0xB8) ∧
      (2 ≤ ([0x07, 0x00] : List Byte).length ∧ ([0x07, 0x00] : List Byte)[1]? = some 0x00) := by decide
theorem witness_EncodedFramesReadBack :
    ([] : List Byte).length ≤ 254 ∧ (List.replicate 254 (0x00 : Byte)).length ≤ 254 := by decide +kernel
theorem witness_OneFlippedBitIsDetected :
    guardPasses (onRegion r1).region 0x05 ∧
      exec (.frameVerify .operand) (onRegion r1) = .next { onRegion r1 with result := some (.ok .unit) } ∧
      6 ≤ (0x05 : Byte).toNat + 1 ∧ (onRegion r1).region[6]? = some 0xB8 ∧ (onRegion r1).region[0]? = some 0x01 :=
  ⟨by decide, rfl, by decide, by decide, by decide⟩
theorem witness_UpdateRestoresVerification :
    RegionRef.operand ≠ .frame ∧ (onRegion r1).view .operand = .bytes r1 ∧ guardPasses r1 0x05 ∧
      0 + ([1, 2, 3, 4] : List Byte).length ≤ (0x05 : Byte).toNat - 1 := by decide
theorem witness_SumPreservingChangesGoUnseen :
    guardPasses (onRegion r1).region 0x05 ∧ (onRegion r1).region[2]? = some 0x03 ∧ (onRegion r1).region[5]? = some 0x14 ∧
      5 ≤ (0x05 : Byte).toNat := by decide
theorem witness_BytesPastTheFrameAreIgnored :
    guardPasses (onRegion r1).region 0x05 ∧ 4 + ([] : List Byte).length ≤ (0x05 : Byte).toNat - 1 := by decide

theorem witness_ReadRegImageIsTheCommandFrame :
    (0xE4 : Byte).toNat =
      255 - ((0x01 : Byte).toNat + 4 + 2 + (0x10 : Byte).toNat + (0x04 : Byte).toNat) % 256 := by decide
theorem witness_WriteRegImageLeavesDataAndChecksumFree : 252 < 253 ∧ 252 ≤ 252 := by decide
theorem witness_FinishedWriteImageIsTheEncodedFrame : ([0x00, 0x14] : List Byte).length ≤ 252 := by decide
theorem witness_EncodeImageIsTheFrameFormat :
    254 < (List.replicate 255 (0x00 : Byte)).length ∧ (List.replicate 254 (0x00 : Byte)).length ≤ 254 := by decide +kernel
theorem witness_EncodeImageIsTheFrameFormat_write :
    ∃ t1 t2 t3 t4, exec (.buildWriteReg 0x01 0x2A ([0x00, 0x14] : List Byte).length) State.reset = .next t1 ∧
      exec (.framePayloadMut .image 2 [0x00, 0x14]) t1 = .next t2 ∧ exec (.frameUpdateChecksum .image) t2 = .next t3 ∧
      exec (.frameEncode 0x01 [0x03, 0x2A, 0x00, 0x14]) State.reset = .next t4 := ⟨_, _, _, _, rfl, rfl, rfl, rfl⟩
theorem witness_ExpansionBuildsTheSameImage :
    (0x05 : Byte).toNat = ([0x03, 0x2A, 0x00, 0x14] : List Byte).length + 1 ∧
      (List.replicate 7 (0xEE : Byte)).length = ([0x03, 0x2A, 0x00, 0x14] : List Byte).length + 3 ∧
      (onImage (0xFF :: 0xFF :: List.replicate 7 0xEE)).image = 0xFF :: 0xFF :: List.replicate 7 0xEE ∧
      (0x05 : Byte).toNat = 3 + 2 ∧ (List.replicate 7 (0xEE : Byte)).length = 2 + 5 := by decide

theorem witness_StepKeepsTheInvariant :
    ({ onLine 16 f1 with requests := [[0x01]] }).Inv ∧ ∃ t, step { onLine 16 f1 with requests := [[0x01]] } = .next t :=
  ⟨witness_inv_line 16 (by decide) f1, ⟨_, rfl⟩⟩
/-- The one fault that is left. -/
theorem witness_OnlyFuelRunsOutUnderTheInvariant :
    ({ onEndless [] with requests := [[0x01]] }).Inv ∧
      step { onEndless [] with requests := [[0x01]] } = .fault .pollDidNotEnd ∧
      exec .asmRead (onEndless []) = .fault .pollDidNotEnd :=
  ⟨witness_inv_endless [], witness_EndlessLinesAreNeverDry_stuck, witness_EndlessLinesAreNeverDry_stuck⟩
theorem witness_OnlyConstructionSetsTheCapacity :
    (∃ t, exec .asmRead (onLine 16 f1) = .next t) ∧
      ∃ t, step { State.reset with requests := [[0x00, 0x00, 0x00, 0x00, 0x00]] } = .next t ∧ t.asm.cap = 3 :=
  ⟨⟨_, rfl⟩, ⟨_, rfl, by decide⟩⟩
theorem witness_OnlyReceptionWritesTheAssembler :
    (∃ t, exec (.frameSetId .operand 0x02) (onRegion r1) = .next t) ∧ writesAssembler (.frameSetId .operand 0x02) = false ∧
      isWire (.asmNew 3) = false := ⟨⟨_, rfl⟩, rfl, rfl⟩
theorem witness_BytesAreHandedOverOnceInOrder :
    (∃ t, exec .asmRead (onLine 16 f1) = .next t) ∧ ∃ t, exec .wireMarkerByte (onLine 16 [0x01]) = .next t :=
  ⟨⟨_, rfl⟩, ⟨_, rfl⟩⟩

theorem witness_MasterValidatesInOrder :
    (withAsm done).asm.exposed = .bytes r1 ∧
      (withAsm done0).asm.exposed = .bytes [0x07, 0x00] ∧ r1[0]? = some 0x01 ∧ r1[0]? ≠ some 0x02 ∧
      exec (.framePayload .frame) (withAsm done) =
        .next { withAsm done with result := some (.ok (.bytes [0x03, 0x2A, 0x00, 0x14])) } ∧
      ([0x03, 0x2A, 0x00, 0x14] : List Byte).length ≠ 4 + 1 ∧ ([0x03, 0x2A, 0x00, 0x14] : List Byte).length = 3 + 1 :=
  ⟨by decide, by decide, by decide, by decide, rfl, by decide, by decide⟩
/-- A handler that decides by the frame's id: it answers device 1, with more bytes than its buffer for command 3 (R139). -/
def byId : Handler Nat := fun seen r buffer =>
  if r.getD 0 0 = 0x01 then (seen + 1, [0xAA, 0xBB], some (if r.getD 2 0 = 0x03 then 5 else 2)) else (seen, buffer, none)
def slave4 : Slave Nat := { phase := .processCommand, buffer := [1, 2, 3, 4], length := 0, offset := 0, device := 0 }
theorem witness_SlaveDropsFramesThatFail :
    slave4.phase = .processCommand ∧ (withAsm done).asm.exposed = .bytes r1 ∧
      (withAsm done0).asm.exposed = .bytes [0x07, 0x00] ∧
      byId slave4.device r1 slave4.buffer = (1, [0xAA, 0xBB], some 5) ∧
      byId slave4.device (0x02 :: r1.drop 1) slave4.buffer = (0, [1, 2, 3, 4], none) ∧
      slave4.process byId (withAsm done) quietLink = .overrun ∧ 2 ≤ slave4.buffer.length := by decide
theorem witness_ReadRegisterReturnsTheData :
    (onLine 8 (response ++ [0x55])).Inv ∧ (onLine 8 (response ++ [0x55])).asm.seeking ∧
      (onLine 8 (response ++ [0x55])).src.waiting = frameImage 0x01 (0x00 :: [0x10, 0x11, 0x12, 0x13]) ++ [0x55] ∧
      ([0x10, 0x11, 0x12, 0x13] : List Byte).length = (0x04 : Byte).toNat ∧ (0x04 : Byte).toNat ≤ 253 ∧
      ([0x10, 0x11, 0x12, 0x13] : List Byte).length + 4 ≤ 8 ∧ quietLink.sink = [] ∧ quietLink.loopsBack = false :=
  ⟨witness_inv_line 8 (by decide) _, by decide, by decide, by decide, by decide, by decide, rfl, rfl⟩

/-- A frame behind which the line does not end (answered), and a line that outlasts the fuel. -/
theorem witness_EndlessLinesAreNeverDry :
    (onEndless f1).Inv ∧ (onEndless f1).src.script = [] ∧ (onEndless f1).src.endless = some ⟨0, 0, 0⟩ ∧
      (∃ t, exec .asmRead (onEndless f1) = .next t) ∧ (onEndless []).Inv ∧
      exec .asmRead (onEndless []) = .fault .pollDidNotEnd :=
  ⟨witness_inv_endless f1, rfl, rfl, ⟨_, rfl⟩, witness_inv_endless [], witness_EndlessLinesAreNeverDry_stuck⟩
/-- A partial write, and then an error: the Slave stands behind what was accepted. -/
theorem witness_NoResponseByteIsLostOrSentTwice :
    ({ slave4 with phase := .sendResponse, length := 3 } : Slave Nat).phase = .sendResponse ∧
      ({ slave4 with phase := .sendResponse, length := 3 } : Slave Nat).process byId (withAsm idle)
          { quietLink with sink := [.written 2, .error ⟨9⟩] } =
        .err (.transportWrite ⟨9⟩) { slave4 with phase := .sendResponse, length := 3, offset := 2 } (withAsm idle)
          { quietLink with sent := [1, 2] } := by decide
theorem witness_MasterReadsTheSlavesRegisters :
    (bus true).near.master =
        { phase := .transmit (readRegImage 0x01 0x10 0x04), echoBack := true, id := 0x01, outLen := some (0x04 : Byte).toNat } ∧
      ((bus true).near.block.quiet ((0x04 : Byte).toNat + 4) ∧ (bus true).far.quiet 6) ∧ 6 ≤ (bus true).near.block.asm.cap ∧
      (bus true).near.link.sink = [] ∧ (bus true).near.link.loopsBack = true ∧ (bus true).farLink.sink = [] ∧
      (bus true).farLink.loopsBack = false ∧ (bus true).slave.phase = .idle ∧ (0x04 : Byte).toNat ≤ 253 ∧
      (0x04 : Byte).toNat + 6 ≤ (bus true).slave.buffer.length ∧
      (bus true).near.link.timeouts = [] ∧
      dataOf ((bus true).run device [.master, .slave, .slave, .slave, .master, .master]).near =
        some [0x10, 0x11, 0x12, 0x13] :=
  ⟨rfl, ⟨⟨witness_inv_line 16 (by decide) [], .inl rfl, rfl, rfl, rfl, by decide⟩,
    ⟨witness_inv_line 16 (by decide) [], .inl rfl, rfl, rfl, rfl, by decide⟩⟩, by decide, rfl, rfl, rfl, rfl, rfl, by decide,
    by decide, rfl, by decide⟩

end Sys2Proof.Tests
end

section
/-! PROOFS. O16 (R34): every trip round the poll's loop makes the one request that its state fixes, and uses that answer. -/

namespace Sys2Proof.Machine

/-! ### The size of a request -/

theorem requestSize_seeking {a : Assembler} (h : a.seeking) : a.requestSize = 2 := by
  rcases h with h | h <;> simp [Assembler.requestSize, h]

theorem requestSize_seekMarker2 {a : Assembler} (h : a.state = .seekMarker2) : a.requestSize = 1 := by
  simp [Assembler.requestSize, h]

theorem requestSize_header {a : Assembler} (h : a.state = .header) : a.requestSize = 2 - a.cursor := by
  simp [Assembler.requestSize, h]

theorem requestSize_data {a : Assembler} {len : Byte} (h : a.state = .data) (hl : Memory.read? a.buf 1 = some len) :
    a.requestSize = len.toNat + 2 - a.cursor := by
  simp [Assembler.requestSize, Assembler.need?, h, hl]

/-- R20 in `Header`: at most one header byte is in, and the buffer has room for both. -/
theorem Assembler.Inv.header_room {a : Assembler} (h : a.Inv) (hst : a.state = .header) :
    a.cursor ≤ 1 ∧ 3 ≤ a.cap ∧ Memory.writtenBelow a.buf a.cursor := by
  obtain ⟨⟨hcap, -⟩, hg⟩ := h
  simp only [Assembler.stage, hst] at hg
  exact ⟨hg.1, hcap, hg.2⟩

/-- R20 in `Data`: the length byte is in, and the frame it declares is not complete and fits. -/
theorem Assembler.Inv.data_room {a : Assembler} (h : a.Inv) (hst : a.state = .data) :
    ∃ len, Memory.read? a.buf 1 = some len ∧ 2 ≤ a.cursor ∧ a.cursor < len.toNat + 2 ∧ len.toNat + 2 ≤ a.cap := by
  obtain ⟨-, hg⟩ := h
  simp only [Assembler.stage, hst, Assembler.need?] at hg
  cases hl : Memory.read? a.buf 1 with
  | none => simp [hl] at hg
  | some len =>
    simp only [hl, Option.map_some] at hg
    obtain ⟨h2, hlt, hcap, -⟩ := hg
    exact ⟨len, rfl, h2, hlt, hcap⟩

theorem requestSize_pos {a : Assembler} (h : a.Inv) : 1 ≤ a.requestSize := by
  cases hst : a.state with
  | seekMarker1 => simp [requestSize_seeking (.inl hst)]
  | seekMarker2 => simp [requestSize_seekMarker2 hst]
  | header =>
    have := (h.header_room hst).1
    rw [requestSize_header hst]
    omega
  | data =>
    obtain ⟨len, hl, -, hlt, -⟩ := h.data_room hst
    rw [requestSize_data hst hl]
    omega
  | completed => simp [requestSize_seeking (.inr hst)]

/-! ### One request, and the use of its answer -/

/-- The trip does not fault, and these are the assembler and the source behind it. -/
def Turn.Leaves (t : Turn) (a : Assembler) (src : Source) : Prop :=
  t = .again a src ∨ ∃ how, t = .ended a src how

/-- R92 to R96: `a'` is `a` after it has used the received bytes `d`: stored at the cursor, or inspected for the marker. -/
def Assembler.Uses (a : Assembler) (d : List Byte) (a' : Assembler) : Prop :=
  (a.state = .header ∨ a.state = .data →
    a'.buf = Memory.writeBytes a.buf a.cursor d ∧ a'.cursor = a.cursor + d.length) ∧
  (a.seeking ∨ a.state = .seekMarker2 →
    a'.buf = a.buf ∧ (a'.state = .seekMarker2 ↔ d.getLast? = some 0xFF ∧ (a.seeking ∧ d ≠ [0xFF, 0xFF])))

/-- R34: the trip `t` from `a` leaves the source that one request of `a.requestSize` bytes leaves, and uses that answer. -/
def MakesRequest (a : Assembler) (src : Source) (t : Turn) : Prop :=
  ∃ a' : Assembler, t.Leaves a' (src.read a.requestSize).2 ∧
    (∀ d, (src.read a.requestSize).1 = .bytes d → d ≠ [] → d.length ≤ a.requestSize ∧ a.Uses d a') ∧
    ((∀ d, (src.read a.requestSize).1 = .bytes d → d = []) → a' = a)

/-- A trip that fetches `a.requestSize` bytes makes that request, if its continuation uses every answer of that size. -/
theorem fetch_makesRequest {n : Nat} {a : Assembler} {src : Source} {k : Byte → List Byte → Source → Turn}
    (hn : a.requestSize = n)
    (hk : ∀ b d src', (b :: d).length ≤ n → ∃ a', (k b d src').Leaves a' src' ∧ a.Uses (b :: d) a') :
    MakesRequest a src (fetch n a src k) := by
  subst hn
  obtain ⟨-, hlen, -⟩ := Source.read_spec a.requestSize src
  unfold MakesRequest fetch
  rcases hr : src.read a.requestSize with ⟨answer, src'⟩
  rw [hr] at hlen
  match answer, hlen with
  | .error e, _ => exact ⟨a, .inr ⟨_, rfl⟩, nofun, fun _ => rfl⟩
  | .wouldBlock, _ => exact ⟨a, .inr ⟨_, rfl⟩, nofun, fun _ => rfl⟩
  | .bytes [], _ => exact ⟨a, .inr ⟨_, rfl⟩, fun d hd hne => absurd (Answer.bytes.inj hd).symm hne, fun _ => rfl⟩
  | .bytes (b :: d), hlen =>
    obtain ⟨a', hleaves, huses⟩ := hk b d src' hlen
    refine ⟨a', hleaves, ?_, fun hnone => absurd (hnone _ rfl) (List.cons_ne_nil b d)⟩
    rintro _ ⟨rfl⟩ -
    exact ⟨hlen, huses⟩

/-! ### Looking for the marker (R92, R93) -/

/-- The assembler behind a trip from a seeking state: nothing is stored, and the bytes decide the state. -/
theorem uses_of_seeking {a a' : Assembler} {d : List Byte} (h : a.seeking) (hbuf : a'.buf = a.buf)
    (hstate : a'.state = .seekMarker2 ↔ d.getLast? = some 0xFF ∧ d ≠ [0xFF, 0xFF]) : a.Uses d a' :=
  ⟨fun hs => by rcases h with h | h <;> simp [h] at hs, fun _ => ⟨hbuf, by simp [hstate, h]⟩⟩

theorem seekStep_makesRequest {a : Assembler} (h : a.seeking) (src : Source) : MakesRequest a src (seekStep a src) := by
  refine fetch_makesRequest (requestSize_seeking h) fun b d src' hlen => ?_
  match d, hlen with
  | [], _ =>
    dsimp only
    split
    · next hb => exact ⟨_, .inl rfl, uses_of_seeking h rfl (by simpa [Config.marker] using hb)⟩
    · next hb => exact ⟨_, .inl rfl, uses_of_seeking h rfl (by simpa [Config.marker] using hb)⟩
  | [c], _ =>
    dsimp only
    split
    · next hbc => exact ⟨_, .inl rfl, uses_of_seeking h rfl (by simp_all [Config.marker, Assembler.enterHeader])⟩
    · split
      · next hbc hc => exact ⟨_, .inl rfl, uses_of_seeking h rfl (by simp_all [Config.marker])⟩
      · next hbc hc => exact ⟨_, .inl rfl, uses_of_seeking h rfl (by simp_all [Config.marker])⟩
  | _ :: _ :: _, hlen => simp at hlen

/-- From `SeekMarker2` no byte leads back to it (R93). -/
theorem uses_of_seekMarker2 {a a' : Assembler} {d : List Byte} (h : a.state = .seekMarker2) (hbuf : a'.buf = a.buf)
    (hstate : a'.state ≠ .seekMarker2) : a.Uses d a' :=
  ⟨fun hs => by simp [h] at hs, fun _ => ⟨hbuf, by simp [hstate, h]⟩⟩

theorem seek2Step_makesRequest {a : Assembler} (h : a.state = .seekMarker2) (src : Source) :
    MakesRequest a src (seek2Step a src) := by
  refine fetch_makesRequest (requestSize_seekMarker2 h) fun b d src' _ => ?_
  split
  · exact ⟨_, .inl rfl, uses_of_seekMarker2 h rfl (by simp)⟩
  · exact ⟨_, .inl rfl, uses_of_seekMarker2 h rfl (by simp)⟩

/-! ### Storing (R94, R96) -/

/-- A store that fits answers. -/
theorem Assembler.store_of_fits {a : Assembler} {d : List Byte} (h : a.cursor + d.length ≤ a.cap) :
    a.store d = some { a with buf := Memory.writeBytes a.buf a.cursor d, cursor := a.cursor + d.length } :=
  Assembler.store_eq_some.mpr ⟨h, rfl⟩

/-- The assembler behind a store, whatever state the trip then moves to. -/
theorem uses_of_store {a : Assembler} (h : a.state = .header ∨ a.state = .data) (d : List Byte) (st : Tag) :
    a.Uses d { a with state := st, buf := Memory.writeBytes a.buf a.cursor d, cursor := a.cursor + d.length } :=
  ⟨fun _ => ⟨rfl, rfl⟩, fun hs => by rcases h with h | h <;> simp [Assembler.seeking, h] at hs⟩

/-- R95 and R97 change the state only. -/
theorem headerDone_leaves {a : Assembler} (src : Source) (h : (Memory.read? a.buf 1).isSome) :
    ∃ st, (headerDone a src).Leaves { a with state := st } src := by
  obtain ⟨len, hl⟩ := Option.isSome_iff_exists.mp h
  simp only [headerDone, Assembler.need?, hl, Option.map_some]
  split
  · exact ⟨_, .inr ⟨_, rfl⟩⟩
  · exact ⟨_, .inl rfl⟩

theorem headerStep_makesRequest {a : Assembler} (h : a.Inv) (hst : a.state = .header) (src : Source) :
    MakesRequest a src (headerStep a src) := by
  obtain ⟨hcur, hcap, hw⟩ := h.header_room hst
  rw [headerStep, if_neg (by omega)]
  refine fetch_makesRequest (requestSize_header hst) fun b d src' hlen => ?_
  rw [Assembler.store_of_fits (by omega)]
  dsimp only
  split
  · next hfull =>
    have hlast : (Memory.read? (Memory.writeBytes a.buf a.cursor (b :: d)) 1).isSome :=
      Memory.writtenBelow_writeBytes hw (b :: d) 1 (by omega)
    obtain ⟨st, hleaves⟩ := headerDone_leaves (a := { a with buf := _, cursor := _ }) src' hlast
    exact ⟨_, hleaves, uses_of_store (.inl hst) _ st⟩
  · exact ⟨_, .inl rfl, uses_of_store (.inl hst) _ a.state⟩

theorem dataStep_makesRequest {a : Assembler} (h : a.Inv) (hst : a.state = .data) (src : Source) :
    MakesRequest a src (dataStep a src) := by
  obtain ⟨len, hl, -, hlt, hcap⟩ := h.data_room hst
  simp only [dataStep, Assembler.need?, hl, Option.map_some]
  rw [if_neg (by omega), if_neg (by omega)]
  refine fetch_makesRequest (requestSize_data hst hl) fun b d src' hlen => ?_
  rw [Assembler.store_of_fits (by omega)]
  dsimp only
  split
  · exact ⟨_, .inr ⟨_, rfl⟩, uses_of_store (.inr hst) _ .completed⟩
  · exact ⟨_, .inl rfl, uses_of_store (.inr hst) _ a.state⟩

/-! ### Every trip -/

theorem turn_makesRequest {a : Assembler} (h : a.Inv) (src : Source) : MakesRequest a src (turn a src) := by
  cases hst : a.state <;> simp only [turn, hst]
  case seekMarker1 => exact seekStep_makesRequest (.inl hst) src
  case seekMarker2 => exact seek2Step_makesRequest hst src
  case header => exact headerStep_makesRequest h hst src
  case data => exact dataStep_makesRequest h hst src
  case completed => exact seekStep_makesRequest (.inr hst) src

/-- Settles O16: the sizes are R34's in every state that meets R20, and each trip makes that one request. -/
theorem requestsAreTheExactRemainder : Obligations.RequestsAreTheExactRemainder := by
  intro a h
  refine ⟨requestSize_pos h, requestSize_seeking, requestSize_seekMarker2, fun hst => ?_, fun hst => ?_,
    turn_makesRequest h⟩
  · have := (h.header_room hst).1
    rw [requestSize_header hst]
    omega
  · obtain ⟨len, hl, h2, hlt, -⟩ := h.data_room hst
    have := len.isLt
    rw [requestSize_data hst hl]
    exact ⟨len, hl, by omega, by omega⟩

end Sys2Proof.Machine
end

section
/-! PROOFS. O30 to O39: the checksum (R70) and the nine codec operations (R72 to R80), on every region they apply to. -/

namespace Sys2Proof.Machine

/-! ### The regions -/

@[simp] theorem State.view_operand (s : State) : s.view .operand = .bytes s.region := rfl
@[simp] theorem State.view_image (s : State) : s.view .image = .bytes (s.image.drop 2) := rfl

/-- No operation reads its region from the result. -/
@[simp] theorem State.view_result (s : State) (ref : RegionRef) (res : Option Result) :
    State.view { s with result := res } ref = s.view ref := by
  cases ref <;> rfl

theorem State.withRegion_of_view {s : State} {ref : RegionRef} {r : List Byte} (hv : s.view ref = .bytes r)
    (k : List Byte → StepOutcome) : s.withRegion ref k = k r := by
  simp only [State.withRegion, hv]

theorem State.withMutable_of_view {s : State} {ref : RegionRef} {r : List Byte} (hv : s.view ref = .bytes r)
    (hm : ref ≠ .frame) (k : List Byte → StepOutcome) : s.withMutable ref k = k r := by
  cases ref with
  | operand => cases hv; rfl
  | image => cases hv; rfl
  | frame => exact absurd rfl hm

/-- A mutator's region reads back as it was put. The image's needs the two marker bytes before it. -/
theorem State.view_putRegion {s : State} {ref : RegionRef} {r : List Byte} (hv : s.view ref = .bytes r)
    (hm : ref ≠ .frame) (hr : 0 < r.length) (r' : List Byte) : (s.putRegion ref r').view ref = .bytes r' := by
  cases ref with
  | operand => rfl
  | image =>
    cases hv
    have h2 : (s.image.take 2).length = 2 := by simp [State.imageRegion] at hr ⊢; omega
    simp [List.drop_left' h2]
  | frame => exact absurd rfl hm

/-- A byte of the image's region stored is that byte of the image, two indices up (R64). -/
theorem State.putRegion_image_set {s : State} (h : 2 ≤ s.image.length) (i : Nat) (v : Byte) :
    s.putRegion .image ((s.image.drop 2).set i v) = { s with image := s.image.set (i + 2) v } :=
  congrArg (fun w => { s with image := w }) (image_set h i v)

/-- The same of a replaced range of bytes. -/
theorem image_overwrite {w : List Byte} (h : 2 ≤ w.length) (i : Nat) (v : List Byte) :
    w.take 2 ++ overwrite (w.drop 2) i v = overwrite w (i + 2) v := by
  match w, h with
  | a :: b :: w, _ => simp [overwrite, show i + 2 + v.length = i + v.length + 2 by omega]

theorem drop_two_set (w : List Byte) (i : Nat) (v : Byte) : (w.set (i + 2) v).drop 2 = (w.drop 2).set i v := by
  simp [List.drop_set]

/-! ### The guard -/

@[simp] theorem State.guarded_none (s : State) (k : StepOutcome) : s.guarded none k = k := rfl
@[simp] theorem State.guarded_some (s : State) (e : FrameError) (k : StepOutcome) :
    s.guarded (some e) k = .next { s with result := some (.err (.frame e)) } := rfl

theorem State.guarded_of_passes {r : List Byte} {len : Byte} (hg : guardPasses r len) (s : State) (k : StepOutcome) :
    s.guarded (guardError r) k = k := by
  rw [(guardError_of_passes hg).1, State.guarded_none]

theorem State.guarded_of_fails {r : List Byte} {e : FrameError} (hg : guardFails r e) (s : State) (k : StepOutcome) :
    s.guarded (guardError r) k = .next { s with result := some (.err (.frame e)) } := by
  rw [guardError_of_fails hg, State.guarded_some]

/-- R71 covers every region: the guard passes with the stored length, or raises one of its errors. -/
theorem guardPasses_or_guardFails (r : List Byte) : (∃ len, guardPasses r len) ∨ ∃ e, guardFails r e := by
  by_cases h3 : r.length < 3
  · exact .inr ⟨_, .inl ⟨h3, rfl⟩⟩
  · have h1 : r[1]? = some (r.getD 1 0) := by simp [List.getElem?_eq_getElem (show 1 < r.length by omega)]
    by_cases hl : 1 ≤ (r.getD 1 0).toNat ∧ (r.getD 1 0).toNat + 2 ≤ r.length
    · exact .inl ⟨_, by omega, h1, hl⟩
    · exact .inr ⟨_, .inr ⟨by omega, rfl, by omega⟩⟩

/-- An image long enough for the guard has both bytes before its region. -/
theorem two_le_image {w : List Byte} (h : 3 ≤ (w.drop 2).length) : 2 ≤ w.length := by
  simp at h
  omega

section
variable {r : List Byte} {len : Byte} (hg : guardPasses r len)
include hg

theorem guardPasses.three_le : 3 ≤ r.length := hg.1

theorem guardPasses.lengthByte : r[1]? = some len := hg.2.1

theorem guardPasses.one_le : 1 ≤ len.toNat := hg.2.2.1

/-- The frame's last byte lies inside the region. -/
theorem guardPasses.checksum_lt : len.toNat + 1 < r.length := hg.2.2.2

/-- The checksum stands behind the length byte. -/
theorem guardPasses.checksum_ne_one : len.toNat + 1 ≠ 1 := by
  have := hg.one_le
  omega

end

/-- R78: a region too short for a header is refused whatever the new length. -/
theorem lengthGuardError_short {r : List Byte} (h : r.length < 3) (v : Byte) :
    lengthGuardError r v = some .headerTooShort := if_pos h

theorem lengthGuardError_inconsistent {r : List Byte} {v : Byte} (h3 : 3 ≤ r.length)
    (h : v.toNat = 0 ∨ v.toNat + 2 > r.length) : lengthGuardError r v = some .lengthInconsistent := by
  rw [lengthGuardError, if_neg (by omega), if_pos h]

/-! ### The checksum (R70) -/

theorem byteSum_take_succ {r : List Byte} {n : Nat} {c : Byte} (h : r[n]? = some c) :
    byteSum (r.take (n + 1)) = byteSum (r.take n) + c.toNat := by
  simp [List.take_add_one, h, byteSum]

theorem not8_eq_not (v : Byte) : not8 v = ~~~v := by
  apply BitVec.eq_of_toNat_eq
  simp [not8]
  omega

/-- Accumulating in 8 bits is the sum modulo 256. -/
theorem foldl_add_eq_ofNat_byteSum (bs : List Byte) (acc : Byte) :
    bs.foldl (· + ·) acc = acc + BitVec.ofNat 8 (byteSum bs) := by
  induction bs generalizing acc with
  | nil => simp [byteSum]
  | cons b bs ih =>
    rw [List.foldl_cons, ih, BitVec.add_assoc]
    simp [byteSum, BitVec.ofNat_add]

theorem cks_eq_not_foldl {r : List Byte} {len : Byte} (h : r[1]? = some len) :
    cks r = ~~~((r.take (len.toNat + 1)).foldl (· + ·) 0) := by
  rw [cks, not8_eq_not, declaredLength_eq h, foldl_add_eq_ofNat_byteSum]
  congr 1
  apply BitVec.eq_of_toNat_eq
  simp

theorem eq_cks_iff {r : List Byte} {len : Byte} (h : r[1]? = some len) (c : Byte) :
    c = cks r ↔ c.toNat = 255 - byteSum (r.take (len.toNat + 1)) % 256 := by
  rw [← declaredLength_eq h, ← cks_toNat]
  exact ⟨congrArg _, BitVec.eq_of_toNat_eq⟩

/-- Settles O39: the 8-bit form is the sum modulo 256, and the stored byte tops the sum up to 255. -/
theorem checksumIsTheComplementedSum : Obligations.ChecksumIsTheComplementedSum := by
  intro r len c _ hlen _
  refine ⟨(eq_cks_iff hlen _).mp rfl, cks_eq_not_foldl hlen, fun hc => ?_⟩
  have hsum := byteSum_take_succ hc
  have hc8 := c.isLt
  rw [eq_cks_iff hlen]
  change _ ↔ byteSum (r.take (len.toNat + 1 + 1)) % 256 = 255
  omega

/-! ### Verification (R76) -/

theorem verifyError_of_fails {r : List Byte} {e : FrameError} (hg : guardFails r e) : verifyError r = some e := by
  rw [verifyError, guardError_of_fails hg]

/-- A region that verifies passes the guard. -/
theorem guardPasses_of_verifies {r : List Byte} (h : verifyError r = none) : ∃ len, guardPasses r len := by
  rcases guardPasses_or_guardFails r with hg | ⟨e, hg⟩
  · exact hg
  · simp [verifyError_of_fails hg] at h

/-- R76 looks at the frame's `L + 2` bytes only. -/
theorem verifyError_of_take_eq {r r' : List Byte} {len : Byte} (hg : guardPasses r len)
    (h : r'.take (len.toNat + 2) = r.take (len.toNat + 2)) : verifyError r' = verifyError r := by
  obtain ⟨h3, h1, hpos, hfit⟩ := hg
  have hget : ∀ k < len.toNat + 2, r'[k]? = r[k]? := fun k hk => by
    rw [← List.getElem?_take_of_lt hk, h, List.getElem?_take_of_lt hk]
  have hlen : len.toNat + 2 ≤ r'.length := by
    have := congrArg List.length h
    simp at this
    omega
  have hg' : guardPasses r' len := ⟨by omega, by rw [hget 1 (by omega), h1], hpos, hlen⟩
  have hsum : r'.take (len.toNat + 1) = r.take (len.toNat + 1) := by
    simpa [List.take_take] using congrArg (List.take (len.toNat + 1)) h
  have hc : r[len.toNat + 1]? = some r[len.toNat + 1] := List.getElem?_eq_getElem (by omega)
  rw [verifyError_of_passes hg' ((hget _ (by omega)).trans hc), verifyError_of_passes ⟨h3, h1, hpos, hfit⟩ hc, hsum]

/-- R80: with its checksum stored, a region verifies. -/
theorem verifyError_set_cks {r : List Byte} {len : Byte} (hg : guardPasses r len) :
    verifyError (r.set (len.toNat + 1) (cks r)) = none := by
  rw [verifyError_of_passes (guardPasses_set hg hg.checksum_ne_one _) (List.getElem?_set_self hg.checksum_lt),
    List.take_set_of_le (le_refl _), if_pos ((eq_cks_iff hg.lengthByte _).mp rfl)]

/-- A verifying region does not verify once a summed byte other than the length byte is changed: no other value of that byte
gives the same sum modulo 256. -/
theorem verifyError_set_of_ne {r : List Byte} {len v : Byte} {j : Nat} (hg : guardPasses r len)
    (hok : verifyError r = none) (hj1 : j ≠ 1) (hj : j ≤ len.toNat) (hne : r[j]? ≠ some v) :
    verifyError (r.set j v) = some .checksumMismatch := by
  have hlt := hg.checksum_lt
  have hc : r[len.toNat + 1]? = some r[len.toNat + 1] := List.getElem?_eq_getElem hlt
  have hx : r[j]? = some r[j] := List.getElem?_eq_getElem (by omega)
  have hsum : byteSum ((r.take (len.toNat + 1)).set j v) + r[j].toNat = byteSum (r.take (len.toNat + 1)) + v.toNat :=
    byteSum_set _ j v _ (by rw [List.getElem?_take_of_lt (by omega), hx])
  have hv : r[j].toNat ≠ v.toNat := fun h => hne (hx.trans (congrArg some (BitVec.eq_of_toNat_eq h)))
  rw [verifyError_of_passes hg hc] at hok
  rw [verifyError_of_passes (guardPasses_set hg hj1 v) (by rw [List.getElem?_set_ne (by omega), hc]), List.take_set,
    if_neg]
  have := (r[j]).isLt
  have := v.isLt
  split at hok
  · omega
  · cases hok

/-! ### The operations -/

section
variable {s : State} {ref : RegionRef} {r : List Byte} (hv : s.view ref = .bytes r)
include hv

theorem exec_frameId : exec (.frameId ref) s = s.guarded (guardError r) (s.deliver (.byte (r.getD 0 0))) := by
  rw [exec, execFrameId, State.withRegion_of_view hv]

theorem exec_frameLength : exec (.frameLength ref) s = s.guarded (guardError r) (s.deliver (.byte (r.getD 1 0))) := by
  rw [exec, execFrameLength, State.withRegion_of_view hv]

theorem exec_framePayload : exec (.framePayload ref) s = s.guarded (guardError r) (s.deliver (.bytes (payloadOf r))) := by
  rw [exec, execFramePayload, State.withRegion_of_view hv]

theorem exec_frameChecksum :
    exec (.frameChecksum ref) s = s.guarded (guardError r) (s.deliver (.byte (storedChecksum r))) := by
  rw [exec, execFrameChecksum, State.withRegion_of_view hv]

theorem exec_frameVerify : exec (.frameVerify ref) s = s.guarded (verifyError r) (s.deliver .unit) := by
  rw [exec, execFrameVerify, State.withRegion_of_view hv]

/-- `FRAME.VERIFY` succeeds where it finds no error. -/
theorem exec_frameVerify_ok_iff :
    exec (.frameVerify ref) s = .next { s with result := some (.ok .unit) } ↔ verifyError r = none := by
  rw [exec_frameVerify hv]
  cases verifyError r with
  | none => simp
  | some e => simp

theorem exec_frameVerify_err {e : FrameError} (h : verifyError r = some e) :
    exec (.frameVerify ref) s = .next { s with result := some (.err (.frame e)) } := by
  rw [exec_frameVerify hv, h, State.guarded_some]

variable (hm : ref ≠ .frame)
include hm

theorem exec_frameSetId (v : Byte) :
    exec (.frameSetId ref v) s = s.guarded (guardError r) ((s.putRegion ref (r.set 0 v)).deliver .unit) := by
  rw [exec, execFrameSetId, State.withMutable_of_view hv hm]

theorem exec_frameSetLength (v : Byte) :
    exec (.frameSetLength ref v) s = s.guarded (lengthGuardError r v) ((s.putRegion ref (r.set 1 v)).deliver .unit) := by
  rw [exec, execFrameSetLength, State.withMutable_of_view hv hm]

theorem exec_framePayloadMut (off : Nat) (v : List Byte) :
    exec (.framePayloadMut ref off v) s =
      s.guarded (guardError r)
        (if off + v.length ≤ declaredLength r - 1 then (s.putRegion ref (overwrite r (2 + off) v)).deliver .unit
        else .refused .outsidePayload) := by
  rw [exec, execFramePayloadMut, State.withMutable_of_view hv hm]

theorem exec_frameUpdateChecksum :
    exec (.frameUpdateChecksum ref) s =
      s.guarded (guardError r) ((s.putRegion ref (r.set (declaredLength r + 1) (cks r))).deliver .unit) := by
  rw [exec, execFrameUpdateChecksum, State.withMutable_of_view hv hm]

end

/-! ### The reads (R72 to R76) -/

/-- Settles O30: the guard decides, and byte 0 is the result. -/
theorem frameIdReturnsTheFirstByte : Obligations.FrameIdReturnsTheFirstByte := by
  intro s ref r hv
  refine ⟨fun len id hg hid => ?_, fun e hg => ?_, Laws.EncodingFirstByte.frameId ref⟩
  · rw [exec_frameId hv, State.guarded_of_passes hg]
    simp [hid]
  · rw [exec_frameId hv, State.guarded_of_fails hg]

/-- Settles O31: the guard passes a length byte that is not 0 only. -/
theorem frameLengthReturnsTheDeclaredLength : Obligations.FrameLengthReturnsTheDeclaredLength := by
  intro s ref r hv
  refine ⟨fun len hg => ⟨?_, ?_⟩, fun e hg => ?_, Laws.EncodingFirstByte.frameLength ref⟩
  · rw [exec_frameLength hv, State.guarded_of_passes hg]
    simp [hg.lengthByte]
  · rintro rfl
    exact absurd hg.one_le (by decide)
  · rw [exec_frameLength hv, State.guarded_of_fails hg]

theorem payloadOf_length {r : List Byte} {len : Byte} (hg : guardPasses r len) :
    (payloadOf r).length + 1 = len.toNat := by
  obtain ⟨-, h1, hpos, hfit⟩ := hg
  simp [payloadOf, declaredLength_eq h1]
  omega

theorem getElem?_payloadOf {r : List Byte} {k : Nat} (hk : k < (payloadOf r).length) : (payloadOf r)[k]? = r[k + 2]? := by
  have : k < declaredLength r - 1 := by simp [payloadOf] at hk; omega
  rw [payloadOf, List.getElem?_take_of_lt this, List.getElem?_drop, Nat.add_comm]

/-- Settles O32: the slice lies inside the region, since the guard passed. -/
theorem framePayloadReturnsTheSlice : Obligations.FramePayloadReturnsTheSlice := by
  intro s ref r hv
  refine ⟨fun len hg => ⟨payloadOf r, payloadOf_length hg, fun k => getElem?_payloadOf, ?_⟩, fun e hg => ?_,
    Laws.EncodingFirstByte.framePayload ref⟩
  · rw [exec_framePayload hv, State.guarded_of_passes hg, State.deliver]
  · rw [exec_framePayload hv, State.guarded_of_fails hg]

theorem storedChecksum_eq {r : List Byte} {len c : Byte} (h1 : r[1]? = some len) (hc : r[len.toNat + 1]? = some c) :
    storedChecksum r = c := by
  simp [storedChecksum, declaredLength_eq h1, hc]

/-- Settles O33: the byte behind the payload is the result, correct or not. -/
theorem frameChecksumReturnsTheStoredByte : Obligations.FrameChecksumReturnsTheStoredByte := by
  intro s ref r hv
  refine ⟨fun len c hg hc => ?_, fun e hg => ?_, Laws.EncodingFirstByte.frameChecksum ref⟩
  · rw [exec_frameChecksum hv, State.guarded_of_passes hg, storedChecksum_eq hg.lengthByte hc, State.deliver]
  · rw [exec_frameChecksum hv, State.guarded_of_fails hg]

/-- Settles O34: past the guard, the stored checksum is compared with the sum's complement. -/
theorem frameVerifyComparesTheChecksums : Obligations.FrameVerifyComparesTheChecksums := by
  intro s ref r hv
  refine ⟨fun len c hg hc => ?_, fun e hg => exec_frameVerify_err hv (verifyError_of_fails hg),
    Laws.EncodingFirstByte.frameVerify ref⟩
  have herr := verifyError_of_passes hg hc
  rw [byteSum] at herr
  split
  · next h => exact (exec_frameVerify_ok_iff hv).mpr (herr.trans (if_pos h))
  · next h => exact exec_frameVerify_err hv (herr.trans (if_neg h))

/-! ### The mutators (R77 to R80) -/

/-- R77: a region that verified does not verify after a change of its id. -/
theorem exec_frameVerify_of_setId {s t : State} {ref : RegionRef} {r : List Byte} {v : Byte}
    (hv : s.view ref = .bytes r) (hm : ref ≠ .frame) (ht : exec (.frameSetId ref v) s = .next t)
    (hne : r[0]? ≠ some v)
    (hok : exec (.frameVerify ref) s = .next { s with result := some (.ok .unit) }) :
    exec (.frameVerify ref) t = .next { t with result := some (.err (.frame .checksumMismatch)) } := by
  have hver := (exec_frameVerify_ok_iff hv).mp hok
  obtain ⟨len, hg⟩ := guardPasses_of_verifies hver
  rw [exec_frameSetId hv hm, State.guarded_of_passes hg, State.deliver_eq_next] at ht
  subst ht
  have hr : 0 < r.length := by have := hg.checksum_lt; omega
  have hv' := (State.view_result _ ref (some (.ok .unit))).trans (State.view_putRegion hv hm hr (r.set 0 v))
  exact exec_frameVerify_err hv' (verifyError_set_of_ne hg hver (by decide) (Nat.zero_le _) hne)

/-- Settles O35: one byte is stored, and the sum it belongs to changes with it. -/
theorem setIdStoresTheFirstByte : Obligations.SetIdStoresTheFirstByte := by
  intro s v len e
  refine ⟨fun hg => ?_, fun hg => ?_, fun hg => ?_, fun hg => ?_,
    fun _ => exec_frameVerify_of_setId s.view_operand nofun, fun _ => exec_frameVerify_of_setId s.view_image nofun,
    fun ref => Laws.EncodingFirstByte.frameSetId ref v⟩
  · rw [exec_frameSetId s.view_operand nofun, State.guarded_of_passes hg]
    rfl
  · rw [exec_frameSetId s.view_image nofun, State.guarded_of_passes hg,
      State.putRegion_image_set (two_le_image hg.three_le), State.deliver]
  · rw [exec_frameSetId s.view_operand nofun, State.guarded_of_fails hg]
  · rw [exec_frameSetId s.view_image nofun, State.guarded_of_fails hg]

/-- Settles O36: the three outcomes of the new length's guard, on both regions. -/
theorem setLengthTestsTheNewLength : Obligations.SetLengthTestsTheNewLength := by
  intro s v
  refine ⟨fun h3 hpos hfit => ?_, fun h3 hpos hfit => ?_, fun h => ?_, fun h3 h => ?_, fun h => ?_, fun h3 h => ?_,
    fun ref => Laws.EncodingFirstByte.frameSetLength ref v⟩
  · obtain ⟨hnone, hpass⟩ := lengthGuardError_none h3 hpos hfit
    rw [exec_frameSetLength s.view_operand nofun, hnone]
    exact ⟨rfl, hpass⟩
  · obtain ⟨hnone, hpass⟩ := lengthGuardError_none h3 hpos hfit
    rw [exec_frameSetLength s.view_image nofun, hnone, State.putRegion_image_set (two_le_image h3), drop_two_set]
    exact ⟨rfl, hpass⟩
  · rw [exec_frameSetLength s.view_operand nofun, lengthGuardError_short h, State.guarded_some]
  · rw [exec_frameSetLength s.view_operand nofun, lengthGuardError_inconsistent h3 h, State.guarded_some]
  · rw [exec_frameSetLength s.view_image nofun, lengthGuardError_short h, State.guarded_some]
  · rw [exec_frameSetLength s.view_image nofun, lengthGuardError_inconsistent h3 h, State.guarded_some]

section
variable {s : State} {ref : RegionRef} {r v : List Byte} {len : Byte} {off : Nat} (hv : s.view ref = .bytes r)
  (hm : ref ≠ .frame) (hg : guardPasses r len)
include hv hm hg

/-- R79 inside the payload slice. -/
theorem exec_framePayloadMut_inside (h : off + v.length ≤ len.toNat - 1) :
    exec (.framePayloadMut ref off v) s = (s.putRegion ref (overwrite r (2 + off) v)).deliver .unit := by
  rw [exec_framePayloadMut hv hm, State.guarded_of_passes hg, declaredLength_eq hg.lengthByte, if_pos h]

/-- R79 outside it. -/
theorem exec_framePayloadMut_outside (h : len.toNat - 1 < off + v.length) :
    exec (.framePayloadMut ref off v) s = .refused .outsidePayload := by
  rw [exec_framePayloadMut hv hm, State.guarded_of_passes hg, declaredLength_eq hg.lengthByte, if_neg (by omega)]

end

/-- Settles O37: the replaced range lies inside the region, so it is `overwrite`'s, at the image two indices up. -/
theorem payloadMutWritesInsideTheSlice : Obligations.PayloadMutWritesInsideTheSlice := by
  intro s off v len e
  refine ⟨fun hg h => ?_, fun hg h => ?_, fun hg => exec_framePayloadMut_outside s.view_operand nofun hg,
    fun hg => exec_framePayloadMut_outside s.view_image nofun hg, fun hg => ?_, fun hg => ?_,
    fun ref => Laws.EncodingFirstByte.framePayloadMut ref off v⟩
  · have hfit : 2 + off + v.length ≤ s.region.length := by have := hg.checksum_lt; omega
    exact ⟨_, exec_framePayloadMut_inside s.view_operand nofun hg h, overwrite_length hfit, getElem?_overwrite hfit⟩
  · have hfit : 4 + off + v.length ≤ s.image.length := by have := hg.checksum_lt; simp at this; omega
    refine ⟨overwrite s.image (4 + off) v, ?_, overwrite_length hfit, getElem?_overwrite hfit⟩
    rw [exec_framePayloadMut_inside s.view_image nofun hg h, show 4 + off = 2 + off + 2 by omega,
      ← image_overwrite (two_le_image hg.three_le)]
    rfl
  · rw [exec_framePayloadMut s.view_operand nofun, State.guarded_of_fails hg]
  · rw [exec_framePayloadMut s.view_image nofun, State.guarded_of_fails hg]

/-- R80, last sentence: a region that starts with the `L + 2` bytes of the updated one verifies. -/
theorem exec_frameVerify_of_take_eq {u : State} {ref : RegionRef} {r r' : List Byte} {len : Byte}
    (hv : u.view ref = .bytes r') (hg : guardPasses r len)
    (h : r'.take (len.toNat + 2) = (r.set (len.toNat + 1) (cks r)).take (len.toNat + 2)) :
    exec (.frameVerify ref) u = .next { u with result := some (.ok .unit) } := by
  have heq := verifyError_of_take_eq (guardPasses_set hg hg.checksum_ne_one (cks r)) h
  exact (exec_frameVerify_ok_iff hv).mpr (heq.trans (verifyError_set_cks hg))

/-- R80: the byte at `L + 1`, and its value. -/
theorem exec_frameUpdateChecksum_of_passes {s : State} {ref : RegionRef} {r : List Byte} {len : Byte}
    (hv : s.view ref = .bytes r) (hm : ref ≠ .frame) (hg : guardPasses r len) :
    exec (.frameUpdateChecksum ref) s = (s.putRegion ref (r.set (len.toNat + 1) (cks r))).deliver .unit := by
  rw [exec_frameUpdateChecksum hv hm, State.guarded_of_passes hg, declaredLength_eq hg.lengthByte]

/-- Settles O38: the byte that the statement names is `cks`, and verification looks at `L + 2` bytes only. -/
theorem updateChecksumStoresTheChecksum : Obligations.UpdateChecksumStoresTheChecksum := by
  intro s len c e
  refine ⟨fun hg hc => ?_, fun hg hc => ?_, fun hg => ?_, fun hg => ?_, Laws.EncodingFirstByte.frameUpdateChecksum⟩
  · obtain rfl := (eq_cks_iff hg.lengthByte c).mpr hc
    exact ⟨_, rfl, exec_frameUpdateChecksum_of_passes s.view_operand nofun hg,
      fun u => exec_frameVerify_of_take_eq u.view_operand hg⟩
  · obtain rfl := (eq_cks_iff hg.lengthByte c).mpr hc
    refine ⟨_, rfl, ?_, fun u hu => exec_frameVerify_of_take_eq u.view_image hg (hu.trans (by rw [← drop_two_set]))⟩
    rw [exec_frameUpdateChecksum_of_passes s.view_image nofun hg, State.putRegion_image_set (two_le_image hg.three_le),
      State.deliver]
  · rw [exec_frameUpdateChecksum s.view_operand nofun, State.guarded_of_fails hg]
  · rw [exec_frameUpdateChecksum s.view_image nofun, State.guarded_of_fails hg]

end Sys2Proof.Machine
end

section
/-! PROOFS. O11 to O15 (R92 to R100): what a trip round the poll's loop makes of each answer of the byte source, and what
a poll whose first trip ends it answers. -/

namespace Sys2Proof.Machine

/-! ### Each answer to a request -/

/-- R100. -/
theorem fetch_of_error {n : Nat} {a : Assembler} {src src' : Source} {e : TransportError}
    (h : src.read n = (.error e, src')) (k : Byte → List Byte → Source → Turn) :
    fetch n a src k = .ended a src' (.transport e) := by
  simp only [fetch, h]

/-- R99. -/
theorem fetch_of_dry {n : Nat} {src : Source} (h : (src.read n).1 = .wouldBlock ∨ (src.read n).1 = .bytes [])
    (a : Assembler) (k : Byte → List Byte → Source → Turn) : fetch n a src k = .ended a (src.read n).2 .dry := by
  unfold fetch
  rcases hr : src.read n with ⟨answer, src'⟩
  simp only [hr] at h
  rcases h with rfl | rfl <;> rfl

theorem fetch_of_bytes {n : Nat} {src src' : Source} {b : Byte} {d : List Byte}
    (h : src.read n = (.bytes (b :: d), src')) (a : Assembler) (k : Byte → List Byte → Source → Turn) :
    fetch n a src k = k b d src' := by
  simp only [fetch, h]

/-- R36: no more bytes come than were asked for. -/
theorem Source.length_le_of_read {n : Nat} {src src' : Source} {d : List Byte} (h : src.read n = (.bytes d, src')) :
    d.length ≤ n := by
  obtain ⟨-, hlen, -⟩ := Source.read_spec n src
  rwa [h] at hlen

/-! ### A trip by its state (R91) -/

theorem turn_of_seeking {a : Assembler} (h : a.seeking) (src : Source) : turn a src = seekStep a src := by
  rcases h with h | h <;> simp only [turn, h]

theorem turn_of_seekMarker2 {a : Assembler} (h : a.state = .seekMarker2) (src : Source) :
    turn a src = seek2Step a src := by
  simp only [turn, h]

theorem turn_of_header {a : Assembler} (h : a.state = .header) (src : Source) : turn a src = headerStep a src := by
  simp only [turn, h]

theorem turn_of_data {a : Assembler} (h : a.state = .data) (src : Source) : turn a src = dataStep a src := by
  simp only [turn, h]

/-! ### The two steps that store (R94, R96) -/

/-- What `HeaderStep` and `DataStep` do with received bytes: store them, and at `full` bytes go on with `done`. -/
def Assembler.storeThen (a : Assembler) (full : Nat) (done : Assembler → Source → Turn) (b : Byte) (d : List Byte)
    (src : Source) : Turn :=
  match a.store (b :: d) with
  | none => .fault .storeOutsideBuffer
  | some a' => if a'.cursor = full then done a' src else .again a' src

theorem Assembler.storeThen_of_fits {a : Assembler} {b : Byte} {d : List Byte}
    (h : a.cursor + (b :: d).length ≤ a.cap) (full : Nat) (done : Assembler → Source → Turn) (src : Source) :
    a.storeThen full done b d src =
      if a.cursor + (b :: d).length = full then
        done { a with buf := Memory.writeBytes a.buf a.cursor (b :: d), cursor := a.cursor + (b :: d).length } src
      else
        .again { a with buf := Memory.writeBytes a.buf a.cursor (b :: d), cursor := a.cursor + (b :: d).length } src := by
  rw [Assembler.storeThen, Assembler.store_of_fits h]

theorem headerStep_eq_fetch {a : Assembler} (h : a.cursor ≤ 1) (src : Source) :
    headerStep a src = fetch (2 - a.cursor) a src (a.storeThen 2 headerDone) := by
  rw [headerStep, if_neg (by omega)]
  rfl

theorem dataStep_eq_fetch {a : Assembler} {len : Byte} (hl : Memory.read? a.buf 1 = some len)
    (h : a.cursor < len.toNat + 2) (src : Source) :
    dataStep a src = fetch (len.toNat + 2 - a.cursor) a src (a.storeThen (len.toNat + 2) complete) := by
  simp only [dataStep, Assembler.need?, hl, Option.map_some]
  rw [if_neg (by omega), if_neg (by omega)]
  rfl

/-- R96, the declared length 0: no request is made. -/
theorem dataStep_of_complete {a : Assembler} {len : Byte} (hl : Memory.read? a.buf 1 = some len)
    (h : a.cursor = len.toNat + 2) (src : Source) : dataStep a src = complete a src := by
  simp only [dataStep, Assembler.need?, hl, Option.map_some]
  rw [if_pos h]

/-- R97, and R95 otherwise. -/
theorem headerDone_of_length {a : Assembler} {len : Byte} (hl : Memory.read? a.buf 1 = some len) (src : Source) :
    headerDone a src =
      if len.toNat + 2 > a.cap then .ended { a with state := .seekMarker1 } src .insufficientCapacity
      else .again { a with state := .data } src := by
  simp only [headerDone, Assembler.need?, hl, Option.map_some]

/-! ### The answers that end every trip alike (R99, R100) -/

/-- R91: in a state that meets R20, a trip is one `Fetch`. -/
theorem turn_eq_fetch {a : Assembler} (h : a.Inv) (src : Source) : ∃ k, turn a src = fetch a.requestSize a src k := by
  cases hst : a.state with
  | seekMarker1 => exact ⟨_, by rw [turn_of_seeking (.inl hst), requestSize_seeking (.inl hst)]; rfl⟩
  | seekMarker2 => exact ⟨_, by rw [turn_of_seekMarker2 hst, requestSize_seekMarker2 hst]; rfl⟩
  | header =>
    obtain ⟨hcur, -, -⟩ := h.header_room hst
    exact ⟨_, by rw [turn_of_header hst, requestSize_header hst, headerStep_eq_fetch hcur]⟩
  | data =>
    obtain ⟨len, hl, -, hlt, -⟩ := h.data_room hst
    exact ⟨_, by rw [turn_of_data hst, requestSize_data hst hl, dataStep_eq_fetch hl hlt]⟩
  | completed => exact ⟨_, by rw [turn_of_seeking (.inr hst), requestSize_seeking (.inr hst)]; rfl⟩

theorem turn_of_dry {a : Assembler} {src : Source} (h : a.Inv)
    (hr : (src.read a.requestSize).1 = .wouldBlock ∨ (src.read a.requestSize).1 = .bytes []) :
    turn a src = .ended a (src.read a.requestSize).2 .dry := by
  obtain ⟨k, hk⟩ := turn_eq_fetch h src
  rw [hk, fetch_of_dry hr]

theorem turn_of_error {a : Assembler} {src src' : Source} {e : TransportError} (h : a.Inv)
    (hr : src.read a.requestSize = (.error e, src')) : turn a src = .ended a src' (.transport e) := by
  obtain ⟨k, hk⟩ := turn_eq_fetch h src
  rw [hk, fetch_of_error hr]

/-- R91: a first trip that ends the poll decides its result. -/
theorem exec_asmRead_of_ended {s : State} {a : Assembler} {src : Source} {how : PollEnd}
    (h : turn s.asm s.src = .ended a src how) :
    exec .asmRead s = State.endPoll { s with asm := a, src := src } how := by
  obtain ⟨n, hn⟩ : ∃ n, s.src.pollFuel = n + 1 := Nat.exists_eq_succ_of_ne_zero (by unfold Source.pollFuel; omega)
  simp only [exec, execAsmRead, hn, poll, h]

/-- Settles O11: the trip is one `Fetch`, which such an answer ends before any byte is used. -/
theorem emptyAnswerEndsThePollUnchanged : Obligations.EmptyAnswerEndsThePollUnchanged := by
  intro s h hr
  have hturn := turn_of_dry h hr
  exact ⟨hturn, exec_asmRead_of_ended hturn⟩

/-- Settles O12: the same for an error, which the result carries. -/
theorem transportErrorEndsThePollUnchanged : Obligations.TransportErrorEndsThePollUnchanged := by
  intro s e h hr
  have hturn := turn_of_error h (Prod.ext hr rfl)
  exact ⟨hturn, exec_asmRead_of_ended hturn⟩

/-! ### Looking for the marker (R92, R93) -/

/-- R92: only the one byte is there. -/
theorem seekStep_of_one {a : Assembler} {src src' : Source} {b : Byte} (h : src.read 2 = (.bytes [b], src')) :
    seekStep a src = .again { a with state := if b = Config.marker then .seekMarker2 else .seekMarker1 } src' := by
  rw [seekStep, fetch_of_bytes h]
  by_cases hb : b = Config.marker
  · simp only [if_pos hb]
  · simp only [if_neg hb]

/-- R92: the marker pair, or only the second byte may start one. -/
theorem seekStep_of_two {a : Assembler} {src src' : Source} {b c : Byte} (h : src.read 2 = (.bytes [b, c], src')) :
    seekStep a src =
      .again
        (if b = Config.marker ∧ c = Config.marker then a.enterHeader
        else { a with state := if c = Config.marker then .seekMarker2 else .seekMarker1 }) src' := by
  rw [seekStep, fetch_of_bytes h]
  by_cases hpair : b = Config.marker ∧ c = Config.marker
  · simp only [if_pos hpair]
  · by_cases hc : c = Config.marker
    · simp only [if_neg hpair, if_pos hc]
    · simp only [if_neg hpair, if_neg hc]

/-- R93. -/
theorem seek2Step_of_one {a : Assembler} {src src' : Source} {b : Byte} (h : src.read 1 = (.bytes [b], src')) :
    seek2Step a src = .again (if b = Config.marker then a.enterHeader else { a with state := .seekMarker1 }) src' := by
  rw [seek2Step, fetch_of_bytes h]
  by_cases hb : b = Config.marker
  · simp only [if_pos hb]
  · simp only [if_neg hb]

/-- Settles O13: both seek steps, by the bytes that their request gets. -/
theorem seekStepsFollowTheMarkerBytes : Obligations.SeekStepsFollowTheMarkerBytes := by
  intro a src src' e
  refine ⟨fun hst => ?_, fun hst => ?_⟩
  · rw [turn_of_seeking hst]
    exact ⟨fun b => seekStep_of_one, fun b c => seekStep_of_two, fun hr => fetch_of_error hr _⟩
  · rw [turn_of_seekMarker2 hst]
    exact ⟨fun b => seek2Step_of_one, fun hr => fetch_of_error hr _⟩

/-! ### The header (R94, R95, R97) -/

section
variable {a : Assembler} {src src' : Source} {d : List Byte} (h : a.Inv) (hst : a.state = .header) (hne : d ≠ [])
  (hr : src.read (2 - a.cursor) = (.bytes d, src'))
include h hst hne hr

/-- R94: the missing header bytes fit, and are stored at the cursor. -/
theorem turn_header_stores :
    a.cursor + d.length ≤ 2 ∧
      turn a src =
        if a.cursor + d.length = 2 then
          headerDone { a with buf := Memory.writeBytes a.buf a.cursor d, cursor := a.cursor + d.length } src'
        else .again { a with buf := Memory.writeBytes a.buf a.cursor d, cursor := a.cursor + d.length } src' := by
  obtain ⟨hcur, hcap, -⟩ := h.header_room hst
  have hlen := Source.length_le_of_read hr
  obtain ⟨b, d, rfl⟩ := List.exists_cons_of_ne_nil hne
  refine ⟨by omega, ?_⟩
  rw [turn_of_header hst, headerStep_eq_fetch hcur, fetch_of_bytes hr, Assembler.storeThen_of_fits (by omega)]

/-- R95, R97: a whole header. -/
theorem turn_header_whole (hfull : a.cursor + d.length = 2) :
    ∃ len, Memory.read? (Memory.writeBytes a.buf a.cursor d) 1 = some len ∧
      turn a src =
        if len.toNat + 2 > a.cap then
          .ended { a with state := .seekMarker1, buf := Memory.writeBytes a.buf a.cursor d, cursor := 2 } src'
            .insufficientCapacity
        else .again { a with state := .data, buf := Memory.writeBytes a.buf a.cursor d, cursor := 2 } src' := by
  obtain ⟨-, -, hw⟩ := h.header_room hst
  obtain ⟨-, hturn⟩ := turn_header_stores h hst hne hr
  obtain ⟨len, hl⟩ := Option.isSome_iff_exists.mp (Memory.writtenBelow_writeBytes hw d 1 (by omega))
  exact ⟨len, hl, by rw [hturn, if_pos hfull, headerDone_of_length hl, hfull]⟩

end

/-- Settles O14: by how many header bytes are in after the answer. -/
theorem headerStepStoresAndChecksCapacity : Obligations.HeaderStepStoresAndChecksCapacity := by
  refine ⟨fun a src src' h hst => ⟨fun e hr => ?_, fun d hne hr => ?_⟩, fun s a src => exec_asmRead_of_ended⟩
  · exact turn_of_error h (by rwa [requestSize_header hst])
  · obtain ⟨hle, hturn⟩ := turn_header_stores h hst hne hr
    exact ⟨hle, fun hlt => by rw [hturn, if_neg (by omega)], turn_header_whole h hst hne hr⟩

/-! ### The body (R96, R98) -/

/-- R96: the missing body bytes fit, and are stored at the cursor. -/
theorem turn_data_stores {a : Assembler} {src src' : Source} {d : List Byte} {len : Byte} (h : a.Inv)
    (hst : a.state = .data) (hl : Memory.read? a.buf 1 = some len) (hne : d ≠ [])
    (hr : src.read (len.toNat + 2 - a.cursor) = (.bytes d, src')) :
    turn a src =
      if a.cursor + d.length = len.toNat + 2 then
        complete { a with buf := Memory.writeBytes a.buf a.cursor d, cursor := a.cursor + d.length } src'
      else .again { a with buf := Memory.writeBytes a.buf a.cursor d, cursor := a.cursor + d.length } src' := by
  obtain ⟨len', hl', -, hlt, hcap⟩ := h.data_room hst
  obtain rfl : len' = len := Option.some.inj (hl'.symm.trans hl)
  have hlen := Source.length_le_of_read hr
  obtain ⟨b, d, rfl⟩ := List.exists_cons_of_ne_nil hne
  rw [turn_of_data hst, dataStep_eq_fetch hl hlt, fetch_of_bytes hr, Assembler.storeThen_of_fits (by omega)]

/-- Settles O15: a frame that lacks nothing completes at once, and any other by what the request's answer adds. -/
theorem dataStepStoresAndCompletes : Obligations.DataStepStoresAndCompletes := by
  refine ⟨fun a src src' len hst hl => ⟨fun hfull => ?_, fun h => ⟨fun e hr => ?_, fun d hne hr => ?_⟩⟩,
    fun s a src => exec_asmRead_of_ended⟩
  · rw [turn_of_data hst, dataStep_of_complete hl hfull, complete]
  · exact turn_of_error h (by rwa [requestSize_data hst hl])
  · exact turn_data_stores h hst hl hne hr

end Sys2Proof.Machine
end

section
/-! PROOFS. O45 (R120): the frame format (R50) carries its own checksum (R70), so its region verifies (R76), and
`BUILD.READ_REG` builds such a frame. -/

namespace Sys2Proof.Machine

/-! ### The frame format and its checksum (R50, R70) -/

section
variable {len : Byte} {payload : List Byte} (hlen : len.toNat = payload.length + 1) (id : Byte)
include hlen

/-- The declared length ends the sum at the last payload byte, so `cks` sums the whole frame before its checksum. -/
theorem eq_cks_frame_iff (c : Byte) :
    c = cks (id :: len :: payload) ↔ c.toNat = 255 - byteSum (id :: len :: payload) % 256 := by
  have hwhole : (id :: len :: payload).take (len.toNat + 1) = id :: len :: payload := by simp [hlen]
  have h := eq_cks_iff (r := id :: len :: payload) rfl c
  rwa [hwhole] at h

theorem guardPasses_frame (c : Byte) : guardPasses (id :: len :: (payload ++ [c])) len := by
  refine ⟨?_, rfl, ?_, ?_⟩
  · simp
  · omega
  · simp [hlen]

theorem verifyError_frame : verifyError (id :: len :: (payload ++ [cks (id :: len :: payload)])) = none := by
  have hsum : (id :: len :: (payload ++ [cks (id :: len :: payload)])).take (len.toNat + 1) = id :: len :: payload := by
    simp [hlen]
  rw [verifyError_of_passes (c := cks (id :: len :: payload)) (guardPasses_frame hlen id _) (by simp [hlen]), hsum,
    if_pos ((eq_cks_frame_iff hlen id _).mp rfl)]

end

/-! ### The read command (R120) -/

theorem drop_two_readRegImage (id address length : Byte) :
    (readRegImage id address length).drop 2 =
      [id, 4, 0x02, address, length, cks [id, 4, 0x02, address, length]] := rfl

theorem verifyError_readRegImage (id address length : Byte) :
    verifyError ((readRegImage id address length).drop 2) = none := by
  rw [drop_two_readRegImage]
  exact verifyError_frame (payload := [0x02, address, length]) rfl id

theorem exec_buildReadReg (id address length : Byte) (s : State) :
    exec (.buildReadReg id address length) s =
      .next { s with
        image := readRegImage id address length
        result := some (.ok (.bytes (readRegImage id address length))) } := rfl

/-- Settles O45: the byte that the statement names is `cks` of the five before it, and a frame with that byte verifies. -/
theorem readRegImageIsTheCommandFrame : Obligations.ReadRegImageIsTheCommandFrame := by
  intro s id address length c hc
  have hsum : byteSum [id, 4, 0x02, address, length] = id.toNat + 4 + 2 + address.toNat + length.toNat := by
    simp [byteSum]
    omega
  obtain rfl : c = cks [id, 4, 0x02, address, length] :=
    (eq_cks_frame_iff (payload := [0x02, address, length]) rfl id c).mpr (by rw [hsum, hc])
  exact ⟨_, _, rfl, rfl, exec_buildReadReg id address length s,
    (exec_frameVerify_ok_iff (State.view_image _)).mpr (verifyError_readRegImage id address length),
    Laws.EncodingFirstByte.buildReadReg id address length⟩

end Sys2Proof.Machine
end

section
/-! PROOFS. O55: the Master's validation of the exposed frame (R135) and what it then gives (R136, R137). -/

namespace Sys2Proof.Machine

/-! ### The accessors, read backwards -/

section
variable {s : State} {ref : RegionRef} {r : List Byte} (hv : s.view ref = .bytes r)
include hv

/-- `FRAME.VERIFY` raises the error that it finds, and no other. -/
theorem exec_frameVerify_err_iff {e : FrameError} :
    exec (.frameVerify ref) s = .next { s with result := some (.err (.frame e)) } ↔ verifyError r = some e := by
  refine ⟨fun h => ?_, exec_frameVerify_err hv⟩
  rw [exec_frameVerify hv] at h
  cases hverify : verifyError r with
  | none => simp [hverify] at h
  | some f => simpa [hverify] using h

/-- What `FRAME.PAYLOAD` returns is the slice. -/
theorem payloadOf_eq_of_exec_framePayload {p : List Byte} {len : Byte} (hg : guardPasses r len)
    (h : exec (.framePayload ref) s = .next { s with result := some (.ok (.bytes p)) }) : payloadOf r = p := by
  rw [exec_framePayload hv, State.guarded_of_passes hg] at h
  simpa using h

end

/-- The guard passes a region with a first byte only. -/
theorem guardPasses.getD_zero_eq_iff {r : List Byte} {len : Byte} (hg : guardPasses r len) (id : Byte) :
    r.getD 0 0 = id ↔ r[0]? = some id := by
  have := hg.three_le
  simp [List.getElem?_eq_getElem (show 0 < r.length by omega)]

/-! ### The order of the tests (R135) -/

theorem validateError_of_verifyError {r : List Byte} {f : FrameError} (h : verifyError r = some f) (id : Byte)
    (outLen : Option Nat) : validateError r id outLen = some (.frame f) := by
  simp only [validateError, h]

section
variable {r : List Byte} {id : Byte} (hok : verifyError r = none)
include hok

theorem validateError_of_id_ne (hid : r.getD 0 0 ≠ id) (outLen : Option Nat) :
    validateError r id outLen = some .unexpectedResponseId := by
  simp only [validateError, hok, if_pos hid]

variable (hid : r.getD 0 0 = id)
include hid

/-- A read's last test is the payload's length. -/
theorem validateError_read (n : Nat) :
    validateError r id (some n) =
      if (payloadOf r).length = n + 1 then none else some .unexpectedResponseLength := by
  simp only [validateError, hok, if_neg (not_not_intro hid)]

/-- A write has no third test (R137). -/
theorem validateError_write : validateError r id none = none := by
  simp only [validateError, hok, if_neg (not_not_intro hid)]

end

/-! ### The outcome (R135 to R137) -/

section
variable {s : State} {r : List Byte} (hexp : s.asm.exposed = .bytes r) {id : Byte} {outLen : Option Nat}
include hexp

theorem validate_of_error {e : ExchangeError} (h : validateError r id outLen = some e) :
    validate id outLen s = .err e := by
  simp only [validate, hexp, h]

theorem validate_of_valid (h : validateError r id outLen = none) :
    validate id outLen s = .ok (responseData r outLen) := by
  simp only [validate, hexp, h]

end

/-- Settles O55: by the first of the tests that fails. A region that verifies has a first byte and the payload that
`FRAME.PAYLOAD` returns, so the model's tests on the region are the statement's. -/
theorem masterValidatesInOrder : Obligations.MasterValidatesInOrder := by
  intro s r id outLen hexp
  have hv : s.view .frame = .bytes r := hexp
  refine ⟨fun f hf => ?_, fun hok => ?_⟩
  · exact validate_of_error hexp (validateError_of_verifyError ((exec_frameVerify_err_iff hv).mp hf) id outLen)
  · have hnone : verifyError r = none := (exec_frameVerify_ok_iff hv).mp hok
    obtain ⟨len, hg⟩ := guardPasses_of_verifies hnone
    refine ⟨fun hne => ?_, fun p hid hp => ?_⟩
    · exact validate_of_error hexp (validateError_of_id_ne hnone (mt (hg.getD_zero_eq_iff id).mp hne) outLen)
    · have hid0 : r.getD 0 0 = id := (hg.getD_zero_eq_iff id).mpr hid
      obtain rfl : payloadOf r = p := payloadOf_eq_of_exec_framePayload hv hg hp
      refine ⟨?_, ?_, ?_⟩
      · rintro n rfl hlen
        exact validate_of_error hexp (by rw [validateError_read hnone hid0, if_neg hlen])
      · rintro n rfl hlen
        exact validate_of_valid hexp (by rw [validateError_read hnone hid0, if_pos hlen])
      · rintro rfl
        exact validate_of_valid hexp (validateError_write hnone hid0)

end Sys2Proof.Machine
end

section
/-! PROOFS. O9, O10 (R91, R104, R107): a trip round the poll's loop from any state, the poll's fuel, and the whole poll as the
fold of `ASM.STEP` from a state that meets R20. -/

namespace Sys2Proof.Machine

/-! ### Runs of received bytes in pieces (R104) -/

theorem feed_trans {a a' a'' : Assembler} {d e : List Byte} {sig sig' : List Signal} (hd : feed a d = .ok a' sig)
    (he : feed a' e = .ok a'' sig') : feed a (d ++ e) = .ok a'' (sig ++ sig') := by
  simp only [feed_append, hd, he]

theorem exists_feed_of_append {a a'' : Assembler} {d e : List Byte} {sig : List Signal}
    (h : feed a (d ++ e) = .ok a'' sig) :
    ∃ a' sig₁ sig₂, feed a d = .ok a' sig₁ ∧ feed a' e = .ok a'' sig₂ ∧ sig = sig₁ ++ sig₂ := by
  rw [feed_append] at h
  cases hd : feed a d with
  | fault f => simp [hd] at h
  | ok a' sig₁ =>
    simp only [hd] at h
    cases he : feed a' e with
    | fault f => simp [he] at h
    | ok b sig₂ =>
      simp only [he, Fed.ok.injEq] at h
      obtain ⟨rfl, rfl⟩ := h
      exact ⟨a', sig₁, sig₂, rfl, he, rfl⟩

/-- What signals nothing has signalled nothing before. -/
theorem feed_quiet_of_append {a a'' : Assembler} {d e : List Byte} (h : feed a (d ++ e) = .ok a'' []) :
    ∃ a', feed a d = .ok a' [] := by
  obtain ⟨a', sig₁, sig₂, hd, -, hsig⟩ := exists_feed_of_append h
  obtain ⟨rfl, -⟩ := List.nil_eq_append_iff.mp hsig
  exact ⟨a', hd⟩

theorem feed_quiet_dropLast {a a' : Assembler} {d : List Byte} (h : feed a d = .ok a' []) :
    ∃ a'', feed a d.dropLast = .ok a'' [] := by
  obtain ⟨e, he⟩ := List.dropLast_prefix d
  exact feed_quiet_of_append (e := e) (by rwa [he])

/-! ### A trip from any state -/

/-- What a trip keeps, whatever R20 says of the state: `CAP` stays, bytes are handed over in line order, and a trip that goes
round has taken one (R107). -/
inductive TurnFrame (a : Assembler) (src : Source) : Turn → Prop where
  | again {a' : Assembler} {src' : Source} {d : List Byte} (took : Took src src' d) (ne : d ≠ []) (cap : a'.cap = a.cap) :
      TurnFrame a src (.again a' src')
  | ended {a' : Assembler} {src' : Source} {d : List Byte} {how : PollEnd} (took : Took src src' d)
      (cap : a'.cap = a.cap) : TurnFrame a src (.ended a' src' how)
  | fault {f : Fault} (ne : f ≠ .pollDidNotEnd) : TurnFrame a src (.fault f)

theorem fetch_frame {n : Nat} {a : Assembler} {src : Source} {k : Byte → List Byte → Source → Turn}
    (hk : ∀ b d src', Took src src' (b :: d) → TurnFrame a src (k b d src')) : TurnFrame a src (fetch n a src k) := by
  rcases fetch_cases (n := n) (a := a) (src := src) (k := k) with ⟨src', e, h, t⟩ | ⟨src', h, t⟩ | ⟨src', b, d, h, t, -⟩
  · rw [h]
    exact .ended t rfl
  · rw [h]
    exact .ended t rfl
  · rw [h]
    exact hk b d src' t

theorem seekStep_frame (a : Assembler) (src : Source) : TurnFrame a src (seekStep a src) := by
  refine fetch_frame fun b d src' t => ?_
  cases d with
  | nil =>
    dsimp only
    split
    · exact .again t (by simp) rfl
    · exact .again t (by simp) rfl
  | cons c d =>
    dsimp only
    split
    · exact .again t (by simp) rfl
    · split
      · exact .again t (by simp) rfl
      · exact .again t (by simp) rfl

theorem seek2Step_frame (a : Assembler) (src : Source) : TurnFrame a src (seek2Step a src) := by
  refine fetch_frame fun b d src' t => ?_
  split
  · exact .again t (by simp) rfl
  · exact .again t (by simp) rfl

theorem headerDone_frame {a a' : Assembler} {src src' : Source} {d : List Byte} (t : Took src src' d) (hne : d ≠ [])
    (hcap : a'.cap = a.cap) : TurnFrame a src (headerDone a' src') := by
  unfold headerDone
  split
  · exact .fault nofun
  · split
    · exact .ended t hcap
    · exact .again t hne hcap

/-- R94 and R96 store what they get, and go on with `done` or round again. -/
theorem storeThen_frame {a : Assembler} {src src' : Source} {b : Byte} {d : List Byte} (t : Took src src' (b :: d))
    (full : Nat) {done : Assembler → Source → Turn}
    (hdone : ∀ a' : Assembler, a'.cap = a.cap → TurnFrame a src (done a' src')) :
    TurnFrame a src (a.storeThen full done b d src') := by
  unfold Assembler.storeThen
  split
  · exact .fault nofun
  · next a' hs =>
    have hcap : a'.cap = a.cap := by rw [(Assembler.store_eq_some.mp hs).2]
    split
    · exact hdone a' hcap
    · exact .again t (by simp) hcap

theorem headerStep_frame (a : Assembler) (src : Source) : TurnFrame a src (headerStep a src) := by
  by_cases h : a.cursor ≤ 1
  · rw [headerStep_eq_fetch h]
    exact fetch_frame fun b d src' t => storeThen_frame t 2 fun a' hcap => headerDone_frame t (by simp) hcap
  · rw [headerStep, if_pos (by omega)]
    exact .fault nofun

theorem dataStep_frame (a : Assembler) (src : Source) : TurnFrame a src (dataStep a src) := by
  cases hl : Memory.read? a.buf 1 with
  | none =>
    simp only [dataStep, Assembler.need?, hl, Option.map_none]
    exact .fault nofun
  | some len =>
    rcases Nat.lt_trichotomy a.cursor (len.toNat + 2) with hlt | heq | hgt
    · rw [dataStep_eq_fetch hl hlt]
      exact fetch_frame fun b d src' t => storeThen_frame t _ fun a' hcap => .ended t hcap
    · rw [dataStep_of_complete hl heq]
      exact .ended (Took.refl src) rfl
    · simp only [dataStep, Assembler.need?, hl, Option.map_some]
      rw [if_neg (by omega), if_pos hgt]
      exact .fault nofun

theorem turn_frame (a : Assembler) (src : Source) : TurnFrame a src (turn a src) := by
  cases hst : a.state with
  | seekMarker1 => exact turn_of_seeking (.inl hst) src ▸ seekStep_frame a src
  | seekMarker2 => exact turn_of_seekMarker2 hst src ▸ seek2Step_frame a src
  | header => exact turn_of_header hst src ▸ headerStep_frame a src
  | data => exact turn_of_data hst src ▸ dataStep_frame a src
  | completed => exact turn_of_seeking (.inr hst) src ▸ seekStep_frame a src

/-! ### The loop and its fuel (R91, R107) -/

section
variable {n : Nat} {a a' : Assembler} {src src' : Source}

theorem poll_of_again (h : turn a src = .again a' src') : poll (n + 1) a src = poll n a' src' := by
  simp only [poll, h]

theorem poll_of_ended {how : PollEnd} (h : turn a src = .ended a' src' how) : poll (n + 1) a src = .ended a' src' how := by
  simp only [poll, h]

theorem poll_of_fault {f : Fault} (h : turn a src = .fault f) : poll (n + 1) a src = .fault f := by
  simp only [poll, h]

/-- A poll that ends keeps `CAP`, and has taken bytes in line order. -/
theorem poll_ended_frame {how : PollEnd} (h : poll n a src = .ended a' src' how) :
    a'.cap = a.cap ∧ ∃ d, Took src src' d := by
  induction n generalizing a src with
  | zero => cases h
  | succ n ih =>
    have hframe := turn_frame a src
    cases hturn : turn a src with
    | again b mid =>
      rw [poll_of_again hturn] at h
      rw [hturn] at hframe
      obtain ⟨t, -, hcap⟩ := hframe
      obtain ⟨hcap', e, t'⟩ := ih h
      exact ⟨hcap'.trans hcap, _, t.trans t'⟩
    | ended b mid how' =>
      rw [poll_of_ended hturn] at h
      cases h
      rw [hturn] at hframe
      obtain ⟨-⟩ := hframe
      exact ⟨by assumption, _, by assumption⟩
    | fault f => cases (poll_of_fault hturn).symm.trans h

/-- More fuel changes nothing but a poll that ran out of it. -/
theorem poll_add (h : poll n a src ≠ .fault .pollDidNotEnd) (k : Nat) : poll (n + k) a src = poll n a src := by
  induction n generalizing a src with
  | zero => exact absurd rfl h
  | succ n ih =>
    rw [Nat.succ_add]
    cases hturn : turn a src with
    | again b mid =>
      rw [poll_of_again hturn] at h ⊢
      rw [poll_of_again hturn, ih h]
    | ended b mid how => rw [poll_of_ended hturn, poll_of_ended hturn]
    | fault f => rw [poll_of_fault hturn, poll_of_fault hturn]

/-- Two polls that do not run out of fuel agree. -/
theorem poll_eq_poll {m : Nat} (hn : poll n a src ≠ .fault .pollDidNotEnd) (hm : poll m a src ≠ .fault .pollDidNotEnd) :
    poll n a src = poll m a src := by
  rcases Nat.le_total n m with h | h
  · rw [← poll_add hn (m - n), Nat.add_sub_cancel' h]
  · rw [← poll_add hm (n - m), Nat.add_sub_cancel' h]

/-- R107: on a line that ends, each trip that goes round uses up a listed byte. -/
theorem poll_ne_pollDidNotEnd (he : src.endless = none) (hn : src.remaining.length < n) :
    poll n a src ≠ .fault .pollDidNotEnd := by
  induction n generalizing a src with
  | zero => omega
  | succ n ih =>
    have hframe := turn_frame a src
    cases hturn : turn a src with
    | again b mid =>
      rw [hturn] at hframe
      obtain ⟨t, hne, -⟩ := hframe
      have hlen := congrArg List.length (t.remaining_finite he)
      have := List.length_pos_iff.mpr hne
      simp only [List.length_append] at hlen
      rw [poll_of_again hturn]
      exact ih (t.endless_eq_none.mpr he) (by omega)
    | ended b mid how => simp [poll_of_ended hturn]
    | fault f =>
      rw [hturn] at hframe
      obtain ⟨⟩ | ⟨⟩ | hne := hframe
      simpa [poll_of_fault hturn] using hne

theorem poll_ne_again : poll n a src ≠ .again a' src' := by
  induction n generalizing a src with
  | zero => nofun
  | succ n ih =>
    cases hturn : turn a src with
    | again b mid => rw [poll_of_again hturn]; exact ih
    | ended b mid how => simp [poll_of_ended hturn]
    | fault f => simp [poll_of_fault hturn]

end

/-! ### The operation (R91) -/

/-- R91: what the end of a poll delivers. -/
def PollEnd.result : PollEnd → Result
  | .frameDone => .ok (.flag true)
  | .dry => .ok (.flag false)
  | .transport e => .err (.assembly (.transport e))
  | .insufficientCapacity => .err (.assembly .insufficientCapacity)

theorem State.endPoll_eq (s : State) (how : PollEnd) : s.endPoll how = .next { s with result := some how.result } := by
  cases how <;> rfl

theorem resultSignal_result (how : PollEnd) : (resultSignal (some how.result)).toList = endSignals how := by
  cases how <;> rfl

theorem exec_asmRead_of_poll {s : State} {a : Assembler} {src : Source} {how : PollEnd}
    (h : poll s.src.pollFuel s.asm s.src = .ended a src how) :
    exec .asmRead s = .next { s with asm := a, src := src, result := some how.result } := by
  simp only [exec, execAsmRead, h, State.endPoll_eq]

theorem exec_asmRead_of_fault {s : State} {f : Fault} (h : poll s.src.pollFuel s.asm s.src = .fault f) :
    exec .asmRead s = .fault f := by
  simp only [exec, execAsmRead, h]

theorem exec_asmRead_congr {s : State} {a : Assembler} {src : Source}
    (h : poll s.src.pollFuel s.asm s.src = poll src.pollFuel a src) :
    exec .asmRead s = exec .asmRead { s with asm := a, src := src } := by
  simp only [exec, execAsmRead, h]

/-- A poll that answers a next state has ended, and changes only the assembler, the source and the result. -/
theorem exists_poll_of_exec_asmRead {s t : State} (h : exec .asmRead s = .next t) :
    ∃ how, poll s.src.pollFuel s.asm s.src = .ended t.asm t.src how ∧
      t = { s with asm := t.asm, src := t.src, result := some how.result } := by
  cases hp : poll s.src.pollFuel s.asm s.src with
  | again a src => exact absurd hp poll_ne_again
  | ended a src how =>
    rw [exec_asmRead_of_poll hp] at h
    cases h
    exact ⟨how, rfl, rfl⟩
  | fault f => cases (exec_asmRead_of_fault hp).symm.trans h

theorem pollFuel_finite {src : Source} (he : src.endless = none) : src.pollFuel = src.remaining.length + 1 := by
  simp only [Source.pollFuel, he, Nat.add_zero]

theorem remaining_lt_pollFuel (src : Source) : src.remaining.length < src.pollFuel := by
  unfold Source.pollFuel
  omega

/-- Settles O10: by the fuel that the poll has left after its first trip. -/
theorem pollIsTheLoopOfTrips : Obligations.PollIsTheLoopOfTrips := by
  intro s a src
  refine ⟨fun hturn => ?_, fun how hturn => ?_⟩
  · have hframe := turn_frame s.asm s.src
    rw [hturn] at hframe
    obtain ⟨t, hne, -⟩ := hframe
    have hpos := List.length_pos_iff.mpr hne
    obtain ⟨n, hn⟩ : ∃ n, s.src.pollFuel = n + 1 :=
      Nat.exists_eq_add_one.mpr (Nat.zero_lt_of_lt (remaining_lt_pollFuel s.src))
    have hfirst : poll s.src.pollFuel s.asm s.src = poll n a src := by rw [hn, poll_of_again hturn]
    refine ⟨by simp only [t.handed, List.length_append]; omega, ?_⟩
    by_cases h1 : poll n a src = .fault .pollDidNotEnd
    · refine .inr ⟨fun he => ?_, .inl (exec_asmRead_of_fault (hfirst.trans h1))⟩
      have hlen := congrArg List.length (t.remaining_finite he)
      simp only [List.length_append] at hlen
      exact poll_ne_pollDidNotEnd (t.endless_eq_none.mpr he) (by rw [pollFuel_finite he] at hn; omega) h1
    · by_cases h2 : poll src.pollFuel a src = .fault .pollDidNotEnd
      · refine .inr ⟨fun he => ?_, .inr (exec_asmRead_of_fault h2)⟩
        exact poll_ne_pollDidNotEnd (t.endless_eq_none.mpr he) (remaining_lt_pollFuel src) h2
      · exact .inl (exec_asmRead_congr (hfirst.trans (poll_eq_poll h1 h2)))
  · rw [exec_asmRead_of_ended hturn, State.endPoll_eq]
    cases how <;> rfl

/-! ### The whole poll from a state that meets R20 (R104) -/

/-- Everything a poll with fuel `n` can do in a state that meets R20, in terms of `ASM.STEP` over the bytes it takes. -/
inductive PollSpec (n : Nat) (a : Assembler) (src : Source) : Turn → Prop where
  /-- it ends with the bytes `d` taken, of which only the last one can have signalled -/
  | ended {a' : Assembler} {src' : Source} {how : PollEnd} {d : List Byte} (took : Took src src' d)
      (fed : feed a d = .ok a' (endSignals how)) (quiet : ∃ a'', feed a d.dropLast = .ok a'' []) :
      PollSpec n a src (.ended a' src' how)
  /-- it runs out of fuel, each trip having taken a byte, where the last trip's bytes `e` may have signalled -/
  | stuck {a' : Assembler} {src' : Source} {d e : List Byte} (took : Took src src' (d ++ e)) (fed : feed a d = .ok a' [])
      (fuel_le : n ≤ (d ++ e).length) (fuel_le_succ : n ≤ d.length + 1) : PollSpec n a src (.fault .pollDidNotEnd)

/-- R20 after a run of received bytes. -/
theorem Assembler.Inv.feed {a a' : Assembler} {d : List Byte} {sig : List Signal} (h : a.Inv)
    (hf : feed a d = .ok a' sig) : a'.Inv ∧ a'.cap = a.cap := by
  obtain ⟨b, sig', hf', hinv, hcap⟩ := feed_inv h d
  cases hf.symm.trans hf'
  exact ⟨hinv, hcap⟩

/-- A trip without a signal in front of a poll. -/
theorem PollSpec.onward {n : Nat} {a a' : Assembler} {src src' : Source} {d : List Byte} {t : Turn} (took : Took src src' d)
    (hne : d ≠ []) (fed : feed a d = .ok a' []) (h : PollSpec n a' src' t) : PollSpec (n + 1) a src t := by
  have hpos := List.length_pos_iff.mpr hne
  cases h with
  | @ended _ _ _ e t' fed' quiet =>
    refine .ended (took.trans t') (feed_trans fed fed') ?_
    by_cases he : e = []
    · simpa [he] using feed_quiet_dropLast fed
    · obtain ⟨a'', hq⟩ := quiet
      exact ⟨a'', by rw [List.dropLast_append_of_ne_nil he]; exact feed_trans fed hq⟩
  | @stuck _ _ e e' t' fed' hle hle' =>
    refine .stuck (d := d ++ e) (e := e') (by rw [List.append_assoc]; exact took.trans t') (feed_trans fed fed') ?_ ?_
    · simp only [List.length_append] at hle ⊢
      omega
    · simp only [List.length_append]
      omega

/-- R96: in `Data` with the whole frame in, as a declared length of 0 leaves it, a trip completes without a request. -/
theorem turn_of_emptyFrame {a : Assembler} (need : a.need? = some a.cursor) (hst : a.state = .completed) (src : Source) :
    turn { a with state := .data } src = .ended a src .frameDone := by
  obtain ⟨len, hl, hcur⟩ : ∃ len, Memory.read? a.buf 1 = some len ∧ len.toNat + 2 = a.cursor := by
    simpa [Assembler.need?] using need
  rw [turn_of_data rfl, dataStep_of_complete (a := { a with state := .data }) hl hcur.symm, complete, ← hst]

/-- A frame of declared length 0 completes in the trip after its header, if there is fuel for it. -/
theorem PollSpec.emptyFrame {n : Nat} {a a' : Assembler} {src src' : Source} {d : List Byte} (took : Took src src' d)
    (hne : d ≠ []) (fed : feed a d = .ok a' [.done]) (quiet : ∃ a'', feed a d.dropLast = .ok a'' [])
    (need : a'.need? = some a'.cursor) (hst : a'.state = .completed) :
    PollSpec (n + 1) a src (poll n { a' with state := .data } src') := by
  have hpos := List.length_pos_iff.mpr hne
  cases n with
  | zero =>
    obtain ⟨a'', hq⟩ := quiet
    refine .stuck (src' := src') (d := d.dropLast) (e := [d.getLast hne]) ?_ hq ?_ ?_
    · rwa [List.dropLast_concat_getLast]
    · simp
    · omega
  | succ n =>
    rw [poll_of_ended (turn_of_emptyFrame need hst src')]
    exact .ended took fed quiet

theorem poll_spec {a : Assembler} (h : a.Inv) (n : Nat) (src : Source) : PollSpec n a src (poll n a src) := by
  induction n generalizing a src with
  | zero => exact .stuck (d := []) (e := []) (Took.refl src) rfl (Nat.zero_le _) (Nat.zero_le _)
  | succ n ih =>
    have hspec := turn_spec h src
    have hquiet {d : List Byte} (hne : d ≠ []) (size : d.length ≤ a.requestSize) :
        ∃ a'', feed a d.dropLast = .ok a'' [] := by
      have := List.length_pos_iff.mpr hne
      exact feed_quiet h (by rw [List.length_dropLast]; omega)
    cases hturn : turn a src with
    | again b mid =>
      rw [hturn] at hspec
      rw [poll_of_again hturn]
      cases hspec with
      | onward took hne _ fed => exact .onward took hne fed (ih (h.feed fed).1 mid)
      | emptyFrame took hne size fed need hst => exact .emptyFrame took hne fed (hquiet hne size) need hst
    | ended b mid how =>
      rw [hturn] at hspec
      rw [poll_of_ended hturn]
      cases hspec with
      | idle took hsig => exact .ended took (by rw [hsig]; rfl) ⟨_, rfl⟩
      | signalled took hne size fed hsig => exact .ended took (by rw [hsig]; exact fed) (hquiet hne size)
    | fault f =>
      rw [hturn] at hspec
      cases hspec

/-- `t` is `s` after a poll that took the bytes `d` and ended so (R104). -/
structure Reads (s t : State) (d : List Byte) (how : PollEnd) : Prop where
  took : Took s.src t.src d
  fed : feed s.asm d = .ok t.asm (endSignals how)
  quiet : ∃ a, feed s.asm d.dropLast = .ok a []
  frame : t = { s with asm := t.asm, src := t.src, result := some how.result }

theorem exists_reads {s t : State} (h : s.Inv) (ht : exec .asmRead s = .next t) : ∃ d how, Reads s t d how := by
  obtain ⟨how, hp, hframe⟩ := exists_poll_of_exec_asmRead ht
  have hspec := poll_spec h s.src.pollFuel s.src
  rw [hp] at hspec
  cases hspec with
  | ended took fed quiet => exact ⟨_, how, took, fed, quiet, hframe⟩

theorem Reads.result {s t : State} {d : List Byte} {how : PollEnd} (r : Reads s t d how) : t.result = some how.result := by
  rw [r.frame]

/-- The signal that the poll's result carries is the one that its bytes gave. -/
theorem Reads.signals {s t : State} {d : List Byte} {how : PollEnd} (r : Reads s t d how) :
    (resultSignal t.result).toList = endSignals how := by
  rw [r.result, resultSignal_result]

theorem Reads.inv {s t : State} {d : List Byte} {how : PollEnd} (r : Reads s t d how) (h : s.Inv) : t.Inv :=
  (h.feed r.fed).1

/-- R91: a poll answers a next state, or it has run out of fuel, on a line that does not end. -/
theorem exec_asmRead_cases {s : State} (h : s.Inv) :
    (∃ t, exec .asmRead s = .next t) ∨ exec .asmRead s = .fault .pollDidNotEnd ∧ s.src.endless ≠ none := by
  have hspec := poll_spec h s.src.pollFuel s.src
  cases hp : poll s.src.pollFuel s.asm s.src with
  | again a src => exact absurd hp poll_ne_again
  | ended a src how => exact .inl ⟨_, exec_asmRead_of_poll hp⟩
  | fault f =>
    rw [hp] at hspec
    cases hspec
    exact .inr ⟨exec_asmRead_of_fault hp, fun he => poll_ne_pollDidNotEnd he (remaining_lt_pollFuel s.src) hp⟩

/-- Settles O9: by the poll's specification, and on a line that ends there is fuel for every byte. -/
theorem pollIsTheFoldOfReceivedBytes : Obligations.PollIsTheFoldOfReceivedBytes := by
  intro s h
  refine ⟨fun he => (exec_asmRead_cases h).resolve_right fun hf => hf.2 he, fun t ht => ?_⟩
  obtain ⟨d, how, r⟩ := exists_reads h ht
  refine ⟨d, r.took.handed, r.took.stream, r.took.remaining_finite, ?_, ?_, ?_⟩
  · rw [r.signals]
    exact r.fed
  · rw [r.result]
    exact r.frame
  · rw [r.result]
    cases how with
    | frameDone => exact .inl rfl
    | dry => exact .inr (.inl rfl)
    | transport e => exact .inr (.inr (.inl ⟨e, rfl⟩))
    | insufficientCapacity => exact .inr (.inr (.inr rfl))

end Sys2Proof.Machine
end

section
/-! PROOFS. O17 to O19, O26 (R104, R108): one received byte by the state it meets, what it stores and where, and the wire rows
as an arrival and a poll. -/

namespace Sys2Proof.Machine

/-! ### One received byte, by state (R104) -/

theorem stepByte_of_seeking {a : Assembler} (h : a.seeking) (b : Byte) :
    stepByte a b = .ok { a with state := if b = Config.marker then .seekMarker2 else .seekMarker1 } none := by
  by_cases hb : b = Config.marker
  · rcases h with h | h <;> simp [stepByte, h, hb]
  · rcases h with h | h <;> simp [stepByte, h, hb]

theorem stepByte_of_seekMarker2 {a : Assembler} (h : a.state = .seekMarker2) (b : Byte) :
    stepByte a b = .ok (if b = Config.marker then a.enterHeader else { a with state := .seekMarker1 }) none := by
  by_cases hb : b = Config.marker <;> simp [stepByte, h, hb]

section
variable {a : Assembler} (hst : a.state = .header) (hcap : 3 ≤ a.cap)
include hst hcap

theorem stepByte_of_header_id (hcur : a.cursor = 0) (b : Byte) :
    stepByte a b = .ok { a with buf := Memory.write a.buf 0 b, cursor := 1 } none := by
  simp only [stepByte, hst, headerByte]
  rw [if_neg (by omega), Assembler.store_of_fits (by simp only [List.length_singleton]; omega)]
  simp [hst, hcur, Memory.writeBytes]

theorem stepByte_of_header_length (hcur : a.cursor = 1) (b : Byte) :
    stepByte a b =
      if b.toNat + 2 > a.cap then
        .ok { a with state := .seekMarker1, buf := Memory.write a.buf 1 b, cursor := 2 } (some .insufficientCapacity)
      else if b.toNat = 0 then
        .ok { a with state := .completed, buf := Memory.write a.buf 1 b, cursor := 2 } (some .done)
      else .ok { a with state := .data, buf := Memory.write a.buf 1 b, cursor := 2 } none := by
  simp only [stepByte, hst, headerByte]
  rw [if_neg (by omega), Assembler.store_of_fits (by simp only [List.length_singleton]; omega)]
  simp [hcur, Memory.writeBytes]

end

theorem stepByte_of_data {a : Assembler} {len : Byte} (hst : a.state = .data) (hl : Memory.read? a.buf 1 = some len)
    (h2 : 2 ≤ a.cursor) (hlt : a.cursor < len.toNat + 2) (hcap : len.toNat + 2 ≤ a.cap) (b : Byte) :
    stepByte a b =
      if a.cursor + 1 = len.toNat + 2 then
        .ok { a with state := .completed, buf := Memory.write a.buf a.cursor b, cursor := a.cursor + 1 } (some .done)
      else .ok { a with buf := Memory.write a.buf a.cursor b, cursor := a.cursor + 1 } none := by
  have hone : Memory.read? (Memory.write a.buf a.cursor b) 1 = some len := by
    rw [Memory.read?_write_other _ _ (by omega), hl]
  simp only [stepByte, hst, dataByte]
  rw [Assembler.store_of_fits (by simp only [List.length_singleton]; omega)]
  simp only [List.length_singleton, Memory.writeBytes, Assembler.need?, hone, Option.map_some]
  rw [if_neg (show ¬ a.cursor + 1 > len.toNat + 2 by omega)]
  simp only [hst]

theorem Assembler.Inv.three_le_cap {a : Assembler} (h : a.Inv) : 3 ≤ a.cap := h.1.1

/-- R20 in `Header`: at which of the two bytes the assembler stands. -/
theorem Assembler.Inv.header_cursor {a : Assembler} (h : a.Inv) (hst : a.state = .header) :
    a.cursor = 0 ∨ a.cursor = 1 := by
  have := (h.header_room hst).1
  omega

/-- Settles O17: row by row, by the state; the source's answers are O11's and O12's. -/
theorem transitionTable : Obligations.TransitionTable := by
  intro a b h
  have hcap := h.three_le_cap
  refine ⟨fun hst hb => ?_, fun hst hb => ?_, fun hst hb => ?_, fun hst hb => ?_, fun hst hb => ?_, fun hst hb => ?_,
    fun hst hcur => stepByte_of_header_id hst hcap hcur b, fun hst hcur hbig => ?_, fun hst hcur hzero => ?_,
    fun hst hcur hpos hfit => ?_, fun len hst hl hlt => ?_, fun len hst hl hend => ?_, ?_, fun src src' => ⟨?_, ?_, ?_⟩⟩
  · rw [stepByte_of_seeking (.inl hst), if_pos (show b = Config.marker from hb)]
  · rw [stepByte_of_seeking (.inl hst), if_neg (show b ≠ Config.marker from hb)]
  · rw [stepByte_of_seeking (.inr hst), if_pos (show b = Config.marker from hb)]
  · rw [stepByte_of_seeking (.inr hst), if_neg (show b ≠ Config.marker from hb)]
  · rw [stepByte_of_seekMarker2 hst, if_pos (show b = Config.marker from hb)]
    rfl
  · rw [stepByte_of_seekMarker2 hst, if_neg (show b ≠ Config.marker from hb)]
  · rw [stepByte_of_header_length hst hcap hcur, if_pos hbig]
  · rw [stepByte_of_header_length hst hcap hcur, if_neg (by omega), if_pos hzero]
  · rw [stepByte_of_header_length hst hcap hcur, if_neg (by omega), if_neg (by omega)]
  · obtain ⟨len', hl', h2, _, hfit⟩ := h.data_room hst
    obtain rfl := Option.some.inj (hl'.symm.trans hl)
    rw [stepByte_of_data hst hl h2 (by omega) hfit, if_neg (by omega)]
  · obtain ⟨len', hl', h2, _, hfit⟩ := h.data_room hst
    obtain rfl := Option.some.inj (hl'.symm.trans hl)
    rw [stepByte_of_data hst hl h2 (by omega) hfit, if_pos hend]
  · obtain ⟨a', sig, hs, -, -⟩ := stepByte_inv h b
    exact ⟨a', sig, hs⟩
  · intro hr
    have hdry := turn_of_dry h (.inl (congrArg Prod.fst hr))
    rwa [hr] at hdry
  · intro hr
    have hdry := turn_of_dry h (.inr (congrArg Prod.fst hr))
    rwa [hr] at hdry
  · exact fun e hr => turn_of_error h hr

/-! ### What one received byte signals and stores -/

/-- Everything one received byte can do in a state that meets R20: nothing is stored while seeking; else the byte is stored at
the cursor, and `Done` comes with the last byte of a frame. -/
inductive ByteSpec (a : Assembler) (b : Byte) : Assembler → Option Signal → Prop where
  | sought {a' : Assembler} (seeks : a.storeIndex = none) (buf : a'.buf = a.buf) (st : a'.state ≠ .completed) :
      ByteSpec a b a' none
  | stored {a' : Assembler} {signal : Option Signal} (stores : a.storeIndex = some a.cursor)
      (buf : a'.buf = Memory.write a.buf a.cursor b) (room : a.cursor < a.cap)
      (done : a'.state = .completed ↔ signal = some .done)
      (last : a'.state = .completed →
        (a.state = .data ∧ a.need? = some (a.cursor + 1)) ∨ (a.state = .header ∧ a.cursor = 1 ∧ b = 0)) :
      ByteSpec a b a' signal

theorem stepByte_spec {a a' : Assembler} {b : Byte} {signal : Option Signal} (h : a.Inv)
    (hs : stepByte a b = .ok a' signal) : ByteSpec a b a' signal := by
  have hcap := h.three_le_cap
  have seek (hst : a.seeking) (hnone : a.storeIndex = none) : ByteSpec a b a' signal := by
    rw [stepByte_of_seeking hst] at hs
    cases hs
    exact .sought hnone rfl (by dsimp only; split <;> simp)
  cases hst : a.state with
  | seekMarker1 => exact seek (.inl hst) (by simp [Assembler.storeIndex, hst])
  | completed => exact seek (.inr hst) (by simp [Assembler.storeIndex, hst])
  | seekMarker2 =>
    rw [stepByte_of_seekMarker2 hst] at hs
    cases hs
    refine .sought (by simp [Assembler.storeIndex, hst]) ?_ ?_
    · split <;> rfl
    · split <;> simp
  | header =>
    have hstores : a.storeIndex = some a.cursor := by simp [Assembler.storeIndex, hst]
    rcases h.header_cursor hst with hcur | hcur
    · rw [stepByte_of_header_id hst hcap hcur] at hs
      cases hs
      exact .stored hstores (by rw [hcur]) (by omega) (by simp [hst]) (by simp [hst])
    · rw [stepByte_of_header_length hst hcap hcur] at hs
      split at hs
      · cases hs
        exact .stored hstores (by rw [hcur]) (by omega) (by simp) (by simp)
      · split at hs
        · next hzero =>
          cases hs
          exact .stored hstores (by rw [hcur]) (by omega) (by simp)
            fun _ => .inr ⟨hst, hcur, BitVec.eq_of_toNat_eq hzero⟩
        · cases hs
          exact .stored hstores (by rw [hcur]) (by omega) (by simp) (by simp)
  | data =>
    have hstores : a.storeIndex = some a.cursor := by simp [Assembler.storeIndex, hst]
    obtain ⟨len, hl, h2, hlt, hfit⟩ := h.data_room hst
    rw [stepByte_of_data hst hl h2 hlt hfit] at hs
    split at hs
    · next hend =>
      cases hs
      exact .stored hstores rfl (by omega) (by simp) fun _ => .inl ⟨hst, by simp [Assembler.need?, hl, hend]⟩
    · cases hs
      exact .stored hstores rfl (by omega) (by simp [hst]) (by simp [hst])

/-- Settles O18: a byte that is not stored neither completes nor signals. -/
theorem completedOnlyAfterTheLastByte : Obligations.CompletedOnlyAfterTheLastByte := by
  intro a b a' signal h hs
  cases stepByte_spec h hs with
  | sought _ _ hst => exact ⟨by simp [hst], fun hc => absurd hc hst⟩
  | stored _ _ _ hdone hlast => exact ⟨hdone, hlast⟩

/-- Received bytes leave every buffer byte but those they are stored to, which lie inside the buffer. -/
theorem feed_stores {a a' : Assembler} {d : List Byte} {sig : List Signal} (h : a.Inv) (hf : feed a d = .ok a' sig) :
    (∀ j, j ∉ feedStores a d → Memory.read? a'.buf j = Memory.read? a.buf j) ∧ ∀ j ∈ feedStores a d, j < a.cap := by
  induction d generalizing a sig with
  | nil =>
    cases hf
    exact ⟨fun _ _ => rfl, nofun⟩
  | cons b d ih =>
    obtain ⟨mid, signal, hs, hinv, hcap⟩ := stepByte_inv h b
    obtain ⟨_, sig₁, sig₂, hb, hd, -⟩ := exists_feed_of_append (d := [b]) hf
    obtain rfl : mid = _ := (Fed.ok.inj (by simpa [feed, hs, Fed.prepend] using hb)).1
    obtain ⟨hkeep, hlt⟩ := ih hinv hd
    simp only [feedStores, hs, List.mem_append, not_or]
    cases stepByte_spec h hs with
    | sought hnone hbuf _ =>
      simp only [hnone, Option.toList_none, List.not_mem_nil, false_or, not_false_eq_true, true_and]
      exact ⟨fun j hj => by rw [hkeep j hj, hbuf], fun j hj => hcap ▸ hlt j hj⟩
    | stored hsome hbuf hroom _ _ =>
      simp only [hsome, Option.toList_some, List.mem_singleton]
      refine ⟨fun j ⟨hne, hj⟩ => by rw [hkeep j hj, hbuf, Memory.read?_write_other _ _ hne], ?_⟩
      rintro j (rfl | hj)
      · exact hroom
      · exact hcap ▸ hlt j hj

/-! ### The wire rows (`00_scope.md` section 5, entry 10) -/

/-- A wire row is an arrival of its bytes and one poll. -/
theorem exec_of_isWire {i : Instr} (h : isWire i = true) (s : State) :
    exec i s = exec .asmRead { s with src := s.src.arrive (encode i) } := by
  cases i with
  | wireMarkerByte => rfl
  | wireFrame => rfl
  | wireReadReg => rfl
  | wireWriteReg => rfl
  | _ => simp [isWire] at h

/-- What `ASM.READ` and the wire rows have in common: a poll from some state of the line, on which nothing was handed over. -/
theorem exists_poll_of_reception {i : Instr} (h : i = .asmRead ∨ isWire i = true) (s : State) :
    ∃ src : Source, exec i s = exec .asmRead { s with src := src } ∧ src.handed = s.src.handed ∧
      src.endless = s.src.endless := by
  rcases h with rfl | h
  · exact ⟨s.src, rfl, rfl, rfl⟩
  · exact ⟨_, exec_of_isWire h s, rfl, rfl⟩

/-- Settles O19: the poll's bytes go through `ASM.STEP`, which stores each at the cursor or not at all. -/
theorem receivedBytesChangeOnlyTheirCells : Obligations.ReceivedBytesChangeOnlyTheirCells := by
  intro i s t hi h ht
  obtain ⟨src, hexec, hhanded, -⟩ := exists_poll_of_reception hi s
  obtain ⟨d, how, r⟩ := exists_reads (s := { s with src := src }) h (hexec ▸ ht)
  obtain ⟨hkeep, hlt⟩ := feed_stores h r.fed
  refine ⟨d, by rw [r.took.handed, hhanded], hkeep, hlt, (Assembler.Inv.feed h r.fed).2, ?_, ?_, ?_, ?_⟩
  · rw [r.frame]
  · rw [r.frame]
  · rw [r.frame]
  · rw [r.frame]

/-- Settles O26: O9 of the state in which the row's bytes have arrived. -/
theorem wireRowsArriveAndArePolled : Obligations.WireRowsArriveAndArePolled := by
  intro i s hi h
  have hexec := exec_of_isWire hi s
  refine ⟨hexec, fun he => ?_⟩
  have hs : State.Inv { s with src := s.src.arrive (encode i) } := h
  obtain ⟨t, ht⟩ := (exec_asmRead_cases hs).resolve_right fun hf => hf.2 he
  obtain ⟨d, how, r⟩ := exists_reads hs ht
  refine ⟨t, d, hexec.trans ht, r.took.handed, r.took.remaining_finite he, ?_, ?_⟩
  · rw [r.signals]
    exact r.fed
  · rw [r.result]
    exact r.frame

end Sys2Proof.Machine
end

section
/-! PROOFS. O8, O23, O25, O27, O28 (R106, R97, R101, R102): harmless garbage, the marker pair, the header and the body of a frame as
runs of received bytes, and the region that a completed frame exposes. -/

namespace Sys2Proof.Machine

/-! ### Looking for a frame (R92, R93, R106) -/

theorem feed_cons_of_ok {a a' : Assembler} {b : Byte} {signal : Option Signal} (h : stepByte a b = .ok a' signal)
    (d : List Byte) : feed a (b :: d) = (feed a' d).prepend signal := by
  simp only [feed, h]

theorem feed_cons_of_seeking {a : Assembler} (h : a.seeking) (b : Byte) (d : List Byte) :
    feed a (b :: d) = feed { a with state := if b = Config.marker then .seekMarker2 else .seekMarker1 } d := by
  rw [feed_cons_of_ok (stepByte_of_seeking h b), Fed.prepend_none]

theorem feed_cons_of_seekMarker2 {a : Assembler} (h : a.state = .seekMarker2) (b : Byte) (d : List Byte) :
    feed a (b :: d) = feed (if b = Config.marker then a.enterHeader else { a with state := .seekMarker1 }) d := by
  rw [feed_cons_of_ok (stepByte_of_seekMarker2 h b), Fed.prepend_none]

/-- R92, R93: the marker pair. -/
theorem feed_marker_pair {a : Assembler} (h : a.seeking) (d : List Byte) :
    feed a (Config.marker :: Config.marker :: d) = feed a.enterHeader d := by
  rw [feed_cons_of_seeking h, if_pos rfl, feed_cons_of_seekMarker2 rfl, if_pos rfl]
  rfl

/-- R106: harmless garbage leaves a seeking assembler seeking. -/
theorem feed_harmless {a : Assembler} (h : a.seeking) :
    (g : List Byte) → harmlessGarbage g = true →
      ∃ st, (st = .seekMarker1 ∨ st = .completed) ∧ feed a g = .ok { a with state := st } []
  | [], _ => ⟨a.state, h, rfl⟩
  | [b], hg => by
    have hb : b ≠ Config.marker := by simpa [harmlessGarbage] using hg
    exact ⟨.seekMarker1, .inl rfl, by rw [feed_cons_of_seeking h, if_neg hb]; rfl⟩
  | b :: c :: g, hg => by
    simp only [harmlessGarbage, Bool.and_eq_true, Bool.not_eq_true', Bool.and_eq_false_imp, beq_iff_eq,
      beq_eq_false_iff_ne] at hg
    obtain ⟨hbc, hcg⟩ := hg
    rw [feed_cons_of_seeking h]
    by_cases hb : b = Config.marker
    · have hc : c ≠ Config.marker := hbc hb
      have hrest : harmlessGarbage g = true := by
        cases g with
        | nil => rfl
        | cons d g => exact (Bool.and_eq_true_iff.mp hcg).2
      rw [if_pos hb, feed_cons_of_seekMarker2 rfl, if_neg hc]
      exact feed_harmless (.inl rfl) g hrest
    · rw [if_neg hb]
      exact feed_harmless (.inl rfl) (c :: g) hcg

/-! ### A frame's header (R94, R95, R97) -/

/-- The two header bytes, behind the marker pair. -/
theorem feed_frame_header {a : Assembler} (h : a.seeking) (hcap : 3 ≤ a.cap) (id len : Byte) (body : List Byte) :
    feed a (Config.marker :: Config.marker :: id :: len :: body) =
      if len.toNat + 2 > a.cap then
        (feed { a with state := .seekMarker1, cursor := 2, buf := Memory.writeBytes a.buf 0 [id, len] } body).prepend
          (some .insufficientCapacity)
      else if len.toNat = 0 then
        (feed { a with state := .completed, cursor := 2, buf := Memory.writeBytes a.buf 0 [id, len] } body).prepend
          (some .done)
      else feed { a with state := .data, cursor := 2, buf := Memory.writeBytes a.buf 0 [id, len] } body := by
  rw [feed_marker_pair h, feed_cons_of_ok (stepByte_of_header_id (a := a.enterHeader) rfl hcap rfl id), Fed.prepend_none]
  have hlen := stepByte_of_header_length (a := { a.enterHeader with buf := Memory.write a.buf 0 id, cursor := 1 }) rfl hcap
    rfl len
  rw [show Assembler.cap { a.enterHeader with buf := _, cursor := 1 } = a.cap from rfl] at hlen
  by_cases hbig : len.toNat + 2 > a.cap
  · rw [if_pos hbig] at hlen ⊢
    exact feed_cons_of_ok hlen body
  · rw [if_neg hbig] at hlen ⊢
    by_cases hzero : len.toNat = 0
    · rw [if_pos hzero] at hlen ⊢
      exact feed_cons_of_ok hlen body
    · rw [if_neg hzero] at hlen ⊢
      exact (feed_cons_of_ok hlen body).trans (Fed.prepend_none _)

/-- Settles O8: a fresh assembler meets its first header right behind the marker pair. -/
theorem constructionGivesAFreshAssembler : Obligations.ConstructionGivesAFreshAssembler := by
  intro cap s
  refine ⟨fun h => ?_, fun h => ?_, Laws.EncodingFirstByte.asmNew cap, fun id len h => ?_, fun id len h => ?_⟩
  · rw [exec, execAsmNew, if_pos h]
  · rw [exec, execAsmNew, if_neg (Nat.not_lt.mpr h)]
    rfl
  · have hhead := feed_frame_header (a := Assembler.fresh cap) (.inl rfl) (by simp [h]) id len []
    rw [Assembler.fresh_cap] at hhead
    by_cases h2 : 2 ≤ len.toNat
    · rw [if_pos (by omega)] at hhead
      exact ⟨_, _, hhead, by simp [h2]⟩
    · rw [if_neg (by omega)] at hhead
      by_cases hzero : len.toNat = 0
      · rw [if_pos hzero] at hhead
        exact ⟨_, _, hhead, by simp [hzero]⟩
      · rw [if_neg hzero] at hhead
        exact ⟨_, _, hhead, by simp [h2]⟩
  · have hhead := feed_frame_header (a := Assembler.fresh cap) (.inl rfl) (by simp; omega) id len []
    have := len.isLt
    rw [Assembler.fresh_cap, if_neg (by omega)] at hhead
    by_cases hzero : len.toNat = 0
    · rw [if_pos hzero] at hhead
      exact ⟨_, _, hhead, by simp⟩
    · rw [if_neg hzero] at hhead
      exact ⟨_, _, hhead, by simp⟩

/-- Settles O23: behind the stray byte, the frame's second marker byte stands where the id is read, and its id where the length
is. -/
theorem strayMarkerByteLosesTheFrame : Obligations.StrayMarkerByteLosesTheFrame := by
  intro a g id h hseek hg
  obtain ⟨st, hst, hgarbage⟩ := feed_harmless hseek g hg
  have hhead := feed_frame_header (a := { a with state := st }) hst h.three_le_cap Config.marker id []
  have hread (j : Nat) : Memory.read? (Memory.writeBytes a.buf 0 [0xFF, id]) j =
      if j < 2 then [0xFF, id][j]? else Memory.read? a.buf j := by
    rw [Memory.read?_writeBytes]
    simp
  rw [List.append_assoc]
  by_cases hbig : id.toNat + 2 > a.cap
  · rw [if_pos hbig] at hhead
    exact ⟨_, _, feed_trans hgarbage hhead, hread 0, hread 1, rfl, by rw [if_pos hbig], by rw [if_pos hbig]; rfl⟩
  · rw [if_neg hbig] at hhead
    by_cases hzero : id.toNat = 0
    · have hid : id = 0 := BitVec.eq_of_toNat_eq hzero
      rw [if_pos hzero] at hhead
      exact ⟨_, _, feed_trans hgarbage hhead, hread 0, hread 1, rfl, by rw [if_neg hbig, if_pos hid],
        by rw [if_neg hbig, if_pos hid]; rfl⟩
    · have hid : id ≠ 0 := fun h0 => hzero (by rw [h0]; rfl)
      rw [if_neg hzero] at hhead
      exact ⟨_, _, feed_trans hgarbage hhead, hread 0, hread 1, rfl, by rw [if_neg hbig, if_neg hid],
        by rw [if_neg hbig, if_neg hid]; rfl⟩

/-- Settles O25: the header of a frame whose declared length is its body's. -/
theorem oversizedFrameIsRejectedAndRescanned : Obligations.OversizedFrameIsRejectedAndRescanned := by
  intro a id body h hseek hbody hbig
  have hhead := feed_frame_header hseek h.three_le_cap id (BitVec.ofNat 8 body.length) body
  rwa [toNat_ofNat8 hbody, if_pos hbig] at hhead

/-! ### A whole frame (R50, R63, R96) -/

/-- R50 in `buf`: the assembler has stored the region `r` from index 0 and is in `Completed`. -/
def Assembler.completedWith (a : Assembler) (r : List Byte) : Assembler :=
  { a with state := .completed, cursor := r.length, buf := Memory.writeBytes a.buf 0 r }

@[simp] theorem Assembler.completedWith_state (a : Assembler) (r : List Byte) : (a.completedWith r).state = .completed := rfl
@[simp] theorem Assembler.completedWith_cap (a : Assembler) (r : List Byte) : (a.completedWith r).cap = a.cap := rfl
@[simp] theorem Assembler.completedWith_withState (a : Assembler) (st : Tag) (r : List Byte) :
    Assembler.completedWith { a with state := st } r = a.completedWith r := rfl

/-- A received frame that fits. -/
theorem feed_frame {a : Assembler} (h : a.seeking) (hcap : 3 ≤ a.cap) (id : Byte) {len : Byte} {body : List Byte}
    (hlen : body.length = len.toNat) (hfit : body.length + 2 ≤ a.cap) :
    feed a (Config.marker :: Config.marker :: id :: len :: body) = .ok (a.completedWith (id :: len :: body)) [.done] := by
  rw [feed_frame_header h hcap, if_neg (by omega)]
  by_cases hzero : len.toNat = 0
  · obtain rfl : body = [] := List.length_eq_zero_iff.mp (hlen.trans hzero)
    rw [if_pos hzero]
    rfl
  · have hone : Memory.read? (Memory.writeBytes a.buf 0 [id, len]) 1 = some len := by
      rw [Memory.read?_writeBytes]
      simp
    have hend : 2 + body.length = len.toNat + 2 := by omega
    rw [if_neg hzero, feed_data rfl hone (le_refl 2) (by simp only; omega) body (by simp only; omega)
      (fun hnil => hzero (by rw [← hlen, hnil]; rfl))]
    simp only [if_pos hend, Assembler.completedWith, Fed.ok.injEq, and_true, List.length_cons]
    rw [show id :: len :: body = [id, len] ++ body from rfl, Memory.writeBytes_append, Nat.add_comm 2]
    simp

/-- R101: the region of a completed frame. -/
theorem exposed_completedWith (a : Assembler) (id : Byte) {len : Byte} {body : List Byte} (hlen : body.length = len.toNat) :
    (a.completedWith (id :: len :: body)).exposed = .bytes (id :: len :: body) := by
  have hread (j : Nat) (hj : j < (id :: len :: body).length) :
      Memory.read? (Memory.writeBytes a.buf 0 (id :: len :: body)) j = (id :: len :: body)[j]? := by
    rw [Memory.read?_writeBytes, if_pos (by omega), Nat.sub_zero]
  have hneed : (a.completedWith (id :: len :: body)).need? = some (len.toNat + 2) := by
    simp only [Assembler.need?, Assembler.completedWith, hread 1 (by simp), List.getElem?_cons_succ,
      List.getElem?_cons_zero, Option.map_some]
  have hbytes : Memory.readBytes? (a.completedWith (id :: len :: body)).buf 0 (len.toNat + 2) =
      some (id :: len :: body) :=
    Memory.readBytes?_eq_some.mpr ⟨by simp [hlen], fun k hk => by
      rw [Nat.zero_add]
      exact hread k (by simp only [List.length_cons]; omega)⟩
  simp only [Assembler.exposed, Assembler.completedWith_state, hneed, hbytes]

/-! ### The exposed frame (R101, R102) -/

/-- R20 in `Completed`: the frame is all there. -/
theorem Assembler.Inv.exposed_of_completed {a : Assembler} (h : a.Inv) (hst : a.state = .completed) :
    ∃ len r, Memory.read? a.buf 1 = some len ∧ r.length = len.toNat + 2 ∧
      (∀ k, k < r.length → Memory.read? a.buf k = r[k]?) ∧ a.exposed = .bytes r := by
  obtain ⟨-, hg⟩ := h
  simp only [Assembler.stage, hst, Assembler.need?] at hg
  cases hl : Memory.read? a.buf 1 with
  | none => simp [hl] at hg
  | some len =>
    simp only [hl, Option.map_some] at hg
    obtain ⟨-, -, hw⟩ := hg
    obtain ⟨r, hr⟩ := Memory.readBytes?_isSome (m := a.buf) (i := 0) (n := len.toNat + 2) (by simpa using hw)
    obtain ⟨hlen, hread⟩ := Memory.readBytes?_eq_some.mp hr
    refine ⟨len, r, rfl, hlen, fun k hk => by simpa using hread k (by omega), ?_⟩
    simp only [Assembler.exposed, hst, Assembler.need?, hl, Option.map_some, hr]

theorem exposed_of_not_completed {a : Assembler} (hst : a.state ≠ .completed) : a.exposed = .noFrame := by
  unfold Assembler.exposed
  split
  · next h => exact absurd h hst
  all_goals rfl

/-- A read of a region that is not there is refused. -/
theorem State.withRegion_of_noFrame {s : State} {ref : RegionRef} (h : s.view ref = .noFrame)
    (k : List Byte → StepOutcome) : s.withRegion ref k = .refused .noFrame := by
  simp only [State.withRegion, h]

theorem exec_asmFrame_of_exposed {s : State} {r : List Byte} (h : s.asm.exposed = .bytes r) :
    exec .asmFrame s = .next { s with result := some (.ok (.bytes r)) } := by
  simp only [exec, execAsmFrame, h, State.deliver]

/-- Settles O27: `Completed` has the whole region written, and the region's length is the declared one's. -/
theorem exposedFrameIsExactlyTheRegion : Obligations.ExposedFrameIsExactlyTheRegion := by
  intro s h
  refine ⟨fun hst => ?_, fun hst i hi => ?_, fun v off bs => ⟨rfl, rfl, rfl, rfl⟩, Laws.EncodingFirstByte.asmFrame⟩
  · obtain ⟨len, r, hl, hlen, hread, hexp⟩ := Assembler.Inv.exposed_of_completed h hst
    have hone : r[1]? = some len := by rw [← hread 1 (by omega), hl]
    refine ⟨len, r, hl, hlen, hread, exec_asmFrame_of_exposed hexp, hexp, fun hzero => .inl ⟨by omega, rfl⟩,
      fun hpos => ⟨by omega, hone, hpos, by omega⟩⟩
  · have hexp : s.view .frame = .noFrame := exposed_of_not_completed hst
    simp only [List.mem_cons, List.not_mem_nil, or_false] at hi
    rcases hi with rfl | rfl | rfl | rfl | rfl | rfl
    · have hnone : s.asm.exposed = .noFrame := hexp
      simp only [exec, execAsmFrame, hnone]
    all_goals exact State.withRegion_of_noFrame hexp _

/-- R20, last item, for a run of received bytes: if it ends in `Completed`, its last byte signalled `Done`. -/
theorem done_mem_of_feed_completed {a a' : Assembler} {d : List Byte} {sig : List Signal} (h : a.Inv) (hne : d ≠ [])
    (hf : feed a d = .ok a' sig) (hst : a'.state = .completed) :
    ∃ a'' sig', feed a d.dropLast = .ok a'' sig' ∧ sig = sig' ++ [.done] := by
  rw [← List.dropLast_concat_getLast hne] at hf
  obtain ⟨mid, sig', sig₂, hd, hb, rfl⟩ := exists_feed_of_append hf
  refine ⟨mid, sig', hd, ?_⟩
  obtain ⟨b, signal, hs, -, -⟩ := stepByte_inv (h.feed hd).1 (d.getLast hne)
  rw [feed_cons_of_ok hs] at hb
  obtain ⟨rfl, rfl⟩ : b = a' ∧ signal.toList = sig₂ := by simpa [feed, Fed.prepend] using hb
  rw [(completedOnlyAfterTheLastByte mid _ b signal (h.feed hd).1 hs).1.mp hst]
  rfl

/-- Settles O28: no byte leaves the assembler as it is, and a poll that ends in `Completed` after some byte has signalled
`Done`. -/
theorem emptyPollKeepsTheFrameExposed : Obligations.EmptyPollKeepsTheFrameExposed := by
  intro s t h _ ht
  obtain ⟨d, how, r⟩ := exists_reads h ht
  have hd : t.src.handed = s.src.handed ↔ d = [] := by rw [r.took.handed, List.append_right_eq_self]
  refine ⟨fun hnone => ?_, fun hsome hst => ?_⟩
  · have hfed := r.fed
    rw [hd.mp hnone] at hfed
    exact (Fed.ok.inj hfed).1.symm
  · obtain ⟨a, sig, -, hsig⟩ := done_mem_of_feed_completed h (mt hd.mpr hsome) r.fed hst
    have hlast : (endSignals how).getLast? = some .done := by
      rw [hsig]
      exact List.getLast?_concat
    rw [r.result]
    cases how with
    | frameDone => rfl
    | _ => simp [endSignals] at hlast

end Sys2Proof.Machine
end

section
/-! PROOFS. O20 to O22, O24 (R105, R106): what a run of polls reports is fixed by the bytes it takes, the frame behind harmless
garbage is what is reported first, and a source that answers at once gives that frame to one poll. -/

namespace Sys2Proof.Machine

/-! ### The events of a run of received bytes (R105) -/

/-- What `ASM.STEP` reports over a run of bytes, where `position` bytes came before it. -/
def feedEvents (position : Nat) (a : Assembler) : List Byte → List Event
  | [] => []
  | b :: bs =>
    match stepByte a b with
    | .fault _ => []
    | .ok a' signal =>
      signal.toList.map (Event.mk (position + 1) · a'.exposed) ++ feedEvents (position + 1) a' bs

theorem feedEvents_cons_of_ok {a a' : Assembler} {b : Byte} {signal : Option Signal} (h : stepByte a b = .ok a' signal)
    (position : Nat) (d : List Byte) :
    feedEvents position a (b :: d) =
      signal.toList.map (Event.mk (position + 1) · a'.exposed) ++ feedEvents (position + 1) a' d := by
  simp only [feedEvents, h]

/-- A run that answers, byte by byte. -/
theorem exists_stepByte_of_feed_cons {a a'' : Assembler} {b : Byte} {d : List Byte} {sig : List Signal}
    (h : feed a (b :: d) = .ok a'' sig) :
    ∃ a' signal sig', stepByte a b = .ok a' signal ∧ feed a' d = .ok a'' sig' ∧ sig = signal.toList ++ sig' := by
  cases hs : stepByte a b with
  | fault f => simp [feed, hs] at h
  | ok a' signal =>
    rw [feed_cons_of_ok hs] at h
    cases hd : feed a' d with
    | fault f => simp [hd, Fed.prepend] at h
    | ok b sig' =>
      simp only [hd, Fed.prepend, Fed.ok.injEq] at h
      obtain ⟨rfl, rfl⟩ := h
      exact ⟨a', signal, sig', rfl, hd, rfl⟩

theorem feedEvents_append {a a' : Assembler} {d : List Byte} {sig : List Signal} (h : feed a d = .ok a' sig)
    (position : Nat) (e : List Byte) :
    feedEvents position a (d ++ e) = feedEvents position a d ++ feedEvents (position + d.length) a' e := by
  induction d generalizing a sig position with
  | nil =>
    cases h
    rfl
  | cons b d ih =>
    obtain ⟨mid, signal, sig', hs, hd, -⟩ := exists_stepByte_of_feed_cons h
    rw [List.cons_append, feedEvents_cons_of_ok hs, feedEvents_cons_of_ok hs, ih hd, List.append_assoc, List.length_cons,
      Nat.add_comm d.length, Nat.add_assoc]

theorem feedEvents_of_quiet {a a' : Assembler} {d : List Byte} (h : feed a d = .ok a' []) (position : Nat) :
    feedEvents position a d = [] := by
  induction d generalizing a position with
  | nil => rfl
  | cons b d ih =>
    obtain ⟨mid, signal, sig', hs, hd, hsig⟩ := exists_stepByte_of_feed_cons h
    obtain ⟨hnone, rfl⟩ := List.nil_eq_append_iff.mp hsig
    rw [feedEvents_cons_of_ok hs, hnone, ih hd]
    rfl

/-- Where only the last byte can have signalled, its signals are reported behind it. -/
theorem feedEvents_of_last {a a' a'' : Assembler} {d : List Byte} {sig : List Signal} (h : feed a d = .ok a' sig)
    (quiet : feed a d.dropLast = .ok a'' []) (position : Nat) :
    feedEvents position a d = sig.map (Event.mk (position + d.length) · a'.exposed) := by
  rcases List.eq_nil_or_concat' d with rfl | ⟨d, b, rfl⟩
  · cases h
    rfl
  · rw [List.dropLast_concat] at quiet
    obtain ⟨mid, sig₁, sig₂, hd, hb, rfl⟩ := exists_feed_of_append h
    cases hd.symm.trans quiet
    obtain ⟨_, signal, sig', hs, hnil, rfl⟩ := exists_stepByte_of_feed_cons hb
    cases hnil
    rw [feedEvents_append hd, feedEvents_of_quiet hd, feedEvents_cons_of_ok hs, feedEvents, List.length_append]
    simp [Nat.add_assoc]

/-! ### A run of polls (R181) -/

/-- A run of polls reports what `ASM.STEP` reports over the bytes it takes. -/
theorem pollRun_spec {s s' : State} {start position n : Nat} {events : List Event} (h : s.Inv)
    (hpos : s.src.handed.length = start + position) (hr : pollRun start n s = some (s', events)) :
    ∃ d sig, Took s.src s'.src d ∧ feed s.asm d = .ok s'.asm sig ∧ events = feedEvents position s.asm d := by
  induction n generalizing s position events with
  | zero =>
    cases hr
    exact ⟨[], [], Took.refl _, rfl, rfl⟩
  | succ n ih =>
    rw [pollRun] at hr
    cases ht : execAsmRead s with
    | fault f => simp [ht] at hr
    | refused q => simp [ht] at hr
    | next t =>
      simp only [ht] at hr
      obtain ⟨d, how, r⟩ := exists_reads h ht
      have hlen : t.src.handed.length = start + (position + d.length) := by
        rw [r.took.handed, List.length_append, hpos, Nat.add_assoc]
      cases hrest : pollRun start n t with
      | none => simp [hrest] at hr
      | some p =>
        obtain ⟨u, later⟩ := p
        simp only [hrest, Option.some.injEq, Prod.mk.injEq] at hr
        obtain ⟨rfl, rfl⟩ := hr
        obtain ⟨e, sig, took, fed, rfl⟩ := ih (r.inv h) hlen hrest
        obtain ⟨a, hquiet⟩ := r.quiet
        refine ⟨d ++ e, _, r.took.trans took, feed_trans r.fed fed, ?_⟩
        rw [feedEvents_append r.fed, feedEvents_of_last r.fed hquiet, r.signals, hlen, Nat.add_sub_cancel_left]

/-- A line with one frame of no payload byte, and what a poll makes of it when the bytes come at once, and when the source first
says `WouldBlock`. -/
def cutLine (script : List SrcChoice) : State :=
  { State.reset with
    src := { handed := [], waiting := [0xFF, 0xFF, 0x01, 0x01, 0xFD], script := script, endless := none } }

/-- Settles O20: both runs report what `ASM.STEP` reports over the same bytes; the single poll's result is another when the
source answers with `WouldBlock` before the frame. -/
theorem resultsDoNotDependOnTheCutting : Obligations.ResultsDoNotDependOnTheCutting := by
  refine ⟨fun s t s' t' m n es et d h hasm hrs hrt hs ht => ?_, ?_⟩
  · obtain ⟨ds, _, tooks, feds, rfl⟩ := pollRun_spec (position := 0) h rfl hrs
    obtain ⟨dt, _, tookt, fedt, rfl⟩ := pollRun_spec (position := 0) (s := t) (by rw [State.Inv, ← hasm]; exact h) rfl hrt
    obtain rfl : ds = d := List.append_cancel_left (tooks.handed.symm.trans hs)
    obtain rfl : dt = ds := List.append_cancel_left (tookt.handed.symm.trans ht)
    rw [hasm] at feds ⊢
    exact ⟨(Fed.ok.inj (feds.symm.trans fedt)).1, rfl⟩
  · refine ⟨cutLine [], cutLine [{ arriving := [], reply := .wouldBlock }], _, _, Tests.witness_inv_reset, rfl, rfl, rfl, rfl,
      ?_⟩
    decide

/-! ### The frame behind harmless garbage (R106) -/

theorem exists_of_properRegion {r : List Byte} (h : properRegion r = true) :
    ∃ id len body, r = id :: len :: body ∧ body.length = len.toNat := by
  obtain ⟨-, hlen⟩ : 1 ≤ declaredLength r ∧ r.length = declaredLength r + 2 := by simpa [properRegion] using h
  match r, hlen with
  | id :: len :: body, hlen => exact ⟨id, len, body, rfl, by simpa [declaredLength] using hlen⟩

section
variable {a : Assembler} (h : a.Inv) (hseek : a.seeking) {g body : List Byte} {len : Byte}
  (hg : harmlessGarbage g = true) (id : Byte) (hlen : body.length = len.toNat) (hfit : body.length + 2 ≤ a.cap)
include h hseek hg hlen hfit

/-- Garbage and a frame that fits. -/
theorem feed_garbage_frame :
    feed a (g ++ Config.marker :: Config.marker :: id :: len :: body) =
      .ok (a.completedWith (id :: len :: body)) [.done] := by
  obtain ⟨st, hst, hgarbage⟩ := feed_harmless hseek g hg
  exact feed_trans hgarbage (feed_frame (a := { a with state := st }) hst h.three_le_cap id hlen hfit)

/-- Nothing is signalled before the frame's last byte. -/
theorem feed_garbage_frame_quiet :
    ∃ a', feed a (g ++ Config.marker :: Config.marker :: id :: len :: body).dropLast = .ok a' [] := by
  obtain ⟨a', sig, hquiet, hsig⟩ :=
    done_mem_of_feed_completed h (by simp) (feed_garbage_frame h hseek hg id hlen hfit) rfl
  obtain rfl : sig = [] := by simpa using hsig
  exact ⟨a', hquiet⟩

end

/-- Two first parts of one line: the first is shorter than the second, which goes on from it, or it goes on from the second. -/
theorem append_overlap_cases {d w x y : List Byte} (h : d ++ x = w ++ y) :
    (d.length < w.length ∧ ∃ e, w.dropLast = d ++ e) ∨ ∃ e, d = w ++ e := by
  rcases List.append_eq_append_iff.mp h with ⟨e, hw, -⟩ | ⟨e, hd, -⟩
  · by_cases he : e = []
    · exact .inr ⟨[], by simp [hw, he]⟩
    · have := List.length_pos_iff.mpr he
      exact .inl ⟨by simp [hw]; omega, e.dropLast, by rw [hw, List.dropLast_append_of_ne_nil he]⟩
  · exact .inr ⟨e, hd⟩

/-- Settles O21: what the polls took is a part of the garbage and the frame, which signals nothing, or goes on behind them. -/
theorem frameIsFoundAfterHarmlessGarbage : Obligations.FrameIsFoundAfterHarmlessGarbage := by
  intro s t g r tail n events h hseek hg hr hfit hline hrun
  obtain ⟨id, len, body, rfl, hlen⟩ := exists_of_properRegion hr
  have hall := feed_garbage_frame h hseek hg id hlen hfit
  obtain ⟨a', hquiet⟩ := feed_garbage_frame_quiet h hseek hg id hlen hfit
  obtain ⟨d, sig, took, fed, rfl⟩ := pollRun_spec (position := 0) h rfl hrun
  obtain ⟨more, hmore, -⟩ := took.remaining
  rw [show s.src.remaining = (g ++ Config.marker :: Config.marker :: id :: len :: body) ++ tail from hline,
    List.append_assoc] at hmore
  have hhanded : t.src.handed.length = s.src.handed.length + d.length := by rw [took.handed, List.length_append]
  have hw : (g ++ Config.marker :: Config.marker :: id :: len :: body).length =
      g.length + ((id :: len :: body).length + 2) := by simp
  rcases append_overlap_cases hmore.symm with ⟨hlt, e, he⟩ | ⟨e, rfl⟩
  · rw [if_pos (by omega)]
    rw [he] at hquiet
    obtain ⟨b, hd⟩ := feed_quiet_of_append hquiet
    exact feedEvents_of_quiet hd 0
  · rw [List.length_append] at hhanded
    rw [if_neg (by omega), feedEvents_append hall, feedEvents_of_last hall hquiet,
      exposed_completedWith _ id hlen, hw]
    simp

/-! ### A source that answers at once (entry 8) -/

/-- The source after `w`, with `tail` waiting. -/
def Source.past (src : Source) (w tail : List Byte) : Source :=
  { src with handed := src.handed ++ w, waiting := tail }

theorem Source.past_past (src : Source) (w w' tail tail' : List Byte) :
    (src.past w tail).past w' tail' = src.past (w ++ w') tail' := by
  simp [Source.past]

theorem Source.read_past {n : Nat} {src : Source} {d rest : List Byte} (hscript : src.script = [])
    (hwait : src.waiting = d ++ rest) (hd : d.length = n) (hn : 0 < n) :
    src.read n = (.bytes d, src.past d rest) := by
  subst hd
  rw [Source.read_prompt hscript hn (by simp [hwait])]
  simp [hwait, Source.hand, Source.past]

/-- A trip leaves the source that its one request leaves (R34), so this is what it has taken. -/
theorem took_of_turn {a a' : Assembler} {src mid src' : Source} {d e : List Byte} {t : Turn} (h : a.Inv)
    (hturn : turn a src = t) (ht : t.Leaves a' mid) (hread : src.read a.requestSize = (.bytes d, src'))
    (took : Took src mid e) : mid = src' ∧ e = d := by
  obtain ⟨b, hleaves, -⟩ := turn_makesRequest h src
  have hmid : mid = src' := by
    rw [hturn, hread] at hleaves
    rcases ht with rfl | ⟨how, rfl⟩ <;> rcases hleaves with hl | ⟨how', hl⟩ <;> cases hl <;> rfl
  obtain ⟨hspec, -⟩ := Source.read_spec a.requestSize src
  rw [hread] at hspec
  subst hmid
  exact ⟨rfl, List.append_cancel_left (took.handed.symm.trans hspec.handed)⟩

/-- A trip whose request is answered in full, in terms of `ASM.STEP` over the answer `d`. -/
inductive FullTurn (a : Assembler) (d : List Byte) (src : Source) : Turn → Prop where
  | signalled {a' : Assembler} {how : PollEnd} {signal : Signal} (fed : feed a d = .ok a' [signal])
      (how_eq : endSignals how = [signal]) : FullTurn a d src (.ended a' src how)
  | onward {a' : Assembler} (fed : feed a d = .ok a' []) : FullTurn a d src (.again a' src)
  | emptyFrame {a' : Assembler} (fed : feed a d = .ok a' [.done]) (need : a'.need? = some a'.cursor)
      (state : a'.state = .completed) : FullTurn a d src (.again { a' with state := .data } src)

theorem turn_full {a : Assembler} {src : Source} {d rest : List Byte} (h : a.Inv) (hscript : src.script = [])
    (hwait : src.waiting = d ++ rest) (hd : d.length = a.requestSize) : FullTurn a d (src.past d rest) (turn a src) := by
  have hread := Source.read_past hscript hwait hd (requestSize_pos h)
  have hspec := turn_spec h src
  cases hturn : turn a src with
  | fault f => rw [hturn] at hspec; cases hspec
  | ended b mid how =>
    rw [hturn] at hspec
    cases hspec with
    | idle took _ =>
      obtain ⟨-, rfl⟩ := took_of_turn h hturn (.inr ⟨how, rfl⟩) hread took
      exact absurd (requestSize_pos h) (by simp [← hd])
    | signalled took _ _ fed hhow =>
      obtain ⟨rfl, rfl⟩ := took_of_turn h hturn (.inr ⟨how, rfl⟩) hread took
      exact .signalled fed hhow
  | again b mid =>
    rw [hturn] at hspec
    cases hspec with
    | onward took _ _ fed =>
      obtain ⟨rfl, rfl⟩ := took_of_turn h hturn (.inl rfl) hread took
      exact .onward fed
    | emptyFrame took _ _ fed need hst =>
      obtain ⟨rfl, rfl⟩ := took_of_turn h hturn (.inl rfl) hread took
      exact .emptyFrame fed need hst

/-- A run that signals only with its last byte: after a part that signals nothing, so does the rest. -/
theorem feed_last_rest {a b a' a'' : Assembler} {d w : List Byte} {signal : Signal} (hd : feed a d = .ok b [])
    (fed : feed a (d ++ w) = .ok a' [signal]) (quiet : feed a (d ++ w).dropLast = .ok a'' []) :
    feed b w = .ok a' [signal] ∧ feed b w.dropLast = .ok a'' [] := by
  obtain ⟨c, sig₁, sig₂, hc, hw, hsig⟩ := exists_feed_of_append fed
  obtain ⟨rfl, rfl⟩ := Fed.ok.inj (hd.symm.trans hc)
  obtain rfl : [signal] = sig₂ := hsig
  have hne : w ≠ [] := by
    rintro rfl
    simp [feed] at hw
  rw [List.dropLast_append_of_ne_nil hne] at quiet
  obtain ⟨e, sig₁, sig₂, he, hq, hsig⟩ := exists_feed_of_append quiet
  obtain ⟨rfl, rfl⟩ := Fed.ok.inj (hd.symm.trans he)
  obtain rfl : [] = sig₂ := hsig
  exact ⟨hw, hq⟩

/-- The same run: a part that signals is all of it. -/
theorem eq_nil_of_feed_last {a b a'' : Assembler} {d w : List Byte} {signal : Signal} (hd : feed a d = .ok b [signal])
    (quiet : feed a (d ++ w).dropLast = .ok a'' []) : w = [] := by
  by_contra hne
  rw [List.dropLast_append_of_ne_nil hne] at quiet
  obtain ⟨c, hc⟩ := feed_quiet_of_append quiet
  simp [hd] at hc

/-- Where the bytes that wait signal `Done` with the last byte of `w`, a source that answers at once hands over exactly `w`: no
request reaches behind it. -/
theorem poll_prompt {n : Nat} {a a' a'' : Assembler} {src : Source} {w tail : List Byte} (h : a.Inv)
    (hscript : src.script = []) (hwait : src.waiting = w ++ tail) (fed : feed a w = .ok a' [.done])
    (quiet : feed a w.dropLast = .ok a'' []) (hn : w.length < n) :
    poll n a src = .ended a' (src.past w tail) .frameDone := by
  induction n generalizing a src w with
  | zero => omega
  | succ n ih =>
    have hsize : a.requestSize ≤ w.length := by
      by_contra hlt
      obtain ⟨b, hb⟩ := feed_quiet h (Nat.lt_of_not_le hlt)
      simp [hb] at fed
    obtain ⟨d, w', rfl, hd⟩ : ∃ d w', w = d ++ w' ∧ d.length = a.requestSize :=
      ⟨w.take a.requestSize, w.drop a.requestSize, (List.take_append_drop _ _).symm, by simp [hsize]⟩
    rw [List.append_assoc] at hwait
    have hpos := requestSize_pos h
    have hfull := turn_full h hscript hwait hd
    cases hturn : turn a src with
    | fault f => rw [hturn] at hfull; cases hfull
    | ended b mid how =>
      rw [hturn] at hfull
      rw [poll_of_ended hturn]
      cases hfull with
      | signalled hfed hhow =>
        obtain rfl := eq_nil_of_feed_last hfed quiet
        rw [List.append_nil, hfed, Fed.ok.injEq, ← hhow] at fed
        obtain ⟨rfl, hdone⟩ := fed
        cases how <;> simp [endSignals] at hdone ⊢
    | again b mid =>
      rw [hturn] at hfull
      rw [poll_of_again hturn]
      cases hfull with
      | onward hfed =>
        obtain ⟨hw, hq⟩ := feed_last_rest hfed fed quiet
        rw [List.length_append] at hn
        rw [ih (src := src.past d (w' ++ tail)) (h.feed hfed).1 hscript rfl hw hq (by omega), Source.past_past]
      | emptyFrame hfed hneed hst =>
        obtain rfl := eq_nil_of_feed_last hfed quiet
        rw [List.append_nil] at fed hn ⊢
        obtain ⟨rfl, -⟩ := Fed.ok.inj (hfed.symm.trans fed)
        obtain ⟨m, rfl⟩ : ∃ m, n = m + 1 := Nat.exists_eq_add_one.mpr (by omega)
        exact poll_of_ended (turn_of_emptyFrame hneed hst _)

/-- A frame that waits behind harmless garbage is what one poll of a source that answers at once gives. -/
theorem exec_asmRead_frame {s : State} {g body tail : List Byte} {id len : Byte} (h : s.Inv) (hseek : s.asm.seeking)
    (hg : harmlessGarbage g = true) (hlen : body.length = len.toNat) (hfit : body.length + 2 ≤ s.asm.cap)
    (hscript : s.src.script = [])
    (hwait : s.src.waiting = (g ++ Config.marker :: Config.marker :: id :: len :: body) ++ tail) :
    exec .asmRead s =
      .next { s with
        asm := s.asm.completedWith (id :: len :: body)
        src := s.src.past (g ++ Config.marker :: Config.marker :: id :: len :: body) tail
        result := some (.ok (.flag true)) } := by
  obtain ⟨a', hquiet⟩ := feed_garbage_frame_quiet h hseek hg id hlen hfit
  have hfuel := remaining_lt_pollFuel s.src
  rw [Source.remaining, hwait, List.length_append, List.length_append] at hfuel
  exact exec_asmRead_of_poll
    (poll_prompt h hscript hwait (feed_garbage_frame h hseek hg id hlen hfit) hquiet (by omega))

/-- Settles O22: the frame's region is what `Completed` exposes. -/
theorem promptPollReturnsTheFrame : Obligations.PromptPollReturnsTheFrame := by
  intro s g r tail h hseek hg hr hfit hscript hwait
  obtain ⟨id, len, body, rfl, hlen⟩ := exists_of_properRegion hr
  exact ⟨_, exec_asmRead_frame h hseek hg hlen hfit hscript hwait, rfl, exposed_completedWith _ id hlen,
    rfl, rfl⟩

/-- R50: the rows other than the marker byte are frames whose length byte is the length of their body. -/
theorem length_of_encode_frame {i : Instr} {id len : Byte} {body : List Byte} (hi : isWire i = true) (hwf : i.wf = true)
    (henc : encode i = Config.marker :: Config.marker :: id :: len :: body) : body.length = len.toNat := by
  have wire {id' : Byte} {body' : List Byte} (hlen : body'.length ≤ 255)
      (he : wireBytes id' body' = Config.marker :: Config.marker :: id :: len :: body) : body.length = len.toNat := by
    obtain ⟨-, rfl, rfl⟩ : id' = id ∧ BitVec.ofNat 8 body'.length = len ∧ body' = body := by
      simpa [wireBytes] using he
    rw [toNat_ofNat8 hlen]
  cases i with
  | wireMarkerByte => simp [encode] at henc
  | wireFrame id' body' =>
    simp only [Instr.wf, Bool.and_eq_true, decide_eq_true_eq] at hwf
    exact wire hwf.1.1 henc
  | wireReadReg => exact wire (by simp) henc
  | wireWriteReg id' address data checksum =>
    have hdata : data.length ≤ 252 := by simpa [Instr.wf] using hwf
    exact wire (by simp only [List.length_cons, List.length_append, List.length_nil]; omega) henc
  | _ => simp [isWire] at hi

/-- Settles O24: the row's bytes arrive on an empty line, and the poll takes them all. -/
theorem wireFrameCompletesFromSeeking : Obligations.WireFrameCompletesFromSeeking := by
  intro i s id len body hi hwf henc h hseek hwait hscript hfit
  have hlen := length_of_encode_frame hi hwf henc
  have hread := exec_asmRead_frame (s := { s with src := s.src.arrive (encode i) }) (g := []) (id := id)
    (tail := []) h hseek rfl hlen hfit hscript (by simp [hwait, henc, Config.marker])
  refine ⟨hlen, _, (exec_of_isWire hi s).trans hread, ?_, exposed_completedWith _ id hlen⟩
  simp [Source.past, Assembler.completedWith, Source.arrive, hwait, henc, Config.marker]

end Sys2Proof.Machine
end

section
/-! PROOFS. O6, O7, O50 to O54, O58: what each instruction, a step and reset keep of the block's state, of the line and of the
requests (R4, R11, R20, R30, R35), and lines that never run dry (R107, U7). -/

namespace Sys2Proof.Machine

/-! ### The operations that leave the assembler alone -/

/-- Everything an operation that neither constructs nor receives can do: it leaves the block, the line and the requests as they
are, or it is refused; it faults only where a byte of the exposed frame was never written. -/
inductive Operation (s : State) : StepOutcome → Prop where
  | next {t : State} (asm : t.asm = s.asm) (src : t.src = s.src) (requests : t.requests = s.requests) :
      Operation s (.next t)
  | refused {q : Refusal} : Operation s (.refused q)
  | unwritten (h : s.asm.exposed = .unwritten) : Operation s (.fault .unwrittenByte)

theorem Operation.deliver (s : State) (v : Value) : Operation s (s.deliver v) := .next rfl rfl rfl

theorem Operation.deliver_putRegion (s : State) (ref : RegionRef) (r : List Byte) (v : Value) :
    Operation s ((s.putRegion ref r).deliver v) :=
  .next (s.putRegion_asm ref r) (s.putRegion_src ref r) (s.putRegion_requests ref r)

theorem Operation.guarded {s : State} {k : StepOutcome} (h : Operation s k) (e : Option FrameError) :
    Operation s (s.guarded e k) := by
  cases e with
  | none => exact h
  | some e => exact .next rfl rfl rfl

theorem Operation.withRegion {s : State} {k : List Byte → StepOutcome} (h : ∀ r, Operation s (k r)) (ref : RegionRef) :
    Operation s (s.withRegion ref k) := by
  cases hv : s.view ref with
  | bytes r => exact State.withRegion_of_view hv k ▸ h r
  | noFrame => exact State.withRegion_of_noFrame hv k ▸ .refused
  | unwritten =>
    cases ref with
    | operand => cases hv
    | image => cases hv
    | frame =>
      simp only [State.withRegion, hv]
      exact .unwritten hv

theorem Operation.withMutable {s : State} {k : List Byte → StepOutcome} (h : ∀ r, Operation s (k r)) (ref : RegionRef) :
    Operation s (s.withMutable ref k) := by
  cases ref with
  | operand => exact h _
  | image => exact h _
  | frame => exact .refused

theorem exec_operation {i : Instr} (h : writesAssembler i = false) (s : State) : Operation s (exec i s) := by
  cases i with
  | wireMarkerByte => cases h
  | wireFrame => cases h
  | wireReadReg => cases h
  | wireWriteReg => cases h
  | asmNew => cases h
  | asmRead => cases h
  | asmFrame =>
    simp only [exec, execAsmFrame]
    cases hexp : s.asm.exposed with
    | bytes r => exact .deliver s _
    | noFrame => exact .refused
    | unwritten => exact .unwritten hexp
  | frameId ref => exact .withRegion (fun r => (Operation.deliver s _).guarded _) ref
  | frameLength ref => exact .withRegion (fun r => (Operation.deliver s _).guarded _) ref
  | framePayload ref => exact .withRegion (fun r => (Operation.deliver s _).guarded _) ref
  | frameChecksum ref => exact .withRegion (fun r => (Operation.deliver s _).guarded _) ref
  | frameVerify ref => exact .withRegion (fun r => (Operation.deliver s _).guarded _) ref
  | frameSetId ref v =>
    rw [exec, execFrameSetId]
    exact .withMutable (fun r => (Operation.deliver_putRegion s ref _ _).guarded _) ref
  | frameSetLength ref v =>
    rw [exec, execFrameSetLength]
    exact .withMutable (fun r => (Operation.deliver_putRegion s ref _ _).guarded _) ref
  | framePayloadMut ref off v =>
    rw [exec, execFramePayloadMut]
    refine .withMutable (fun r => Operation.guarded ?_ _) ref
    split
    · exact .deliver_putRegion s ref _ _
    · exact .refused
  | frameUpdateChecksum ref =>
    rw [exec, execFrameUpdateChecksum]
    exact .withMutable (fun r => (Operation.deliver_putRegion s ref _ _).guarded _) ref
  | buildReadReg => exact .next rfl rfl rfl
  | buildWriteReg =>
    simp only [exec, execBuildWriteReg]
    split
    · exact .refused
    · exact .next rfl rfl rfl
  | frameEncode =>
    simp only [exec, execFrameEncode]
    split
    · exact .refused
    · exact .next rfl rfl rfl

/-- R90: what construction can do. -/
theorem exec_asmNew_cases (cap : Nat) (s : State) :
    (cap < 3 ∧ exec (.asmNew cap) s = .refused .capacityTooSmall) ∨
      (3 ≤ cap ∧ exec (.asmNew cap) s = .next { s with asm := Assembler.fresh cap, result := some (.ok .unit) }) := by
  obtain ⟨hsmall, hlarge, -⟩ := constructionGivesAFreshAssembler cap s
  rcases Nat.lt_or_ge cap 3 with h | h
  · exact .inl ⟨h, hsmall h⟩
  · exact .inr ⟨h, hlarge h⟩

/-- Reception, construction, and the rest. -/
theorem instr_cases (i : Instr) :
    (i = .asmRead ∨ isWire i = true) ∨ (∃ cap, i = .asmNew cap) ∨ writesAssembler i = false := by
  cases i with
  | asmNew cap => exact .inr (.inl ⟨cap, rfl⟩)
  | asmRead => exact .inl (.inl rfl)
  | wireMarkerByte => exact .inl (.inr rfl)
  | wireFrame => exact .inl (.inr rfl)
  | wireReadReg => exact .inl (.inr rfl)
  | wireWriteReg => exact .inl (.inr rfl)
  | _ => exact .inr (.inr rfl)

/-! ### A step (R2) -/

/-- Settles O6: the request's bytes are decoded, and what they decode to decides. -/
theorem stepRunsTheNextRequest : Obligations.StepRunsTheNextRequest := by
  refine ⟨fun s w later i rest hr hd => ?_, fun s w later e hr hd => ?_, fun s hr => ?_⟩
  · simp only [step, runNext, hr, runRequest, hd]
  · simp only [step, runNext, hr, runRequest, hd]
  · simp only [step, runNext, hr]

/-- Everything a step can do. -/
theorem step_cases (s : State) :
    step s = .next s ∨ (∃ q, step s = .refused q) ∨
      ∃ w later i rest, s.requests = w :: later ∧ decode w = .instr i rest ∧
        step s = exec i { s with requests := later } := by
  obtain ⟨hrun, hreject, hidle⟩ := stepRunsTheNextRequest
  cases hr : s.requests with
  | nil => exact .inl (hidle s hr)
  | cons w later =>
    cases hd : decode w with
    | instr i rest => exact .inr (.inr ⟨w, later, i, rest, rfl, hd, hrun s w later i rest hr hd⟩)
    | rejected e => exact .inr (.inl ⟨_, hreject s w later e hr hd⟩)

/-- Settles O7: the fresh assembler of `State.reset` has written nothing. -/
theorem resetMeetsTheInvariant : Obligations.ResetMeetsTheInvariant :=
  ⟨Tests.witness_inv_reset, rfl, rfl, rfl, fun i => Memory.read?_nil i⟩

/-! ### The invariant (R20) -/

theorem fresh_inv {cap : Nat} (h : 3 ≤ cap) : (Assembler.fresh cap).Inv :=
  ⟨⟨h, rfl, nofun, Nat.zero_le _, Nat.zero_le _⟩, trivial⟩

theorem exec_inv {i : Instr} {s t : State} (h : s.Inv) (ht : exec i s = .next t) : t.Inv := by
  rcases instr_cases i with hi | ⟨cap, rfl⟩ | hi
  · obtain ⟨src, hexec, -, -⟩ := exists_poll_of_reception hi s
    have hs : State.Inv { s with src := src } := h
    obtain ⟨d, how, r⟩ := exists_reads hs (hexec ▸ ht)
    exact r.inv hs
  · rcases exec_asmNew_cases cap s with ⟨-, he⟩ | ⟨hcap, he⟩
    · cases he.symm.trans ht
    · cases he.symm.trans ht
      exact fresh_inv hcap
  · have hop := exec_operation hi s
    rw [ht] at hop
    obtain ⟨hasm, -, -⟩ := hop
    rw [State.Inv, hasm]
    exact h

/-- Settles O50: a poll goes through `ASM.STEP`, construction is fresh, and nothing else writes the assembler. -/
theorem stepKeepsTheInvariant : Obligations.StepKeepsTheInvariant := by
  intro s t h ht
  rcases step_cases s with hs | ⟨q, hs⟩ | ⟨w, later, i, rest, -, -, hs⟩
  · cases hs.symm.trans ht
    exact h
  · cases hs.symm.trans ht
  · exact exec_inv (s := { s with requests := later }) h (hs ▸ ht)

/-- R20 in `Completed` has the whole frame written. -/
theorem Assembler.Inv.exposed_ne_unwritten {a : Assembler} (h : a.Inv) : a.exposed ≠ .unwritten := by
  by_cases hst : a.state = .completed
  · obtain ⟨len, r, -, -, -, hexp⟩ := h.exposed_of_completed hst
    simp [hexp]
  · simp [exposed_of_not_completed hst]

theorem exec_fault {i : Instr} {s : State} {f : Fault} (h : s.Inv) (hf : exec i s = .fault f) :
    f = .pollDidNotEnd ∧ s.src.endless ≠ none ∧ (i = .asmRead ∨ isWire i = true) := by
  rcases instr_cases i with hi | ⟨cap, rfl⟩ | hi
  · obtain ⟨src, hexec, -, hendless⟩ := exists_poll_of_reception hi s
    rcases exec_asmRead_cases (s := { s with src := src }) h with ⟨t, ht⟩ | ⟨hfuel, he⟩
    · cases (hexec.trans ht).symm.trans hf
    · cases (hexec.trans hfuel).symm.trans hf
      exact ⟨rfl, hendless ▸ he, hi⟩
  · rcases exec_asmNew_cases cap s with ⟨-, he⟩ | ⟨-, he⟩ <;> cases he.symm.trans hf
  · have hop := exec_operation hi s
    rw [hf] at hop
    cases hop with
    | unwritten hexp => exact absurd hexp h.exposed_ne_unwritten

/-- Settles O51: under R20 the exposed frame is written, and a poll faults only for want of fuel. -/
theorem onlyFuelRunsOutUnderTheInvariant : Obligations.OnlyFuelRunsOutUnderTheInvariant := by
  intro s f h
  refine ⟨fun hf => ?_, fun i => exec_fault h⟩
  rcases step_cases s with hs | ⟨q, hs⟩ | ⟨w, later, i, rest, -, -, hs⟩
  · cases hs.symm.trans hf
  · cases hs.symm.trans hf
  · obtain ⟨hfuel, he, -⟩ := exec_fault (s := { s with requests := later }) h (hs ▸ hf)
    exact ⟨hfuel, he⟩

/-! ### The capacity, the assembler, the line (R4, R11, R30, R35) -/

theorem exec_cap {i : Instr} {s t : State} (h : exec i s = .next t) (hi : ∀ cap, i ≠ .asmNew cap) :
    t.asm.cap = s.asm.cap := by
  rcases instr_cases i with hr | ⟨cap, rfl⟩ | hop
  · obtain ⟨src, hexec, -, -⟩ := exists_poll_of_reception hr s
    obtain ⟨how, hp, -⟩ := exists_poll_of_exec_asmRead (hexec ▸ h)
    exact (poll_ended_frame hp).1
  · exact absurd rfl (hi cap)
  · have hspec := exec_operation hop s
    rw [h] at hspec
    obtain ⟨hasm, -, -⟩ := hspec
    rw [hasm]

/-- Settles O52: no trip of a poll changes `CAP`. -/
theorem onlyConstructionSetsTheCapacity : Obligations.OnlyConstructionSetsTheCapacity := by
  refine ⟨fun i s t => exec_cap, fun s t ht => ?_⟩
  rcases step_cases s with hs | ⟨q, hs⟩ | ⟨w, later, i, rest, hr, hd, hs⟩
  · cases hs.symm.trans ht
    exact .inl rfl
  · cases hs.symm.trans ht
  · rw [hs] at ht
    by_cases hnew : ∃ cap, i = .asmNew cap
    · obtain ⟨cap, rfl⟩ := hnew
      rcases exec_asmNew_cases cap { s with requests := later } with ⟨-, he⟩ | ⟨-, he⟩
      · cases he.symm.trans ht
      · cases he.symm.trans ht
        exact .inr ⟨w, later, cap, rest, hr, hd, rfl⟩
    · exact .inl (exec_cap (s := { s with requests := later }) ht fun cap hi => hnew ⟨cap, hi⟩)

/-- Settles O53: by what reception, construction and the other operations can do. -/
theorem onlyReceptionWritesTheAssembler : Obligations.OnlyReceptionWritesTheAssembler := by
  intro i s t h
  rcases instr_cases i with hr | ⟨cap, rfl⟩ | hop
  · obtain ⟨src, hexec, -, -⟩ := exists_poll_of_reception hr s
    obtain ⟨how, -, hframe⟩ := exists_poll_of_exec_asmRead (hexec ▸ h)
    refine ⟨fun hw => ?_, fun hwire hread => ?_, by rw [hframe]⟩
    · rcases hr with rfl | hi
      · cases hw
      · cases i <;> cases hi <;> cases hw
    · rcases hr with rfl | hi
      · exact absurd rfl hread
      · cases hwire.symm.trans hi
  · rcases exec_asmNew_cases cap s with ⟨-, he⟩ | ⟨-, he⟩
    · cases he.symm.trans h
    · cases he.symm.trans h
      exact ⟨nofun, fun _ _ => rfl, rfl⟩
  · have hspec := exec_operation hop s
    rw [h] at hspec
    obtain ⟨hasm, hsrc, hrequests⟩ := hspec
    exact ⟨fun _ => hasm, fun _ _ => hsrc, hrequests⟩

/-- R35: what was handed over is what `S` has at its place. -/
theorem Took.stream_get {src src' : Source} {d : List Byte} (t : Took src src' d) {k : Nat} (hk : k < d.length) :
    d[k]? = src'.stream (src.handed.length + k) := by
  have hlt : src.handed.length + k < src'.listed.length := by
    simp only [Source.listed, t.handed, List.length_append]
    omega
  rw [Source.stream, if_pos hlt, Source.listed, t.handed,
    List.getElem?_append_left (by rw [List.length_append]; omega), List.getElem?_append_right (Nat.le_add_right _ _),
    Nat.add_sub_cancel_left]

theorem exec_asmRead_took {s t : State} (h : exec .asmRead s = .next t) : ∃ d, Took s.src t.src d := by
  obtain ⟨how, hp, -⟩ := exists_poll_of_exec_asmRead h
  exact (poll_ended_frame hp).2

/-- Settles O54: each trip of a poll hands bytes over in line order, a wire row's after its bytes have arrived, and nothing else
touches the line. -/
theorem bytesAreHandedOverOnceInOrder : Obligations.BytesAreHandedOverOnceInOrder := by
  intro i s t h
  by_cases hwire : isWire i = true
  · obtain ⟨d, took⟩ := exec_asmRead_took (exec_of_isWire hwire s ▸ h)
    exact ⟨d, took.handed, fun k => took.stream_get, fun hno => absurd hwire (by simp [hno]), fun _ => took.stream⟩
  · by_cases hread : i = .asmRead
    · subst hread
      obtain ⟨d, took⟩ := exec_asmRead_took h
      exact ⟨d, took.handed, fun k => took.stream_get, fun _ => took.stream, fun hyes => absurd hyes hwire⟩
    · obtain ⟨-, hsrc, -⟩ := onlyReceptionWritesTheAssembler i s t h
      have hsame := hsrc (by simpa using hwire) hread
      exact ⟨[], by rw [hsame, List.append_nil], nofun, fun _ => by rw [hsame], fun hyes => absurd hyes hwire⟩

/-! ### Lines that never run dry (R107, U7) -/

/-- Without a script, an endless line answers every request in full. -/
theorem Source.read_endless {n : Nat} {src : Source} (hscript : src.script = []) (he : src.endless ≠ none) (hn : 0 < n) :
    ∃ d, src.read n = (.bytes d, (src.topUp n).hand n) ∧ d.length = n := by
  have hwait := Source.topUp_waiting (n := n) he
  refine ⟨(src.topUp n).waiting.take n, ?_, by simp [hwait]⟩
  unfold Source.read
  rw [hscript]
  dsimp only
  split
  · next hnil =>
    have := congrArg List.length hnil
    simp only [List.length_take, List.length_nil] at this
    omega
  · next b d hd => rw [hd]

/-- There a poll ends at a signal only. -/
theorem poll_endless_signals {n : Nat} {a a' : Assembler} {src src' : Source} {how : PollEnd} (h : a.Inv)
    (hscript : src.script = []) (he : src.endless ≠ none) (hp : poll n a src = .ended a' src' how) :
    endSignals how ≠ [] := by
  induction n generalizing a src with
  | zero => cases hp
  | succ n ih =>
    obtain ⟨d, hread, hd⟩ := Source.read_endless hscript he (requestSize_pos h)
    have hspec := turn_spec h src
    cases hturn : turn a src with
    | fault f => cases (poll_of_fault hturn).symm.trans hp
    | ended b mid how' =>
      cases (poll_of_ended hturn).symm.trans hp
      rw [hturn] at hspec
      cases hspec with
      | idle took _ =>
        obtain ⟨-, rfl⟩ := took_of_turn h hturn (.inr ⟨_, rfl⟩) hread took
        exact absurd (requestSize_pos h) (by simp [← hd])
      | signalled _ _ _ _ hhow => simp [hhow]
    | again b mid =>
      rw [poll_of_again hturn] at hp
      rw [hturn] at hspec
      have next {e : List Byte} (took : Took src mid e) : mid.script = [] ∧ mid.endless ≠ none := by
        obtain ⟨rfl, -⟩ := took_of_turn h hturn (.inl rfl) hread took
        exact ⟨by simp [hscript], mt took.endless_eq_none.mp he⟩
      cases hspec with
      | onward took _ _ fed => exact ih (h.feed fed).1 (next took).1 (next took).2 hp
      | emptyFrame took _ _ fed hneed hst =>
        cases n with
        | zero => cases hp
        | succ n =>
          cases (poll_of_ended (turn_of_emptyFrame hneed hst mid)).symm.trans hp
          simp [endSignals]

/-- The line with more fuel in it (entry 14). -/
def Source.morePatience (m : Nat) (src : Source) : Source :=
  { src with endless := src.endless.map fun rest => { rest with patience := rest.patience + m } }

/-- A trip that leaves another source. -/
def Turn.mapSource (f : Source → Source) : Turn → Turn
  | .again a src => .again a (f src)
  | .ended a src how => .ended a (f src) how
  | .fault e => .fault e

theorem Source.topUp_morePatience (m n : Nat) (src : Source) :
    (src.morePatience m).topUp n = (src.topUp n).morePatience m := by
  cases h : src.endless <;> simp [Source.topUp, Source.morePatience, h]

/-- No request looks at the fuel. -/
theorem Source.read_morePatience (m n : Nat) (src : Source) :
    (src.morePatience m).read n = ((src.read n).1, (src.read n).2.morePatience m) := by
  rcases hscript : src.script with _ | ⟨c, later⟩
  · simp only [Source.read, show (src.morePatience m).script = [] from hscript, hscript, Source.topUp_morePatience]
    rw [show ((src.topUp n).morePatience m).waiting = (src.topUp n).waiting from rfl]
    cases (src.topUp n).waiting.take n <;> rfl
  · simp only [Source.read, show (src.morePatience m).script = c :: later from hscript, hscript]
    cases c.reply <;> rfl

section
variable (m : Nat)

theorem fetch_morePatience {n : Nat} {a : Assembler} {src : Source} {k : Byte → List Byte → Source → Turn}
    (hk : ∀ b d src, k b d (src.morePatience m) = (k b d src).mapSource (Source.morePatience m)) :
    fetch n a (src.morePatience m) k = (fetch n a src k).mapSource (Source.morePatience m) := by
  unfold fetch
  rw [Source.read_morePatience]
  rcases src.read n with ⟨answer, src'⟩
  match answer with
  | .error e => rfl
  | .wouldBlock => rfl
  | .bytes [] => rfl
  | .bytes (b :: d) => exact hk b d src'

theorem seekStep_morePatience (a : Assembler) (src : Source) :
    seekStep a (src.morePatience m) = (seekStep a src).mapSource (Source.morePatience m) := by
  refine fetch_morePatience m fun b d src => ?_
  cases d with
  | nil => dsimp only; split <;> rfl
  | cons c d =>
    dsimp only
    split
    · rfl
    · split <;> rfl

theorem headerDone_morePatience (a : Assembler) (src : Source) :
    headerDone a (src.morePatience m) = (headerDone a src).mapSource (Source.morePatience m) := by
  unfold headerDone
  split
  · rfl
  · split <;> rfl

theorem headerStep_morePatience (a : Assembler) (src : Source) :
    headerStep a (src.morePatience m) = (headerStep a src).mapSource (Source.morePatience m) := by
  unfold headerStep
  split
  · rfl
  · refine fetch_morePatience m fun b d src => ?_
    split
    · rfl
    · split
      · exact headerDone_morePatience m _ src
      · rfl

theorem dataStep_morePatience (a : Assembler) (src : Source) :
    dataStep a (src.morePatience m) = (dataStep a src).mapSource (Source.morePatience m) := by
  unfold dataStep
  split
  · rfl
  · split
    · rfl
    · split
      · rfl
      · refine fetch_morePatience m fun b d src => ?_
        split
        · rfl
        · split <;> rfl

theorem turn_morePatience (a : Assembler) (src : Source) :
    turn a (src.morePatience m) = (turn a src).mapSource (Source.morePatience m) := by
  cases hst : a.state with
  | seekMarker1 => rw [turn_of_seeking (.inl hst), turn_of_seeking (.inl hst), seekStep_morePatience]
  | seekMarker2 =>
    rw [turn_of_seekMarker2 hst, turn_of_seekMarker2 hst]
    exact fetch_morePatience m fun b d src => by split <;> rfl
  | header => rw [turn_of_header hst, turn_of_header hst, headerStep_morePatience]
  | data => rw [turn_of_data hst, turn_of_data hst, dataStep_morePatience]
  | completed => rw [turn_of_seeking (.inr hst), turn_of_seeking (.inr hst), seekStep_morePatience]

theorem poll_morePatience (n : Nat) (a : Assembler) (src : Source) :
    poll n a (src.morePatience m) = (poll n a src).mapSource (Source.morePatience m) := by
  induction n generalizing a src with
  | zero => rfl
  | succ n ih =>
    have hmore := turn_morePatience m a src
    cases hturn : turn a src with
    | again b mid =>
      rw [hturn] at hmore
      rw [poll_of_again hturn, poll_of_again hmore, ih]
    | ended b mid how =>
      rw [hturn] at hmore
      rw [poll_of_ended hturn, poll_of_ended hmore]
      rfl
    | fault f =>
      rw [hturn] at hmore
      rw [poll_of_fault hturn, poll_of_fault hmore]
      rfl

end

theorem pollFuel_endless {src : Source} {rest : Endless} (he : src.endless = some rest) :
    src.pollFuel = src.remaining.length + 1 + rest.patience := by
  simp only [Source.pollFuel, he]

/-- Settles O58: every request is answered in full, so only a signal ends the poll, and each trip has used up fuel and a
byte; the fuel is looked at nowhere but in the loop's count. -/
theorem endlessLinesAreNeverDry : Obligations.EndlessLinesAreNeverDry := by
  intro s rest h hscript he
  have hsome : s.src.endless ≠ none := by simp [he]
  refine ⟨?_, fun more t ht => ?_⟩
  · have hspec := poll_spec h s.src.pollFuel s.src
    cases hp : poll s.src.pollFuel s.asm s.src with
    | again a src => exact absurd hp poll_ne_again
    | ended a src how =>
      have hsig := poll_endless_signals h hscript hsome hp
      refine .inl ⟨_, exec_asmRead_of_poll hp, ?_⟩
      cases how with
      | frameDone => exact .inl rfl
      | insufficientCapacity => exact .inr rfl
      | dry => exact absurd rfl hsig
      | transport e => exact absurd rfl hsig
    | fault f =>
      rw [hp] at hspec
      cases hspec with
      | @stuck a' _ d e took fed _ hfuel =>
        rw [pollFuel_endless he] at hfuel
        refine .inr ⟨exec_asmRead_of_fault hp, d, a', by omega, fun k hk => ?_, fed⟩
        rw [← took.stream, ← took.stream_get (by rw [List.length_append]; omega), List.getElem?_append_left hk]
  · obtain ⟨how, hp, hframe⟩ := exists_poll_of_exec_asmRead ht
    have hmore : { s.src with endless := some { rest with patience := rest.patience + more } } =
        s.src.morePatience more := by simp [Source.morePatience, he]
    have hfuel : (s.src.morePatience more).pollFuel = s.src.pollFuel + more := by
      rw [pollFuel_endless he, pollFuel_endless (src := s.src.morePatience more) (by rw [← hmore])]
      exact (Nat.add_assoc _ _ _).symm
    rw [hmore, hframe]
    refine exec_asmRead_of_poll (s := { s with src := s.src.morePatience more }) (how := how) ?_
    rw [hfuel, poll_morePatience, poll_add (by simp [hp]), hp]
    rfl

end Sys2Proof.Machine
end

section
/-! PROOFS. O1 to O5 (R50 to R65): the decoder reads back what the encoder wrote, what it accepts is such an encoding, and the
rows of the opcode table are the first bytes of the wire rows. -/

namespace Sys2Proof.Machine

theorem ofNat8_toNat (b : Byte) : BitVec.ofNat 8 b.toNat = b := by
  rw [BitVec.ofNat_toNat, BitVec.setWidth_eq]

/-! ### Frames by the command they carry (R55, R56, R65) -/

/-- The three readings of a frame's payload and checksum. -/
inductive FrameKind (id : Byte) (body : List Byte) : Instr → Prop where
  | readReg {address length checksum : Byte} (h : body = [0x02, address, length, checksum]) :
      FrameKind id body (.wireReadReg id address length checksum)
  | writeReg {address checksum : Byte} {data : List Byte} (h : body = 0x03 :: address :: (data ++ [checksum])) :
      FrameKind id body (.wireWriteReg id address data checksum)
  | frame (notRead : isReadRegBody body = false) (notWrite : isWriteRegBody body = false) :
      FrameKind id body (.wireFrame id body)

theorem classifyFrame_kind (id : Byte) (body : List Byte) : FrameKind id body (classifyFrame id body) := by
  unfold classifyFrame
  split
  · next cmd address c more =>
    split
    · next hwrite => exact .writeReg (by rw [hwrite, List.dropLast_concat_getLast])
    · next hwrite =>
      have hnot : isWriteRegBody (cmd :: address :: c :: more) = false := by simpa [isWriteRegBody] using hwrite
      split
      · next checksum =>
        split
        · next hread => exact .readReg (by rw [hread])
        · next hread => exact .frame (by simpa [isReadRegBody] using hread) hnot
      · next hmore =>
        refine .frame ?_ hnot
        match more, hmore with
        | [], _ => rfl
        | [checksum], hmore => exact absurd rfl (hmore checksum)
        | _ :: _ :: _, _ => rfl
  · next hshort =>
    match body, hshort with
    | [], _ => exact .frame rfl rfl
    | [_], _ => exact .frame rfl rfl
    | [_, _], _ => exact .frame rfl rfl
    | cmd :: address :: c :: more, hshort => exact absurd rfl (hshort cmd address c more)

theorem classifyFrame_readReg (id address length checksum : Byte) :
    classifyFrame id [0x02, address, length, checksum] = .wireReadReg id address length checksum := rfl

theorem classifyFrame_writeReg (id address : Byte) (data : List Byte) (checksum : Byte) :
    classifyFrame id (0x03 :: address :: (data ++ [checksum])) = .wireWriteReg id address data checksum := by
  cases data with
  | nil => rfl
  | cons c data =>
    simp only [List.cons_append, classifyFrame, if_true]
    congr 1
    · exact List.dropLast_concat (l₁ := c :: data)
    · exact List.getLast_concat (l := c :: data)

theorem classifyFrame_frame {body : List Byte} (id : Byte) (notRead : isReadRegBody body = false)
    (notWrite : isWriteRegBody body = false) : classifyFrame id body = .wireFrame id body := by
  generalize hi : classifyFrame id body = i
  have hkind := classifyFrame_kind id body
  rw [hi] at hkind
  cases hkind with
  | readReg h => simp [h, isReadRegBody] at notRead
  | writeReg h =>
    subst h
    rename_i address checksum data
    cases data <;> simp [isWriteRegBody] at notWrite
  | frame => rfl

theorem encode_classifyFrame (id : Byte) (body : List Byte) : encode (classifyFrame id body) = wireBytes id body := by
  generalize hi : classifyFrame id body = i
  have hkind := classifyFrame_kind id body
  rw [hi] at hkind
  cases hkind with
  | readReg h => rw [h]; rfl
  | writeReg h => rw [h]; rfl
  | frame => rfl

/-! ### From the instruction to its bytes and back (R58, R61) -/

theorem decode_of_ne_marker {op : Byte} (h : op ≠ Config.marker) (bs : List Byte) : decode (op :: bs) = decodeOp op bs :=
  if_neg h

theorem decode_marker_alone {rest : List Byte} (h : rest.head? ≠ some Config.marker) :
    decode (Config.marker :: rest) = .instr .wireMarkerByte rest := by
  cases rest with
  | nil => rfl
  | cons b rest =>
    have hb : b ≠ Config.marker := by simpa using h
    simp only [decode, if_true, decodeWire, if_neg hb]

/-- An operation whose first operand is a region. -/
theorem decode_region {op : Byte} (hop : op ≠ Config.marker) {k : RegionRef → List Byte → Decoded}
    (hk : ∀ bs, decodeOp op bs = takeRegion bs k) (r : RegionRef) (rest : List Byte) :
    decode (op :: r.code :: rest) = k r rest := by
  rw [decode_of_ne_marker hop, hk, takeRegion_code]

/-- Settles O1: the wire rows by their command, and the operations operand by operand. -/
theorem decodeOfEncodeIsTheInstruction : Obligations.DecodeOfEncodeIsTheInstruction := by
  intro i rest hwf hmarker
  cases i with
  | wireMarkerByte => exact decode_marker_alone (hmarker rfl)
  | wireFrame id body =>
    simp only [Instr.wf, Bool.and_eq_true, decide_eq_true_eq, Bool.not_eq_true'] at hwf
    rw [encode, decode_wireBytes hwf.1.1, classifyFrame_frame id hwf.1.2 hwf.2]
  | wireReadReg id address length checksum => rw [encode, decode_wireBytes (by simp), classifyFrame_readReg]
  | wireWriteReg id address data checksum =>
    have hdata : data.length ≤ 252 := by simpa [Instr.wf] using hwf
    rw [encode, decode_wireBytes (by simp only [List.length_cons, List.length_append, List.length_nil]; omega),
      classifyFrame_writeReg]
  | asmNew cap =>
    simp only [Instr.wf, Bool.and_eq_true, decide_eq_true_eq] at hwf
    have hcap : cap - Config.minCapacity < 4294967296 := Nat.sub_lt_left_of_lt_add hwf.1 hwf.2
    refine (takeWord32_bytes hcap rest fun n rest => .instr (.asmNew (Config.minCapacity + n)) rest).trans ?_
    rw [Nat.add_sub_cancel' hwf.1]
  | asmRead => rfl
  | asmFrame => rfl
  | frameId r => exact decode_region (op := 0x10) (by decide) (fun _ => rfl) r rest
  | frameLength r => exact decode_region (op := 0x11) (by decide) (fun _ => rfl) r rest
  | framePayload r => exact decode_region (op := 0x12) (by decide) (fun _ => rfl) r rest
  | frameChecksum r => exact decode_region (op := 0x13) (by decide) (fun _ => rfl) r rest
  | frameVerify r => exact decode_region (op := 0x14) (by decide) (fun _ => rfl) r rest
  | frameSetId r v => exact decode_region (op := 0x18) (by decide) (fun _ => rfl) r (v :: rest)
  | frameSetLength r v => exact decode_region (op := 0x19) (by decide) (fun _ => rfl) r (v :: rest)
  | framePayloadMut r off v =>
    obtain ⟨-, hlen⟩ : r.writable = true ∧ off + v.length ≤ 254 := by simpa [Instr.wf] using hwf
    refine (decode_region (op := 0x1A) (by decide) (fun _ => rfl) r
      (BitVec.ofNat 8 off :: (sequenceBytes v ++ rest))).trans ?_
    refine (takeSequence_bytes (v := v) (by omega) rest fun v rest =>
      .instr (.framePayloadMut r (BitVec.ofNat 8 off).toNat v) rest).trans ?_
    rw [toNat_ofNat8 (by omega)]
  | frameUpdateChecksum r => exact decode_region (op := 0x1B) (by decide) (fun _ => rfl) r rest
  | buildReadReg id address length => rfl
  | buildWriteReg id address dataLen =>
    have hlen : dataLen ≤ 252 := by simpa [Instr.wf] using hwf
    change Decoded.instr (.buildWriteReg id address (BitVec.ofNat 8 dataLen).toNat) rest = _
    rw [toNat_ofNat8 (by omega)]
  | frameEncode id payload =>
    have hlen : payload.length ≤ 254 := by simpa [Instr.wf] using hwf
    exact takeSequence_bytes (v := payload) (by omega) rest fun payload rest => .instr (.frameEncode id payload) rest

/-! ### What the readers accept -/

section
variable {bs rest : List Byte} {i : Instr}

theorem exists_of_takeByte {k : Byte → List Byte → Decoded} (h : takeByte bs k = .instr i rest) :
    ∃ b bs', bs = b :: bs' ∧ k b bs' = .instr i rest := by
  cases bs with
  | nil => cases h
  | cons b bs' => exact ⟨b, bs', rfl, h⟩

theorem code_of_ofCode {b : Byte} {r : RegionRef} (h : RegionRef.ofCode b = some r) : b = r.code := by
  unfold RegionRef.ofCode at h
  split at h
  · cases h; assumption
  · split at h
    · cases h; assumption
    · split at h
      · cases h; assumption
      · cases h

theorem exists_of_takeRegion {k : RegionRef → List Byte → Decoded} (h : takeRegion bs k = .instr i rest) :
    ∃ r bs', bs = RegionRef.code r :: bs' ∧ k r bs' = .instr i rest := by
  obtain ⟨b, bs', rfl, hk⟩ := exists_of_takeByte h
  cases hr : RegionRef.ofCode b with
  | none => simp [hr] at hk
  | some r =>
    simp only [hr] at hk
    exact ⟨r, bs', by rw [code_of_ofCode hr], hk⟩

theorem exists_of_takeWord32 {k : Nat → List Byte → Decoded} (h : takeWord32 bs k = .instr i rest) :
    ∃ n bs', bs = word32Bytes n ++ bs' ∧ k n bs' = .instr i rest := by
  unfold takeWord32 at h
  split at h
  · next b0 b1 b2 b3 bs' =>
    refine ⟨_, bs', ?_, h⟩
    have h0 := b0.isLt
    have h1 := b1.isLt
    have h2 := b2.isLt
    have h3 := b3.isLt
    simp only [word32Bytes, List.cons_append, List.nil_append, List.cons.injEq, and_true]
    refine ⟨?_, ?_, ?_, ?_⟩ <;> · apply BitVec.eq_of_toNat_eq; rw [BitVec.toNat_ofNat]; omega
  · cases h

theorem exists_of_takeCount {n : Nat} {k : List Byte → List Byte → Decoded} (h : takeCount n bs k = .instr i rest) :
    ∃ v bs', bs = v ++ bs' ∧ v.length = n ∧ k v bs' = .instr i rest := by
  unfold takeCount at h
  split at h
  · cases h
  · exact ⟨bs.take n, bs.drop n, (List.take_append_drop n bs).symm, by simp; omega, h⟩

/-- A length byte and that many bytes are a sequence. -/
theorem sequenceBytes_of_length {n : Byte} {v : List Byte} (h : v.length = n.toNat) : sequenceBytes v = n :: v := by
  rw [sequenceBytes, h, ofNat8_toNat]

theorem exists_of_takeSequence {k : List Byte → List Byte → Decoded} (h : takeSequence bs k = .instr i rest) :
    ∃ v bs', bs = sequenceBytes v ++ bs' ∧ k v bs' = .instr i rest := by
  obtain ⟨n, bs, rfl, h⟩ := exists_of_takeByte h
  obtain ⟨v, bs', rfl, hlen, hk⟩ := exists_of_takeCount h
  exact ⟨v, bs', by rw [sequenceBytes_of_length hlen, List.cons_append], hk⟩

/-- Two marker bytes begin a frame (R58). -/
theorem exists_of_decode_marker_pair (h : decode (Config.marker :: Config.marker :: bs) = .instr i rest) :
    ∃ id body, body.length ≤ 255 ∧ i = classifyFrame id body ∧
      Config.marker :: Config.marker :: bs = wireBytes id body ++ rest := by
  obtain ⟨id, bs₁, rfl, h₁⟩ := exists_of_takeByte (show takeByte bs _ = .instr i rest from h)
  obtain ⟨len, bs₂, rfl, h₂⟩ := exists_of_takeByte h₁
  obtain ⟨body, bs₃, rfl, hlen, h₃⟩ := exists_of_takeCount h₂
  have hlt := len.isLt
  cases h₃
  refine ⟨id, body, by omega, rfl, ?_⟩
  rw [wireBytes, hlen, ofNat8_toNat]
  rfl

/-- Operations with a region for their only operand. -/
theorem eq_encode_of_region {op : Byte} {f : RegionRef → Instr}
    (h : (takeRegion bs fun r rest => .instr (f r) rest) = .instr i rest) (henc : ∀ r, encode (f r) = [op, r.code]) :
    op :: bs = encode i ++ rest := by
  obtain ⟨r, bs', rfl, hk⟩ := exists_of_takeRegion h
  cases hk
  rw [henc]
  rfl

/-- Operations with a region and a byte. -/
theorem eq_encode_of_region_byte {op : Byte} {f : RegionRef → Byte → Instr}
    (h : (takeRegion bs fun r rest => takeByte rest fun v rest => .instr (f r v) rest) = .instr i rest)
    (henc : ∀ r v, encode (f r v) = [op, r.code, v]) : op :: bs = encode i ++ rest := by
  obtain ⟨r, bs₁, rfl, h₁⟩ := exists_of_takeRegion h
  obtain ⟨v, bs₂, rfl, h₂⟩ := exists_of_takeByte h₁
  cases h₂
  rw [henc]
  rfl

/-- Operations with three bytes. -/
theorem eq_encode_of_three_bytes {op : Byte} {f : Byte → Byte → Byte → Instr}
    (h : (takeByte bs fun a rest => takeByte rest fun b rest => takeByte rest fun c rest => .instr (f a b c) rest) =
      .instr i rest) (henc : ∀ a b c, encode (f a b c) = [op, a, b, c]) : op :: bs = encode i ++ rest := by
  obtain ⟨a, bs₁, rfl, h₁⟩ := exists_of_takeByte h
  obtain ⟨b, bs₂, rfl, h₂⟩ := exists_of_takeByte h₁
  obtain ⟨c, bs₃, rfl, h₃⟩ := exists_of_takeByte h₂
  cases h₃
  rw [henc]
  rfl

/-- R61: an operation's bytes are its selector and its operands. -/
theorem eq_encode_of_decodeOp {op : Byte} (h : decodeOp op bs = .instr i rest) : op :: bs = encode i ++ rest := by
  have select {n : Nat} (hn : op.toNat = n) : op = BitVec.ofNat 8 n := by rw [← hn, ofNat8_toNat]
  unfold decodeOp at h
  split at h <;> rename_i hop
  · obtain ⟨n, bs', rfl, hk⟩ := exists_of_takeWord32 h
    obtain ⟨rfl, rfl⟩ := Decoded.instr.inj hk
    rw [select hop, encode, Nat.add_sub_cancel_left]
    rfl
  · cases h
    rw [select hop]
    rfl
  · cases h
    rw [select hop]
    rfl
  · exact eq_encode_of_region h fun r => by rw [select hop]; rfl
  · exact eq_encode_of_region h fun r => by rw [select hop]; rfl
  · exact eq_encode_of_region h fun r => by rw [select hop]; rfl
  · exact eq_encode_of_region h fun r => by rw [select hop]; rfl
  · exact eq_encode_of_region h fun r => by rw [select hop]; rfl
  · exact eq_encode_of_region_byte h fun r v => by rw [select hop]; rfl
  · exact eq_encode_of_region_byte h fun r v => by rw [select hop]; rfl
  · obtain ⟨r, bs₁, rfl, h₁⟩ := exists_of_takeRegion h
    obtain ⟨off, bs₂, rfl, h₂⟩ := exists_of_takeByte h₁
    obtain ⟨v, bs₃, rfl, h₃⟩ := exists_of_takeSequence h₂
    cases h₃
    rw [select hop, encode, ofNat8_toNat]
    rfl
  · exact eq_encode_of_region h fun r => by rw [select hop]; rfl
  · exact eq_encode_of_three_bytes h fun a b c => by rw [select hop]; rfl
  · exact eq_encode_of_three_bytes h fun a b c => by rw [select hop, encode, ofNat8_toNat]; rfl
  · obtain ⟨id, bs₁, rfl, h₁⟩ := exists_of_takeByte h
    obtain ⟨payload, bs₂, rfl, h₂⟩ := exists_of_takeSequence h₁
    cases h₂
    rw [select hop]
    rfl
  · cases h

/-- Only the wire rows begin with the marker byte. -/
theorem head?_encode_eq_marker_iff (i : Instr) : (encode i).head? = some Config.marker ↔ isWire i = true := by
  have h : (encode i).head? = some i.firstByte := by cases i <;> rfl
  rw [h]
  cases i <;> simp [Instr.firstByte, Config.marker, isWire]

/-- Everything that decodes: an operation, a marker byte that no second one follows, or a frame. -/
theorem decode_cases (h : decode bs = .instr i rest) :
    (bs.head? ≠ some Config.marker ∧ bs = encode i ++ rest) ∨
      (rest.head? ≠ some Config.marker ∧ i = .wireMarkerByte ∧ bs = Config.marker :: rest) ∨
      ∃ id body, body.length ≤ 255 ∧ i = classifyFrame id body ∧ bs = wireBytes id body ++ rest := by
  cases bs with
  | nil => cases h
  | cons op bs =>
    by_cases hop : op = Config.marker
    · subst hop
      by_cases hpair : bs.head? = some Config.marker
      · obtain ⟨bs, rfl⟩ : ∃ bs', bs = Config.marker :: bs' := ⟨bs.tail, List.eq_cons_of_mem_head? hpair⟩
        exact .inr (.inr (exists_of_decode_marker_pair h))
      · cases (decode_marker_alone hpair).symm.trans h
        exact .inr (.inl ⟨hpair, rfl, rfl⟩)
    · rw [decode_of_ne_marker hop] at h
      exact .inl ⟨by simpa using hop, eq_encode_of_decodeOp h⟩

end

/-- Settles O2: by the kinds of bytes that decode. -/
theorem requestBytesHaveOneReading : Obligations.RequestBytesHaveOneReading := by
  intro bs i rest h
  rcases decode_cases h with ⟨-, heq⟩ | ⟨-, rfl, heq⟩ | ⟨id, body, -, rfl, heq⟩
  · exact heq
  · exact heq
  · rw [heq, encode_classifyFrame]

/-! ### The selectors (R61) -/

section
variable {bs : List Byte} {op : Byte}

theorem takeByte_ne_unknown {k : Byte → List Byte → Decoded} (h : ∀ b bs, k b bs ≠ .rejected (.unknownSelector op)) :
    takeByte bs k ≠ .rejected (.unknownSelector op) := by
  cases bs with
  | nil => nofun
  | cons b bs => exact h b bs

theorem takeRegion_ne_unknown {k : RegionRef → List Byte → Decoded}
    (h : ∀ r bs, k r bs ≠ .rejected (.unknownSelector op)) : takeRegion bs k ≠ .rejected (.unknownSelector op) := by
  refine takeByte_ne_unknown fun b bs => ?_
  split
  · exact h _ bs
  · nofun

theorem takeWord32_ne_unknown {k : Nat → List Byte → Decoded} (h : ∀ n bs, k n bs ≠ .rejected (.unknownSelector op)) :
    takeWord32 bs k ≠ .rejected (.unknownSelector op) := by
  unfold takeWord32
  split
  · exact h _ _
  · nofun

theorem takeSequence_ne_unknown {k : List Byte → List Byte → Decoded}
    (h : ∀ v bs, k v bs ≠ .rejected (.unknownSelector op)) : takeSequence bs k ≠ .rejected (.unknownSelector op) := by
  refine takeByte_ne_unknown fun n bs => ?_
  unfold takeCount
  split
  · nofun
  · exact h _ _

end

/-- R61: the selectors of the table. -/
def listedSelectors : List Byte :=
  [0x00, 0x01, 0x02, 0x10, 0x11, 0x12, 0x13, 0x14, 0x18, 0x19, 0x1A, 0x1B, 0x20, 0x21, 0x22]

theorem decodeOp_of_unlisted {op : Byte} (h : op ∉ listedSelectors) (bs : List Byte) :
    decodeOp op bs = .rejected (.unknownSelector op) := by
  have select {n : Nat} (hn : op.toNat = n) (hlisted : BitVec.ofNat 8 n ∈ listedSelectors) : False :=
    h (by rwa [← hn, ofNat8_toNat] at hlisted)
  unfold decodeOp
  split <;> rename_i hop
  case h_16 => rfl
  all_goals exact (select hop (by decide)).elim

theorem decodeOp_ne_unknown {op : Byte} (h : op ∈ listedSelectors) (bs : List Byte) (q : Byte) :
    decodeOp op bs ≠ .rejected (.unknownSelector q) := by
  simp only [listedSelectors, List.mem_cons, List.not_mem_nil, or_false] at h
  rcases h with rfl | rfl | rfl | rfl | rfl | rfl | rfl | rfl | rfl | rfl | rfl | rfl | rfl | rfl | rfl
  · exact takeWord32_ne_unknown (k := fun n rest => .instr (.asmNew (Config.minCapacity + n)) rest) nofun
  · nofun
  · nofun
  · exact takeRegion_ne_unknown nofun
  · exact takeRegion_ne_unknown nofun
  · exact takeRegion_ne_unknown nofun
  · exact takeRegion_ne_unknown nofun
  · exact takeRegion_ne_unknown nofun
  · exact takeRegion_ne_unknown fun r bs => takeByte_ne_unknown nofun
  · exact takeRegion_ne_unknown fun r bs => takeByte_ne_unknown nofun
  · exact takeRegion_ne_unknown fun r bs => takeByte_ne_unknown fun off bs => takeSequence_ne_unknown nofun
  · exact takeRegion_ne_unknown nofun
  · exact takeByte_ne_unknown fun id bs => takeByte_ne_unknown fun address bs => takeByte_ne_unknown nofun
  · exact takeByte_ne_unknown fun id bs => takeByte_ne_unknown fun address bs => takeByte_ne_unknown nofun
  · exact takeByte_ne_unknown fun id bs => takeSequence_ne_unknown nofun

/-- Settles O3: the selector table has one line for each listed selector, none of which refuses a selector. -/
theorem unlistedSelectorsAreRefused : Obligations.UnlistedSelectorsAreRefused := by
  refine ⟨fun op bs later s hop hmarker hr => ?_, fun op bs hop => ?_⟩
  · have hd := (decode_of_ne_marker hmarker bs).trans (decodeOp_of_unlisted hop bs)
    exact stepRunsTheNextRequest.2.1 s _ later _ hr hd
  · have hmarker : op ≠ Config.marker := fun heq => absurd (heq ▸ hop) (by decide)
    rw [decode_of_ne_marker hmarker]
    exact decodeOp_ne_unknown hop bs op

/-- Settles O5: the words of the decoder's tests. -/
theorem wordsFromTheSpecDecode : Obligations.WordsFromTheSpecDecode :=
  ⟨Tests.test_decode_marker_byte, Tests.test_decode_frame, Tests.test_decode_read_reg, Tests.test_decode_write_reg,
    Tests.test_decode_asm_read, Tests.test_decode_asm_frame, Tests.test_decode_verify, Tests.test_decode_set_id,
    Tests.test_decode_build_read⟩

/-! ### The wire rows of the opcode table (R65) -/

/-- A mask is applied byte by byte. -/
theorem and_byte {n m x y : Nat} (hx : x < 256) (hy : y < 256) :
    (256 * n + x) &&& (256 * m + y) = 256 * (n &&& m) + (x &&& y) := by
  have hxy : x &&& y < 2 ^ 8 := Nat.and_lt_two_pow x hy
  apply Nat.eq_of_testBit_eq
  intro k
  rw [Nat.testBit_and, show 256 = 2 ^ 8 from rfl, Nat.testBit_two_pow_mul_add _ hx, Nat.testBit_two_pow_mul_add _ hy,
    Nat.testBit_two_pow_mul_add _ hxy]
  split <;> simp

theorem and_ones {x : Nat} (h : x < 256) : x &&& 0xFF = x := Nat.and_two_pow_sub_one_of_lt_two_pow (n := 8) h

/-- The first byte. -/
theorem markerByteRow_accepts_iff (bs : List Byte) : markerByteRow.accepts bs = true ↔ bs.head? = some Config.marker := by
  cases bs with
  | nil => simp [WireRow.accepts, markerByteRow]
  | cons b bs =>
    have hb := b.isLt
    have hval : bytesValue [b] = b.toNat := by simp [bytesValue]
    have hrow : markerByteRow.accepts (b :: bs) = true ↔ b.toNat = 0xFF := by
      simp [WireRow.accepts, markerByteRow, hval, and_ones hb]
    rw [hrow, List.head?_cons, Option.some.injEq, ← BitVec.toNat_inj]
    rfl

/-- The first two bytes. -/
theorem frameRow_accepts_iff (bs : List Byte) :
    frameRow.accepts bs = true ↔ ∃ rest, bs = Config.marker :: Config.marker :: rest := by
  match bs with
  | [] => simp [WireRow.accepts, frameRow]
  | [_] => simp [WireRow.accepts, frameRow]
  | a :: b :: bs =>
    have ha := a.isLt
    have hb := b.isLt
    have hval : bytesValue ((a :: b :: bs).take 2) &&& 0xFFFF = 256 * a.toNat + b.toNat := by
      rw [show 0xFFFF = 256 * 0xFF + 0xFF from rfl, show bytesValue _ = 256 * a.toNat + b.toNat by simp [bytesValue],
        and_byte hb (by decide), and_ones ha, and_ones hb]
    have hrow : frameRow.accepts (a :: b :: bs) = true ↔
        bytesValue ((a :: b :: bs).take 2) &&& 0xFFFF = 0xFFFF := by
      simp [WireRow.accepts, frameRow]
    rw [hrow, hval]
    simp only [List.cons.injEq, exists_and_left, exists_eq', and_true]
    rw [← BitVec.toNat_inj, ← BitVec.toNat_inj, show Config.marker.toNat = 255 from rfl]
    omega

/-- The value of five bytes under a mask that covers all of them but the third, and the fourth or not. -/
theorem bytesValue_and_mask (a b c d e : Byte) {m : Nat} (hm : m = 0x00 ∨ m = 0xFF) :
    bytesValue [a, b, c, d, e] &&& (256 * (256 * (256 * (256 * 0xFF + 0xFF) + 0x00) + m) + 0xFF) =
      256 * (256 * (256 * (256 * a.toNat + b.toNat)) + (d.toNat &&& m)) + e.toNat := by
  have hval : bytesValue [a, b, c, d, e] =
      256 * (256 * (256 * (256 * a.toNat + b.toNat) + c.toNat) + d.toNat) + e.toNat := by simp [bytesValue]
  rw [hval, and_byte e.isLt (by decide), and_byte d.isLt (by omega), and_byte c.isLt (by decide),
    and_byte b.isLt (by decide), and_ones a.isLt, and_ones b.isLt, and_ones e.isLt, Nat.and_zero, Nat.add_zero]

/-- Of the first five bytes all but the id. -/
theorem readRegRow_accepts_iff (bs : List Byte) :
    readRegRow.accepts bs = true ↔ ∃ id rest, bs = Config.marker :: Config.marker :: id :: 0x04 :: 0x02 :: rest := by
  match bs with
  | [] => simp [WireRow.accepts, readRegRow]
  | [_] => simp [WireRow.accepts, readRegRow]
  | [_, _] => simp [WireRow.accepts, readRegRow]
  | [_, _, _] => simp [WireRow.accepts, readRegRow]
  | [_, _, _, _] => simp [WireRow.accepts, readRegRow]
  | a :: b :: c :: d :: e :: bs =>
    have ha := a.isLt
    have hb := b.isLt
    have hd := d.isLt
    have he := e.isLt
    have hval := bytesValue_and_mask a b c d e (m := 0xFF) (.inr rfl)
    rw [and_ones hd] at hval
    have hrow : readRegRow.accepts (a :: b :: c :: d :: e :: bs) = true ↔
        bytesValue [a, b, c, d, e] &&& 0xFFFF00FFFF = 0xFFFF000402 := by
      simp [WireRow.accepts, readRegRow]
    rw [hrow, hval]
    simp only [List.cons.injEq, exists_and_left, exists_and_right, exists_eq', true_and, and_true]
    rw [← BitVec.toNat_inj, ← BitVec.toNat_inj, ← BitVec.toNat_inj, ← BitVec.toNat_inj,
      show Config.marker.toNat = 255 from rfl, show (0x04 : Byte).toNat = 4 from rfl,
      show (0x02 : Byte).toNat = 2 from rfl]
    omega

/-- Of the first five bytes all but the id and the length. -/
theorem writeRegRow_accepts_iff (bs : List Byte) :
    writeRegRow.accepts bs = true ↔ ∃ id len rest, bs = Config.marker :: Config.marker :: id :: len :: 0x03 :: rest := by
  match bs with
  | [] => simp [WireRow.accepts, writeRegRow]
  | [_] => simp [WireRow.accepts, writeRegRow]
  | [_, _] => simp [WireRow.accepts, writeRegRow]
  | [_, _, _] => simp [WireRow.accepts, writeRegRow]
  | [_, _, _, _] => simp [WireRow.accepts, writeRegRow]
  | a :: b :: c :: d :: e :: bs =>
    have ha := a.isLt
    have hb := b.isLt
    have he := e.isLt
    have hval := bytesValue_and_mask a b c d e (m := 0x00) (.inl rfl)
    rw [Nat.and_zero, Nat.add_zero] at hval
    have hrow : writeRegRow.accepts (a :: b :: c :: d :: e :: bs) = true ↔
        bytesValue [a, b, c, d, e] &&& 0xFFFF0000FF = 0xFFFF000003 := by
      simp [WireRow.accepts, writeRegRow]
    rw [hrow, hval]
    simp only [List.cons.injEq, exists_and_left, exists_and_right, exists_eq', true_and, and_true]
    rw [← BitVec.toNat_inj, ← BitVec.toNat_inj, ← BitVec.toNat_inj, show Config.marker.toNat = 255 from rfl,
      show (0x03 : Byte).toNat = 3 from rfl]
    omega

/-! ### The rows on a frame -/

section
variable {body : List Byte} (hbody : body.length ≤ 255) (id : Byte) (rest : List Byte)
include hbody

theorem readRegRow_accepts_wireBytes :
    readRegRow.accepts (wireBytes id body ++ rest) = true ↔ isReadRegBody body = true := by
  rw [readRegRow_accepts_iff]
  simp only [wireBytes, List.cons_append, List.cons.injEq, true_and]
  constructor
  · rintro ⟨-, rest', -, hlen, hcmd⟩
    have h4 : body.length = 4 := by
      rw [← toNat_ofNat8 hbody, hlen]
      rfl
    match body, h4 with
    | [cmd, _, _, _], _ =>
      obtain rfl : cmd = 0x02 := (List.cons.inj hcmd).1
      rfl
  · intro hread
    match body, hread with
    | [cmd, _, _, _], hread =>
      obtain rfl : cmd = 0x02 := by simpa [isReadRegBody] using hread
      exact ⟨id, _, rfl, rfl, rfl⟩

theorem writeRegRow_accepts_wireBytes :
    writeRegRow.accepts (wireBytes id body ++ rest) = true ∧ 3 ≤ ((wireBytes id body ++ rest).getD 3 0).toNat ↔
      isWriteRegBody body = true := by
  have hlen : ((wireBytes id body ++ rest).getD 3 0).toNat = body.length := toNat_ofNat8 hbody
  rw [writeRegRow_accepts_iff, hlen]
  simp only [wireBytes, List.cons_append, List.cons.injEq, true_and]
  constructor
  · rintro ⟨⟨-, -, rest', -, -, hcmd⟩, h3⟩
    match body, h3 with
    | cmd :: _ :: _ :: _, _ =>
      obtain rfl : cmd = 0x03 := (List.cons.inj hcmd).1
      rfl
  · intro hwrite
    match body, hwrite with
    | cmd :: _ :: _ :: _, hwrite =>
      obtain rfl : cmd = 0x03 := by simpa [isWriteRegBody] using hwrite
      exact ⟨⟨id, _, _, rfl, rfl, rfl⟩, by simp⟩

end

/-- What the rows say of a frame's instruction. -/
theorem classifyFrame_rows (id : Byte) (body : List Byte) :
    isWire (classifyFrame id body) = true ∧ classifyFrame id body ≠ .wireMarkerByte ∧
      (isReadRegBody body = true ↔
        ∃ id' address length checksum, classifyFrame id body = .wireReadReg id' address length checksum) ∧
      (isWriteRegBody body = true ↔
        ∃ id' address data checksum, classifyFrame id body = .wireWriteReg id' address data checksum) := by
  generalize hi : classifyFrame id body = i
  have hkind := classifyFrame_kind id body
  rw [hi] at hkind
  cases hkind with
  | readReg h => simp [h, isReadRegBody, isWriteRegBody, isWire]
  | @writeReg _ _ data h =>
    rcases data with _ | ⟨x, _ | ⟨y, data⟩⟩ <;> simp [h, isReadRegBody, isWriteRegBody, isWire]
  | frame hread hwrite => simp [hread, hwrite, isWire]

/-- Settles O4: the rows are read off the kinds of bytes that decode. -/
theorem wireRowsAgreeWithTheDecoder : Obligations.WireRowsAgreeWithTheDecoder := by
  intro bs
  refine ⟨fun h => ?_, fun h => ?_, fun i rest hd => ?_⟩
  · obtain ⟨id, rest, rfl⟩ := (readRegRow_accepts_iff bs).mp h
    exact (frameRow_accepts_iff _).mpr ⟨_, rfl⟩
  · obtain ⟨id, len, rest, rfl⟩ := (writeRegRow_accepts_iff bs).mp h
    exact (frameRow_accepts_iff _).mpr ⟨_, rfl⟩
  · rcases decode_cases hd with ⟨hhead, heq⟩ | ⟨hhead, rfl, rfl⟩ | ⟨id, body, hbody, rfl, rfl⟩
    · have hwire : isWire i = false := by
        have hne : (encode i).head? ≠ some Config.marker := fun h => hhead (by simp [heq, List.head?_append, h])
        simpa using mt (head?_encode_eq_marker_iff i).mpr hne
      have frame : frameRow.accepts bs ≠ true := fun h => by
        obtain ⟨rest, rfl⟩ := (frameRow_accepts_iff bs).mp h
        exact hhead rfl
      rw [markerByteRow_accepts_iff]
      refine ⟨by simp [hhead, hwire], by simp [frame, hwire], ⟨fun h => ?_, fun h => ?_⟩, ⟨fun h => ?_, fun h => ?_⟩⟩
      · obtain ⟨id, rest, rfl⟩ := (readRegRow_accepts_iff bs).mp h
        exact absurd rfl hhead
      · obtain ⟨_, _, _, _, rfl⟩ := h
        cases hwire
      · obtain ⟨id, len, rest, rfl⟩ := (writeRegRow_accepts_iff bs).mp h.1
        exact absurd rfl hhead
      · obtain ⟨_, _, _, _, rfl⟩ := h
        cases hwire
    · rw [markerByteRow_accepts_iff, frameRow_accepts_iff, readRegRow_accepts_iff, writeRegRow_accepts_iff]
      refine ⟨by simp [isWire], ⟨fun h => ?_, fun h => absurd rfl h.2⟩, ⟨fun h => ?_, nofun⟩, ⟨fun h => ?_, nofun⟩⟩
      · obtain ⟨r, hr⟩ := h
        obtain rfl := (List.cons.inj hr).2
        exact absurd rfl hhead
      · obtain ⟨id, r, hr⟩ := h
        obtain rfl := (List.cons.inj hr).2
        exact absurd rfl hhead
      · obtain ⟨⟨id, len, r, hr⟩, -⟩ := h
        obtain rfl := (List.cons.inj hr).2
        exact absurd rfl hhead
    · obtain ⟨hwire, hne, hread, hwrite⟩ := classifyFrame_rows id body
      refine ⟨?_, ?_, (readRegRow_accepts_wireBytes hbody id rest).trans hread,
        (writeRegRow_accepts_wireBytes hbody id rest).trans hwrite⟩
      · rw [markerByteRow_accepts_iff]
        simp [wireBytes, hwire]
      · rw [frameRow_accepts_iff]
        simp [wireBytes, hwire, hne]

end Sys2Proof.Machine
end

section
/-! PROOFS. O29, O40 to O44, O46 to O49 (R71, R81, R82, R120 to R123, R64): what verification sees of a changed region, the bytes
past the frame, and the images of the builders, of their expansions and of the general encode. -/

namespace Sys2Proof.Machine

/-! ### The guard's errors (R71) -/

/-- Settles O29: each operation starts with the guard. -/
theorem guardErrorsLeaveEverythingElse : Obligations.GuardErrorsLeaveEverythingElse := by
  intro s ref r e v off bs hv hg
  refine ⟨fun i hi => ?_, fun hm i hi => ?_⟩
  · simp only [List.mem_cons, List.not_mem_nil, or_false] at hi
    rcases hi with rfl | rfl | rfl | rfl | rfl
    · rw [exec_frameId hv, State.guarded_of_fails hg]
    · rw [exec_frameLength hv, State.guarded_of_fails hg]
    · rw [exec_framePayload hv, State.guarded_of_fails hg]
    · rw [exec_frameChecksum hv, State.guarded_of_fails hg]
    · exact exec_frameVerify_err hv (verifyError_of_fails hg)
  · simp only [List.mem_cons, List.not_mem_nil, or_false] at hi
    rcases hi with rfl | rfl | rfl
    · rw [exec_frameSetId hv hm, State.guarded_of_fails hg]
    · rw [exec_framePayloadMut hv hm, State.guarded_of_fails hg]
    · rw [exec_frameUpdateChecksum hv hm, State.guarded_of_fails hg]

/-! ### What verification sees (R81, R82) -/

/-- A verifying region does not verify with another checksum byte. -/
theorem verifyError_set_checksum {r : List Byte} {len v : Byte} (hg : guardPasses r len) (hok : verifyError r = none)
    (hne : r[len.toNat + 1]? ≠ some v) : verifyError (r.set (len.toNat + 1) v) = some .checksumMismatch := by
  have hlt := hg.checksum_lt
  have hc : r[len.toNat + 1]? = some r[len.toNat + 1] := List.getElem?_eq_getElem hlt
  rw [verifyError_of_passes hg hc] at hok
  rw [verifyError_of_passes (guardPasses_set hg hg.checksum_ne_one v) (List.getElem?_set_self hlt),
    List.take_set_of_le (le_refl _), if_neg]
  intro heq
  split at hok
  · next hstored =>
    exact hne (hc.trans (congrArg some (BitVec.eq_of_toNat_eq (hstored.trans heq.symm))))
  · cases hok

theorem xor_bit_ne (b : Byte) {k : Nat} (hk : k < 8) : b ^^^ (1#8 <<< k) ≠ b := by
  have hbit : ∀ k < 8, (1#8 <<< k) ≠ 0#8 := by decide
  intro h
  exact hbit k hk (by simpa [← BitVec.xor_assoc] using congrArg (b ^^^ ·) h)

/-- Settles O41: the flipped byte is the checksum, or one of the bytes it sums. -/
theorem oneFlippedBitIsDetected : Obligations.OneFlippedBitIsDetected := by
  intro s len b j k hg hok hj hj1 hk hb t
  have hver := (exec_frameVerify_ok_iff s.view_operand).mp hok
  have hne : s.region[j]? ≠ some (b ^^^ (1#8 <<< k)) := by
    rw [hb]
    exact fun h => xor_bit_ne b hk (Option.some.inj h).symm
  refine exec_frameVerify_err t.view_operand ?_
  rcases Nat.lt_or_ge len.toNat j with hlt | hle
  · obtain rfl : j = len.toNat + 1 := by omega
    exact verifyError_set_checksum hg hver hne
  · exact verifyError_set_of_ne hg hver hj1 hle hne

theorem guardPasses_overwrite {r v : List Byte} {len : Byte} {i : Nat} (hg : guardPasses r len) (hi : 2 ≤ i)
    (hfit : i + v.length ≤ r.length) : guardPasses (overwrite r i v) len := by
  obtain ⟨h3, h1, hpos, hlen⟩ := hg
  exact ⟨by rwa [overwrite_length hfit], by rw [getElem?_overwrite hfit, if_neg (by omega), h1], hpos,
    by rwa [overwrite_length hfit]⟩

/-- Settles O42: the mutation leaves the guard passing, and the update stores the checksum of what is then there. -/
theorem updateRestoresVerification : Obligations.UpdateRestoresVerification := by
  intro s ref r len off v hm hv hg hfit
  have hlt := hg.checksum_lt
  have hg' : guardPasses (overwrite r (2 + off) v) len := guardPasses_overwrite hg (by omega) (by omega)
  have hmut := exec_framePayloadMut_inside hv hm hg hfit
  have hv' : State.view { s.putRegion ref (overwrite r (2 + off) v) with result := some (.ok .unit) } ref =
      .bytes (overwrite r (2 + off) v) := by
    rw [State.view_result, State.view_putRegion hv hm (by omega)]
  have hupdate := exec_frameUpdateChecksum_of_passes hv' hm hg'
  refine ⟨_, _, hmut, hupdate, (exec_frameVerify_ok_iff ?_).mpr (verifyError_set_cks hg')⟩
  rw [State.view_result, State.view_putRegion hv' hm (by rw [overwrite_length (by omega)]; omega)]

/-- Verification sees the stored checksum and the sum modulo 256. -/
theorem verifyError_congr_sum {r r' : List Byte} {len : Byte} (hg : guardPasses r len) (hg' : guardPasses r' len)
    (hc : r'[len.toNat + 1]? = r[len.toNat + 1]?)
    (hsum : byteSum (r'.take (len.toNat + 1)) % 256 = byteSum (r.take (len.toNat + 1)) % 256) :
    verifyError r' = verifyError r := by
  have hget : r[len.toNat + 1]? = some r[len.toNat + 1] := List.getElem?_eq_getElem hg.checksum_lt
  rw [verifyError_of_passes hg hget, verifyError_of_passes hg' (hc.trans hget), hsum]

/-- Two summed bytes replaced by two of the same sum. -/
theorem verifyError_set_set {r : List Byte} {len x y x' y' : Byte} {i j : Nat} (hg : guardPasses r len)
    (hi : i ≤ len.toNat) (hj : j ≤ len.toNat) (hi1 : i ≠ 1) (hj1 : j ≠ 1) (hij : i ≠ j) (hx : r[i]? = some x)
    (hy : r[j]? = some y) (hsum : (x'.toNat + y'.toNat) % 256 = (x.toNat + y.toNat) % 256) :
    verifyError ((r.set i x').set j y') = verifyError r := by
  have hget {k : Nat} (hk : k ≤ len.toNat) : (r.take (len.toNat + 1))[k]? = r[k]? :=
    List.getElem?_take_of_lt (by omega)
  have hfirst := byteSum_set (r.take (len.toNat + 1)) i x' x (by rw [hget hi, hx])
  have hsecond := byteSum_set ((r.take (len.toNat + 1)).set i x') j y' y
    (by rw [List.getElem?_set_ne hij, hget hj, hy])
  refine verifyError_congr_sum hg (guardPasses_set (guardPasses_set hg hi1 x') hj1 y') ?_ ?_
  · rw [List.getElem?_set_ne (by omega), List.getElem?_set_ne (by omega)]
  · rw [List.take_set, List.take_set]
    omega

/-- Settles O43: both changes keep the sum of the two bytes modulo 256. -/
theorem sumPreservingChangesGoUnseen : Obligations.SumPreservingChangesGoUnseen := by
  intro s len x y d i j hg hi hj hi1 hj1 hij hx hy
  refine ⟨verifyError_set_set hg hi hj hi1 hj1 hij hx hy (by rw [Nat.add_comm]), ?_⟩
  refine verifyError_set_set hg hi hj hi1 hj1 hij hx hy ?_
  rw [BitVec.toNat_add, BitVec.toNat_sub]
  have := x.isLt
  have := y.isLt
  have := d.isLt
  omega

/-! ### Bytes past the frame (R71) -/

section
variable {r : List Byte} {len : Byte} (hg : guardPasses r len) (extra : List Byte)
include hg

theorem guardPasses_append : guardPasses (r ++ extra) len := by
  obtain ⟨h3, h1, hpos, hfit⟩ := hg
  exact ⟨by simp; omega, by rw [List.getElem?_append_left (by omega), h1], hpos, by simp; omega⟩

theorem take_append_of_passes {n : Nat} (hn : n ≤ len.toNat + 2) : (r ++ extra).take n = r.take n :=
  List.take_append_of_le_length (by have := hg.checksum_lt; omega)

theorem getD_append_of_passes {k : Nat} (hk : k ≤ len.toNat + 1) : (r ++ extra).getD k 0 = r.getD k 0 := by
  have := hg.checksum_lt
  rw [List.getD_eq_getElem?_getD, List.getD_eq_getElem?_getD, List.getElem?_append_left (by omega)]

theorem payloadOf_append : payloadOf (r ++ extra) = payloadOf r := by
  have hlen := declaredLength_eq hg.lengthByte
  have hlen' := declaredLength_eq (guardPasses_append hg extra).lengthByte
  have hslice (r : List Byte) : (r.drop 2).take (len.toNat - 1) = (r.take (len.toNat + 1)).drop 2 := by
    rw [List.drop_take, show len.toNat + 1 - 2 = len.toNat - 1 by omega]
  rw [payloadOf, payloadOf, hlen, hlen', hslice, hslice, take_append_of_passes hg extra (by omega)]

theorem storedChecksum_append : storedChecksum (r ++ extra) = storedChecksum r := by
  rw [storedChecksum, storedChecksum, declaredLength_eq hg.lengthByte,
    declaredLength_eq (guardPasses_append hg extra).lengthByte, getD_append_of_passes hg extra (le_refl _)]

theorem cks_append : cks (r ++ extra) = cks r := by
  rw [cks, cks, declaredLength_eq hg.lengthByte, declaredLength_eq (guardPasses_append hg extra).lengthByte,
    take_append_of_passes hg extra (by omega)]

theorem verifyError_append : verifyError (r ++ extra) = verifyError r :=
  verifyError_of_take_eq hg (take_append_of_passes hg extra (le_refl _))

theorem set_append_of_passes {k : Nat} (hk : k ≤ len.toNat + 1) (v : Byte) :
    (r ++ extra).set k v = r.set k v ++ extra := by
  have := hg.checksum_lt
  rw [List.set_append_left _ _ (by omega)]

theorem overwrite_append {i : Nat} {v : List Byte} (h : i + v.length ≤ len.toNat + 1) :
    overwrite (r ++ extra) i v = overwrite r i v ++ extra := by
  have := hg.checksum_lt
  rw [overwrite, overwrite, List.take_append_of_le_length (by omega), List.drop_append_of_le_length (by omega),
    List.append_assoc _ _ extra]

end

/-- Settles O44: every part of the region that these operations look at, or write, is the same with the bytes appended. -/
theorem bytesPastTheFrameAreIgnored : Obligations.BytesPastTheFrameAreIgnored := by
  intro s len v off bs extra hg
  have hg' := guardPasses_append hg extra
  have hv := s.view_operand
  have hv' := State.view_operand { s with region := s.region ++ extra }
  refine ⟨fun i hi => ?_, fun hfit i hi => ?_⟩
  · simp only [List.mem_cons, List.not_mem_nil, or_false] at hi
    rcases hi with rfl | rfl | rfl | rfl | rfl
    · refine ⟨_, (exec_frameId hv).trans (State.guarded_of_passes hg _ _), ?_⟩
      rw [exec_frameId hv', State.guarded_of_passes hg', getD_append_of_passes hg extra (Nat.zero_le _)]
      rfl
    · refine ⟨_, (exec_frameLength hv).trans (State.guarded_of_passes hg _ _), ?_⟩
      rw [exec_frameLength hv', State.guarded_of_passes hg', getD_append_of_passes hg extra (by omega)]
      rfl
    · refine ⟨_, (exec_framePayload hv).trans (State.guarded_of_passes hg _ _), ?_⟩
      rw [exec_framePayload hv', State.guarded_of_passes hg', payloadOf_append hg extra]
      rfl
    · refine ⟨_, (exec_frameChecksum hv).trans (State.guarded_of_passes hg _ _), ?_⟩
      rw [exec_frameChecksum hv', State.guarded_of_passes hg', storedChecksum_append hg extra]
      rfl
    · rw [exec_frameVerify hv, exec_frameVerify hv', verifyError_append hg extra]
      cases verifyError s.region with
      | none => exact ⟨_, rfl, rfl⟩
      | some e => exact ⟨_, rfl, rfl⟩
  · simp only [List.mem_cons, List.not_mem_nil, or_false] at hi
    rcases hi with rfl | rfl | rfl
    · refine ⟨_, (exec_frameSetId hv nofun v).trans (State.guarded_of_passes hg _ _), ?_⟩
      rw [exec_frameSetId hv' nofun, State.guarded_of_passes hg', set_append_of_passes hg extra (Nat.zero_le _)]
      rfl
    · refine ⟨_, exec_framePayloadMut_inside hv nofun hg hfit, ?_⟩
      have hpos := hg.one_le
      rw [exec_framePayloadMut_inside hv' nofun hg' hfit, overwrite_append hg extra (by omega)]
      rfl
    · refine ⟨_, exec_frameUpdateChecksum_of_passes hv nofun hg, ?_⟩
      rw [exec_frameUpdateChecksum_of_passes hv' nofun hg', cks_append hg extra, set_append_of_passes hg extra (le_refl _)]
      rfl

/-! ### The general encode (R123) -/

/-- R123: the bound on the payload. -/
theorem exec_frameEncode_of_long {payload : List Byte} (h : 254 < payload.length) (id : Byte) (s : State) :
    exec (.frameEncode id payload) s = .refused .payloadTooLong := by
  rw [exec, execFrameEncode, if_pos h]

section
variable {payload : List Byte} (h : payload.length ≤ 254) (id : Byte)
include h

theorem exec_frameEncode_of_le (s : State) :
    exec (.frameEncode id payload) s =
      .next { s with image := frameImage id payload, result := some (.ok (.bytes (frameImage id payload))) } := by
  rw [exec, execFrameEncode, if_neg (by omega)]
  rfl

theorem toNat_frameLength : (BitVec.ofNat 8 (payload.length + 1)).toNat = payload.length + 1 := toNat_ofNat8 (by omega)

theorem verifyError_frameImage : verifyError ((frameImage id payload).drop 2) = none :=
  verifyError_frame (toNat_frameLength h) id

end

theorem frameImage_eq {len : Byte} {payload : List Byte} (hlen : len.toNat = payload.length + 1) (id : Byte) :
    frameImage id payload =
      Config.marker :: Config.marker :: id :: len :: (payload ++ [cks (id :: len :: payload)]) := by
  rw [frameImage, ← hlen, ofNat8_toNat]
  rfl

/-- R74 on a frame. -/
theorem payloadOf_frame {len : Byte} {payload : List Byte} (hlen : len.toNat = payload.length + 1) (id c : Byte) :
    payloadOf (id :: len :: (payload ++ [c])) = payload := by
  simp [payloadOf, declaredLength, hlen]

/-- Settles O40: the image's region is a frame that verifies, and its parts are where the accessors look. -/
theorem encodedFramesReadBack : Obligations.EncodedFramesReadBack := by
  intro s id payload h
  have hlen := toNat_frameLength h
  have hg := guardPasses_frame hlen id (cks (id :: BitVec.ofNat 8 (payload.length + 1) :: payload))
  refine ⟨_, _, exec_frameEncode_of_le h id s, hlen, ?_, ?_, ?_, ?_⟩
  · rw [exec_frameId (State.view_image _)]
    exact State.guarded_of_passes hg _ _
  · rw [exec_frameLength (State.view_image _)]
    exact State.guarded_of_passes hg _ _
  · rw [exec_framePayload (State.view_image _)]
    refine (State.guarded_of_passes hg _ _).trans ?_
    rw [State.deliver]
    congr
    exact payloadOf_frame hlen id _
  · exact (exec_frameVerify_ok_iff (State.view_image _)).mpr (verifyError_frameImage h id)

/-! ### Mutators on an image (R64) -/

section
variable {s : State} {m m' : Byte} {u : List Byte} (hw : s.image = m :: m' :: u)
include hw

theorem view_image_of_eq : s.view .image = .bytes u := by
  rw [State.view_image, hw]
  rfl

theorem putRegion_image_of_eq (r : List Byte) : s.putRegion .image r = { s with image := m :: m' :: r } := by
  simp [State.putRegion, hw]

theorem exec_frameSetLength_image {v : Byte} (hpos : 1 ≤ v.toNat) (hfit : v.toNat + 2 ≤ u.length) :
    exec (.frameSetLength .image v) s =
      .next { s with image := m :: m' :: u.set 1 v, result := some (.ok .unit) } := by
  rw [exec_frameSetLength (view_image_of_eq hw) nofun, (lengthGuardError_none (by omega) hpos hfit).1,
    putRegion_image_of_eq hw]
  rfl

variable {len : Byte} (hg : guardPasses u len)
include hg

theorem exec_frameSetId_image (v : Byte) :
    exec (.frameSetId .image v) s = .next { s with image := m :: m' :: u.set 0 v, result := some (.ok .unit) } := by
  rw [exec_frameSetId (view_image_of_eq hw) nofun, State.guarded_of_passes hg, putRegion_image_of_eq hw]
  rfl

theorem exec_framePayloadMut_image {off : Nat} {v : List Byte} (h : off + v.length ≤ len.toNat - 1) :
    exec (.framePayloadMut .image off v) s =
      .next { s with image := m :: m' :: overwrite u (2 + off) v, result := some (.ok .unit) } := by
  rw [exec_framePayloadMut_inside (view_image_of_eq hw) nofun hg h, putRegion_image_of_eq hw]
  rfl

end

/-- R80 on an image whose region is a frame with any checksum: then it is the encoded frame. -/
theorem exec_frameUpdateChecksum_frame {s : State} {id len c : Byte} {payload : List Byte}
    (hlen : len.toNat = payload.length + 1)
    (hw : s.image = Config.marker :: Config.marker :: id :: len :: (payload ++ [c])) :
    exec (.frameUpdateChecksum .image) s = .next { s with image := frameImage id payload, result := some (.ok .unit) } := by
  have hg := guardPasses_frame hlen id c
  have hcks : cks (id :: len :: (payload ++ [c])) = cks (id :: len :: payload) := by
    simp [cks, declaredLength, hlen]
  have hset : (id :: len :: (payload ++ [c])).set (len.toNat + 1) (cks (id :: len :: payload)) =
      id :: len :: (payload ++ [cks (id :: len :: payload)]) := by
    simp [hlen]
  rw [exec_frameUpdateChecksum_of_passes (view_image_of_eq hw) nofun hg, putRegion_image_of_eq hw, hcks, hset,
    frameImage_eq hlen]
  rfl

/-- Bytes behind a region's first `p`, replaced. -/
theorem overwrite_append_right (p q v : List Byte) : overwrite (p ++ q) p.length v = p ++ (v ++ q.drop v.length) := by
  simp [overwrite]

/-! ### The write command (R121, R122) -/

@[simp] theorem length_freeBytes (start n : Nat) : (freeBytes start n).length = n := by
  induction n generalizing start with
  | zero => rfl
  | succ n ih => simp [freeBytes, ih]

theorem getElem?_freeBytes {start n k : Nat} (h : k < n) :
    (freeBytes start n)[k]? = some (Config.freeByte (start + k)) := by
  induction n generalizing start k with
  | zero => omega
  | succ n ih =>
    cases k with
    | zero => rfl
    | succ k => rw [freeBytes, List.getElem?_cons_succ, ih (by omega), Nat.add_assoc, Nat.add_comm 1 k]

/-- The state after `BUILD.WRITE_REG`. -/
theorem exec_buildWriteReg_of_le {dataLen : Nat} (h : dataLen ≤ 252) (id address : Byte) (s : State) :
    exec (.buildWriteReg id address dataLen) s =
      .next { s with
        image := writeRegImage id address dataLen (freeBytes s.freeCount (dataLen + 1))
        result := some (.ok (.bytes (writeRegImage id address dataLen (freeBytes s.freeCount (dataLen + 1)))))
        freeCount := s.freeCount + (dataLen + 1) } := by
  rw [exec, execBuildWriteReg, if_neg (by omega)]
  rfl

/-- The guard passes on a region with the length byte of a write command and room for it. -/
theorem guardPasses_writeReg {len : Byte} {dataLen : Nat} {u : List Byte} (hlen : len.toNat = 3 + dataLen)
    (hu : u.length = dataLen + 1) (id address : Byte) : guardPasses (id :: len :: 0x03 :: address :: u) len := by
  refine ⟨?_, rfl, by omega, ?_⟩
  · simp
  · simp only [List.length_cons]
    omega

/-- Settles O46: the free bytes are the next ones by the count. -/
theorem writeRegImageLeavesDataAndChecksumFree : Obligations.WriteRegImageLeavesDataAndChecksumFree := by
  intro s id address dataLen
  refine ⟨fun h => ?_, fun h => ?_, Laws.EncodingFirstByte.buildWriteReg id address dataLen⟩
  · rw [exec, execBuildWriteReg, if_pos h]
  · have hlen : (BitVec.ofNat 8 (3 + dataLen)).toNat = 3 + dataLen := toNat_ofNat8 (by omega)
    exact ⟨_, freeBytes s.freeCount (dataLen + 1), _, hlen, length_freeBytes _ _, fun k => getElem?_freeBytes, rfl,
      guardPasses_writeReg hlen (length_freeBytes _ _) id address, exec_buildWriteReg_of_le h id address s⟩

/-- R122: the caller's two steps behind `BUILD.WRITE_REG`. -/
theorem exists_finished_write {data : List Byte} (h : data.length ≤ 252) (id address : Byte) (s : State) :
    ∃ t1 t2 t3, exec (.buildWriteReg id address data.length) s = .next t1 ∧
      exec (.framePayloadMut .image 2 data) t1 = .next t2 ∧ exec (.frameUpdateChecksum .image) t2 = .next t3 ∧
      t3.image = frameImage id (0x03 :: address :: data) := by
  have hlen : (BitVec.ofNat 8 (3 + data.length)).toNat = 3 + data.length := toNat_ofNat8 (by omega)
  have hfree := length_freeBytes s.freeCount (data.length + 1)
  obtain ⟨c, hc⟩ : ∃ c, (freeBytes s.freeCount (data.length + 1)).drop data.length = [c] :=
    List.length_eq_one_iff.mp (by rw [List.length_drop, hfree]; omega)
  have hmut := exec_framePayloadMut_image (off := 2) (v := data)
    (s := { s with
      image := writeRegImage id address data.length (freeBytes s.freeCount (data.length + 1))
      result := some (.ok (.bytes (writeRegImage id address data.length (freeBytes s.freeCount (data.length + 1)))))
      freeCount := s.freeCount + (data.length + 1) })
    rfl (guardPasses_writeReg hlen hfree id address) (by omega)
  have hover := overwrite_append_right [id, BitVec.ofNat 8 (3 + data.length), 0x03, address]
    (freeBytes s.freeCount (data.length + 1)) data
  rw [hc] at hover
  refine ⟨_, _, _, exec_buildWriteReg_of_le h id address s, hmut,
    exec_frameUpdateChecksum_frame (len := BitVec.ofNat 8 (3 + data.length)) (payload := 0x03 :: address :: data) (c := c)
      ?_ ?_, rfl⟩
  · rw [hlen, List.length_cons, List.length_cons]
    omega
  · exact congrArg (fun r => Config.marker :: Config.marker :: r) hover

/-- Settles O47. -/
theorem finishedWriteImageIsTheEncodedFrame : Obligations.FinishedWriteImageIsTheEncodedFrame := by
  intro s id address data h
  have hpayload : (0x03 :: address :: data).length ≤ 254 := by
    simp only [List.length_cons]
    omega
  obtain ⟨t1, t2, t3, hbuild, hmut, hupdate, himage⟩ := exists_finished_write h id address s
  refine ⟨t1, t2, t3, _, hbuild, hmut, hupdate, exec_frameEncode_of_le hpayload id s, himage, ?_⟩
  refine (exec_frameVerify_ok_iff t3.view_image).mpr ?_
  rw [himage]
  exact verifyError_frameImage hpayload id

/-- R120: a read command is an encoded frame. -/
theorem readRegImage_eq_frameImage (id address length : Byte) :
    readRegImage id address length = frameImage id [0x02, address, length] := rfl

/-- Settles O48: the frame format with its checksum, and both builders as instances. -/
theorem encodeImageIsTheFrameFormat : Obligations.EncodeImageIsTheFrameFormat := by
  intro s id payload
  refine ⟨fun h => exec_frameEncode_of_long h id s, fun h => ?_, fun address length => ?_, ?_,
    Laws.EncodingFirstByte.frameEncode id payload⟩
  · have hlen := toNat_frameLength h
    refine ⟨BitVec.ofNat 8 (payload.length + 1), cks (id :: BitVec.ofNat 8 (payload.length + 1) :: payload),
      frameImage id payload, _, hlen, ?_, rfl, rfl, exec_frameEncode_of_le h id s,
      (exec_frameVerify_ok_iff (State.view_image _)).mpr (verifyError_frameImage h id)⟩
    rw [(eq_cks_frame_iff hlen id _).mp rfl]
    simp [byteSum, Nat.add_assoc]
  · rw [exec_buildReadReg, exec_frameEncode_of_le (by simp), readRegImage_eq_frameImage]
  · rintro address data t1 t2 t3 t4 rfl h1 h2 h3 h4
    have hdata : data.length ≤ 252 := by
      by_contra hlong
      have := exec_frameEncode_of_long (payload := 0x03 :: address :: data) (by simp only [List.length_cons]; omega) id s
      cases this.symm.trans h4
    obtain ⟨u1, u2, u3, hbuild, hmut, hupdate, himage⟩ := exists_finished_write hdata id address s
    cases hbuild.symm.trans h1
    cases hmut.symm.trans h2
    cases hupdate.symm.trans h3
    cases (exec_frameEncode_of_le (by simp only [List.length_cons]; omega) id s).symm.trans h4
    exact himage

/-! ### The expansions (R64) -/

/-- R64: "length first", then the id: whatever the image held, it then has this header, and the guard passes. -/
theorem exists_header_written {s : State} {id len : Byte} {u : List Byte} (hpos : 1 ≤ len.toNat)
    (hu : u.length = len.toNat + 2) (hw : s.image = Config.marker :: Config.marker :: u) :
    ∃ t1 t2 rest, exec (.frameSetLength .image len) s = .next t1 ∧ exec (.frameSetId .image id) t1 = .next t2 ∧
      rest.length = len.toNat ∧ t2.image = Config.marker :: Config.marker :: id :: len :: rest ∧
      guardPasses (id :: len :: rest) len := by
  match u, hu with
  | x :: y :: rest, hu =>
    have hrest : rest.length = len.toNat := by simpa using hu
    have hpass : ∀ b, guardPasses (b :: len :: rest) len := fun b =>
      ⟨by simp only [List.length_cons]; omega, rfl, hpos, by simp only [List.length_cons]; omega⟩
    have hset := exec_frameSetLength_image hw hpos (by simp only [List.length_cons]; omega)
    have hid := exec_frameSetId_image
      (s := { s with image := Config.marker :: Config.marker :: x :: len :: rest, result := some (.ok .unit) })
      rfl (hpass x) id
    exact ⟨_, _, rest, hset, hid, hrest, rfl, hpass id⟩

/-- Settles O49: behind the header the payload is written at its front, and the checksum last. -/
theorem expansionBuildsTheSameImage : Obligations.ExpansionBuildsTheSameImage := by
  refine ⟨fun s id len payload u hlen hu hw => ?_, fun s id address len dataLen u hlen hu hw => ?_⟩
  · have hpayload : payload.length ≤ 254 := by have := len.isLt; omega
    obtain ⟨t1, t2, rest, h1, h2, hrest, himage, hg⟩ :=
      exists_header_written (id := id) (len := len) (by omega) (by omega) hw
    obtain ⟨c, hc⟩ : ∃ c, rest.drop payload.length = [c] :=
      List.length_eq_one_iff.mp (by rw [List.length_drop]; omega)
    have h3 := exec_framePayloadMut_image (off := 0) (v := payload) himage hg (by omega)
    have hover := overwrite_append_right [id, len] rest payload
    rw [hc] at hover
    have h4 := exec_frameUpdateChecksum_frame
      (s := { t2 with
        image := Config.marker :: Config.marker :: overwrite (id :: len :: rest) (2 + 0) payload
        result := some (.ok .unit) })
      hlen (congrArg (fun r => Config.marker :: Config.marker :: r) hover)
    refine ⟨t1, t2, _, _, _, h1, h2, h3, h4, exec_frameEncode_of_le hpayload id s, rfl, ?_⟩
    rintro address length rfl
    exact ⟨_, exec_buildReadReg id address length s, rfl⟩
  · have hdata : dataLen ≤ 252 := by have := len.isLt; omega
    obtain ⟨t1, t2, rest, h1, h2, hrest, himage, hg⟩ :=
      exists_header_written (id := id) (len := len) (by omega) (by omega) hw
    have h3 := exec_framePayloadMut_image (off := 0) (v := [0x03, address]) himage hg
      (by simp only [List.length_cons, List.length_nil]; omega)
    have hover : overwrite (id :: len :: rest) (2 + 0) [0x03, address] = id :: len :: 0x03 :: address :: rest.drop 2 :=
      overwrite_append_right [id, len] rest [0x03, address]
    rw [hover] at h3
    refine ⟨t1, t2, _, _, h1, h2, h3, exec_buildWriteReg_of_le hdata id address s, ?_, ?_⟩
    · simp only [writeRegImage, List.length_cons, List.length_append, List.length_drop, List.length_nil, length_freeBytes]
      omega
    · simp [writeRegImage, ← hlen]

end Sys2Proof.Machine
end

section
/-! PROOFS. O56, O57, O59 (R131 to R142): the Slave's verification and handler, its transmission, and a Master whose response
waits. -/

namespace Sys2Proof.Machine

/-! ### The handler (R141) -/

theorem overwrite_zero (r v : List Byte) : overwrite r 0 v = v ++ r.drop v.length := by
  simp [overwrite]

section
variable {σ : Type} {slave : Slave σ} {s : State} {r : List Byte} (hphase : slave.phase = .processCommand)
  (hexp : s.asm.exposed = .bytes r) (handler : Handler σ) (link : Link)
include hphase hexp

theorem process_of_fails {f : FrameError} (h : verifyError r = some f) :
    slave.process handler s link = .ok { slave with phase := .idle } s link := by
  simp only [Slave.process, hphase, Slave.processPoll, hexp, h]

variable (h : verifyError r = none) {device : σ} {left : List Byte}
include h

theorem process_of_none (hh : handler slave.device r slave.buffer = (device, left, none)) :
    slave.process handler s link =
      .ok
        { slave with
          phase := .idle
          device := device
          buffer := overwrite slave.buffer 0 (left.take slave.buffer.length) } s link := by
  simp only [Slave.process, hphase, Slave.processPoll, hexp, h, Slave.handle, hh]

theorem process_of_some {n : Nat} (hh : handler slave.device r slave.buffer = (device, left, some n)) :
    slave.process handler s link =
      if n ≤ slave.buffer.length then
        .ok
          { phase := .sendResponse
            buffer := overwrite slave.buffer 0 (left.take slave.buffer.length)
            length := n
            offset := 0
            device := device } s link
      else .overrun := by
  have hkept : (overwrite slave.buffer 0 (left.take slave.buffer.length)).length = slave.buffer.length :=
    overwrite_length (by simp)
  simp only [Slave.process, hphase, Slave.processPoll, hexp, h, Slave.handle, hh, hkept]

end

/-- Settles O56: the buffer keeps its size, since what the handler left is cut to it. -/
theorem slaveDropsFramesThatFail : Obligations.SlaveDropsFramesThatFail := by
  intro σ handler slave s link r hphase hexp
  have hv : s.view .frame = .bytes r := hexp
  refine ⟨fun f hf => process_of_fails hphase hexp handler link ((exec_frameVerify_err_iff hv).mp hf),
    fun hok device left answer hh => ?_⟩
  have hver := (exec_frameVerify_ok_iff hv).mp hok
  have hfit : 0 + (left.take slave.buffer.length).length ≤ slave.buffer.length := by simp
  refine ⟨overwrite slave.buffer 0 (left.take slave.buffer.length), overwrite_length hfit, fun k hk => ?_, ?_, ?_⟩
  · rw [overwrite_length hfit] at hk
    rw [getElem?_overwrite hfit, Nat.sub_zero, List.getElem?_take_of_lt hk]
    by_cases hleft : k < left.length
    · rw [if_pos (by simp; omega), if_pos hleft]
    · rw [if_neg (by simp; omega), if_neg hleft]
  · rintro rfl
    exact process_of_none hphase hexp handler link hver hh
  · rintro n rfl
    exact process_of_some hphase hexp handler link hver hh

/-! ### Sending the response (R142) -/

/-- The Slave has sent `d`: it stands behind these bytes, which come back on a line that echoes. -/
structure SentBytes {σ : Type} (slave : Slave σ) (s : State) (link : Link) (d : List Byte) (slave' : Slave σ) (s' : State)
    (link' : Link) : Prop where
  sent : link'.sent = link.sent ++ d
  unsent : slave.unsent = d ++ slave'.unsent
  frame : slave' = { slave with phase := slave'.phase, offset := slave'.offset }
  asm : s'.asm = s.asm
  waiting : s'.src.waiting = s.src.waiting ++ if link.loopsBack then d else []
  loopsBack : link'.loopsBack = link.loopsBack

section
variable {σ : Type} {slave slave' slave'' : Slave σ} {s s' s'' : State} {link link' link'' : Link} {d e : List Byte}

theorem SentBytes.trans (t : SentBytes slave s link d slave' s' link') (u : SentBytes slave' s' link' e slave'' s'' link'') :
    SentBytes slave s link (d ++ e) slave'' s'' link'' := by
  refine ⟨by rw [u.sent, t.sent, List.append_assoc], by rw [t.unsent, u.unsent, List.append_assoc], ?_,
    u.asm.trans t.asm, ?_, u.loopsBack.trans t.loopsBack⟩
  · rw [u.frame, t.frame]
  · rw [u.waiting, t.waiting, t.loopsBack]
    cases link.loopsBack <;> simp

/-- Nothing sent. -/
theorem SentBytes.none (slave : Slave σ) (s : State) (link : Link) (phase : SlavePhase) (sink : List SinkReply) :
    SentBytes slave s link [] { slave with phase := phase } s { link with sink := sink } :=
  ⟨(List.append_nil _).symm, rfl, rfl, rfl, by simp, rfl⟩

/-- One write accepts the first bytes of what is unsent (R130). -/
theorem SentBytes.write (slave : Slave σ) (s : State) (link : Link) {d rest : List Byte} (h : slave.unsent = d ++ rest)
    (phase : SlavePhase) (sink : List SinkReply) :
    SentBytes slave s link d { slave.advance d with phase := phase }
      (s.echo { link with sink := sink, sent := link.sent ++ d } d) { link with sink := sink, sent := link.sent ++ d } := by
  refine ⟨rfl, ?_, rfl, ?_, ?_, rfl⟩
  · have hadvance : Slave.unsent { slave.advance d with phase := phase } = (slave.advance d).unsent := rfl
    rw [hadvance, Slave.advance_unsent, h, List.drop_left]
  · unfold State.echo
    split <;> rfl
  · unfold State.echo
    cases link.loopsBack <;> simp

end

/-- Everything a transmission can do with bytes to send: with all sent the Slave is back in `Idle`, else it stays. -/
inductive SendSpec {σ : Type} (slave : Slave σ) (s : State) (link : Link) (sink : List SinkReply) : SlaveTurn σ → Prop where
  | drained {d : List Byte} {slave' : Slave σ} {s' : State} {link' : Link}
      (bytes : SentBytes slave s link d slave' s' link') (all : slave'.unsent = []) (phase : slave'.phase = .idle) :
      SendSpec slave s link sink (.ok slave' s' link')
  | paused {d : List Byte} {slave' : Slave σ} {s' : State} {link' : Link}
      (bytes : SentBytes slave s link d slave' s' link') (some : slave'.unsent ≠ []) (phase : slave'.phase = .sendResponse)
      (choices : sink ≠ []) : SendSpec slave s link sink (.ok slave' s' link')
  | failed {d : List Byte} {slave' : Slave σ} {s' : State} {link' : Link} {e : TransportError}
      (bytes : SentBytes slave s link d slave' s' link') (phase : slave'.phase = .sendResponse) (mem : .error e ∈ sink) :
      SendSpec slave s link sink (.err (.transportWrite e) slave' s' link')

/-- A write, and the transmission that goes on from there. -/
theorem SendSpec.after {σ : Type} {slave slave' : Slave σ} {s s' : State} {link link' : Link} {d : List Byte}
    {reply : SinkReply} {later : List SinkReply} {t : SlaveTurn σ} (write : SentBytes slave s link d slave' s' link')
    (h : SendSpec slave' s' link' later t) : SendSpec slave s link (reply :: later) t := by
  cases h with
  | drained bytes all phase => exact .drained (write.trans bytes) all phase
  | paused bytes some phase _ => exact .paused (write.trans bytes) some phase (by simp)
  | failed bytes phase mem => exact .failed (write.trans bytes) phase (by simp [mem])

theorem sendLoop_spec {σ : Type} (sink : List SinkReply) {slave : Slave σ} (s : State) (link : Link)
    (hphase : slave.phase = .sendResponse) (hsome : slave.unsent ≠ []) :
    SendSpec slave s link sink (Slave.sendLoop sink slave s link) := by
  have stay : { slave with phase := SlavePhase.sendResponse } = slave := by rw [← hphase]
  induction sink generalizing slave s link with
  | nil =>
    refine .drained (SentBytes.write slave s link (rest := []) (by simp) .idle []) ?_ rfl
    exact (Slave.advance_unsent slave slave.unsent).trans (by simp)
  | cons reply later ih =>
    cases reply with
    | wouldBlock =>
      have hnone := SentBytes.none slave s link .sendResponse later
      rw [stay] at hnone
      exact .paused hnone hsome hphase (by simp)
    | error e =>
      have hnone := SentBytes.none slave s link .sendResponse later
      rw [stay] at hnone
      exact .failed hnone hphase (by simp)
    | written most =>
      have hsplit : slave.unsent = slave.unsent.take most ++ slave.unsent.drop most := (List.take_append_drop _ _).symm
      rw [Slave.sendLoop]
      split
      · next hall => exact .drained (SentBytes.write slave s link hsplit .idle later) hall rfl
      · next hrest =>
        have hwrite := SentBytes.write slave s link hsplit slave.phase later
        exact .after hwrite (ih _ _ hphase hrest (by rw [← hphase]))

theorem process_of_sendResponse {σ : Type} {slave : Slave σ} (h : slave.phase = .sendResponse) (handler : Handler σ)
    (s : State) (link : Link) :
    slave.process handler s link =
      if slave.unsent = [] then .ok { slave with phase := .idle } s link else Slave.sendLoop link.sink slave s link := by
  simp only [Slave.process, h, Slave.sendPoll]

/-- Settles O59: each write accepts the first bytes of what is unsent, and the Slave stands behind it. -/
theorem noResponseByteIsLostOrSentTwice : Obligations.NoResponseByteIsLostOrSentTwice := by
  intro σ handler slave s link hphase
  rw [process_of_sendResponse hphase]
  by_cases hnone : slave.unsent = []
  · rw [if_pos hnone]
    have b := SentBytes.none slave s link .idle link.sink
    exact ⟨_, _, _, [], .inl rfl, b.sent, b.unsent, b.frame, .inl rfl, fun _ => ⟨fun _ => hnone, fun _ => rfl⟩, b.asm,
      by simp, fun _ => hnone.symm⟩
  · rw [if_neg hnone]
    have hspec := sendLoop_spec link.sink s link hphase hnone
    generalize hturn : Slave.sendLoop link.sink slave s link = turn at hspec
    cases hspec with
    | @drained d slave' s' link' b all phase =>
      exact ⟨slave', s', link', d, .inl rfl, b.sent, b.unsent, b.frame, .inl phase,
        fun _ => ⟨fun _ => all, fun _ => phase⟩, b.asm, b.waiting, fun _ => by rw [b.unsent, all, List.append_nil]⟩
    | @paused d slave' s' link' b hrest phase choices =>
      exact ⟨slave', s', link', d, .inl rfl, b.sent, b.unsent, b.frame, .inr phase,
        fun _ => ⟨fun hidle => by simp [phase] at hidle, fun hall => absurd hall hrest⟩, b.asm, b.waiting,
        fun hsink => absurd hsink choices⟩
    | @failed d slave' s' link' e b phase mem =>
      exact ⟨slave', s', link', d, .inr ⟨e, rfl, mem, phase⟩, b.sent, b.unsent, b.frame, .inr phase, nofun, b.asm,
        b.waiting, fun hsink => by simp [hsink] at mem⟩

/-! ### A poll's answer to its consumer (R91) -/

theorem pollOnce_of_true {s t : State} (h : exec .asmRead s = .next t) (hr : t.result = some (.ok (.flag true))) :
    pollOnce s = .ready t := by
  have h' : execAsmRead s = .next t := h
  simp only [pollOnce, h', hr]

theorem pollOnce_of_false {s t : State} (h : exec .asmRead s = .next t) (hr : t.result = some (.ok (.flag false))) :
    pollOnce s = .notYet t := by
  have h' : execAsmRead s = .next t := h
  simp only [pollOnce, h', hr]

/-- A frame that waits at the front of a line that answers at once. -/
theorem exists_pollOnce_frame {s : State} {id len : Byte} {body tail : List Byte} (h : s.Inv) (hseek : s.asm.seeking)
    (hscript : s.src.script = []) (hlen : body.length = len.toNat) (hfit : body.length + 2 ≤ s.asm.cap)
    (hwait : s.src.waiting = (Config.marker :: Config.marker :: id :: len :: body) ++ tail) :
    ∃ t, pollOnce s = .ready t ∧ t.Inv ∧ t.asm.state = .completed ∧ t.asm.cap = s.asm.cap ∧
      t.asm.exposed = .bytes (id :: len :: body) ∧ t.src.waiting = tail ∧ t.src.script = [] ∧
      t.src.endless = s.src.endless := by
  have hread := exec_asmRead_frame (g := []) h hseek rfl hlen hfit hscript hwait
  exact ⟨_, pollOnce_of_true hread rfl, exec_inv h hread, rfl, rfl, exposed_completedWith _ id hlen, rfl, hscript, rfl⟩

/-! ### The Master's turns (R131 to R136) -/

section
variable {x : Exchange}

/-- A sink without choices accepts the whole command. -/
theorem turn_transmit {todo : List Byte} (hphase : x.master.phase = .transmit todo) (hne : todo ≠ [])
    (hsink : x.link.sink = []) :
    x.turn =
      Exchange.enter
        { x with
          block := x.block.echo { x.link with sent := x.link.sent ++ todo } todo
          link := { x.link with sent := x.link.sent ++ todo } } x.master.afterTransmit := by
  simp only [Exchange.turn, hphase, Exchange.transmitTurn, if_neg hne, Link.write, hsink, List.take_length, if_pos (le_refl _)]

theorem turn_receive_ready {t : State} (hphase : x.master.phase = .receive) (h : pollOnce x.block = .ready t) :
    x.turn = Exchange.finish { x with block := t } (validate x.master.id x.master.outLen t) := by
  simp only [Exchange.turn, hphase, Exchange.pollTurn, h]

theorem turn_finished {outcome : MasterOutcome} (hphase : x.master.phase = .finished outcome) : x.turn = x := by
  simp only [Exchange.turn, hphase]

theorem run_finished {outcome : MasterOutcome} (hphase : x.master.phase = .finished outcome) (n : Nat) : x.run n = x := by
  induction n with
  | zero => rfl
  | succ n ih => rw [Exchange.run, turn_finished hphase, ih]

end

/-- R135, R136: the response `[status, data]` of the requested id gives the data. -/
theorem validate_response {s : State} {id status len : Byte} {data : List Byte} {n : Nat}
    (hlen : len.toNat = (status :: data).length + 1) (hn : data.length = n)
    (hexp : s.asm.exposed =
      .bytes (id :: len :: ((status :: data) ++ [cks (id :: len :: (status :: data))]))) :
    validate id (some n) s = .ok data := by
  have hpayload := payloadOf_frame hlen id (cks (id :: len :: (status :: data)))
  rw [validate_of_valid hexp]
  · rw [responseData, hpayload]
    rfl
  · rw [validateError_read (id := id) (verifyError_frame hlen id) rfl, hpayload, if_pos (by rw [List.length_cons, hn])]

/-- A response that fits waits as a frame whose length byte is that of its body. -/
theorem length_response_body {status len c : Byte} {data : List Byte} (hlen : len.toNat = (status :: data).length + 1) :
    ((status :: data) ++ [c]).length = len.toNat := by
  rw [hlen, List.length_append]
  rfl

/-- Settles O57: the command is accepted whole, and the first poll gives the response. -/
theorem readRegisterReturnsTheData : Obligations.ReadRegisterReturnsTheData := by
  intro s link id address n status data tail h hseek hscript hwait hn hn253 hfit hsink hecho
  have hlen : (BitVec.ofNat 8 ((status :: data).length + 1)).toNat = (status :: data).length + 1 :=
    toNat_ofNat8 (by rw [List.length_cons]; omega)
  have hbody := length_response_body (c := cks (id :: BitVec.ofNat 8 ((status :: data).length + 1) :: status :: data)) hlen
  rw [frameImage_eq hlen] at hwait
  obtain ⟨t, hready, -, -, -, hexp, htail, -⟩ := exists_pollOnce_frame h hseek hscript hbody
    (by rw [List.length_append, List.length_cons, List.length_singleton]; omega) hwait
  have hfirst := turn_transmit (x := Exchange.startRead false id address n s link) rfl (by simp [readRegImage]) hsink
  have hblock : s.echo { link with sent := link.sent ++ readRegImage id address n } (readRegImage id address n) = s :=
    if_neg (by simp [hecho])
  have hvalid := validate_response hlen hn hexp
  refine ⟨_, rfl, ?_⟩
  rw [readRegister, Exchange.complete, Exchange.run, Exchange.run, hfirst, turn_receive_ready rfl (hblock.symm ▸ hready),
    run_finished rfl]
  exact ⟨congrArg MasterPhase.finished hvalid, rfl, htail⟩

end Sys2Proof.Machine
end

section
/-! PROOFS. O60 (R143, R146): a Master that reads registers of a Slave, in every order of moves, by an invariant over the phase of
the Master and how far the Slave has come. -/

namespace Sys2Proof.Machine

/-! ### An end of the line that answers at once (entry 8) -/

/-- An end of the line at which `w` waits, and its assembler looks for a frame. -/
structure State.Waits (s : State) (w : List Byte) : Prop where
  inv : s.Inv
  seeking : s.asm.seeking
  script : s.src.script = []
  endless : s.src.endless = none
  waiting : s.src.waiting = w

theorem State.quiet.waits {s : State} {room : Nat} (h : s.quiet room) : s.Waits [] :=
  ⟨h.1, h.2.1, h.2.2.2.1, h.2.2.2.2.1, h.2.2.1⟩

theorem State.Waits.hear {s : State} {w : List Byte} (h : s.Waits w) (bs : List Byte) : (s.hear bs).Waits (w ++ bs) :=
  ⟨h.inv, h.seeking, h.script, h.endless, by rw [State.hear_src, Source.arrive_waiting, h.waiting]⟩

theorem State.hear_nil (s : State) : s.hear [] = s := by
  simp [State.hear, Source.arrive]

theorem Source.read_dry {n : Nat} {src : Source} (hscript : src.script = []) (he : src.endless = none)
    (hwait : src.waiting = []) : src.read n = (.wouldBlock, src) := by
  simp [Source.read, hscript, Source.topUp_finite n he, hwait]

/-- Where nothing waits, a poll leaves everything as it is (R99). -/
theorem State.Waits.pollOnce_nil {s : State} (h : s.Waits []) :
    pollOnce s = .notYet { s with result := some (.ok (.flag false)) } := by
  have hread := Source.read_dry (n := s.asm.requestSize) h.script h.endless h.waiting
  have hpoll := (emptyAnswerEndsThePollUnchanged s h.inv (.inl (congrArg Prod.fst hread))).2
  rw [hread] at hpoll
  exact pollOnce_of_false hpoll rfl

/-- A frame at the front of what waits. -/
theorem State.Waits.pollOnce_frame {s : State} {id len : Byte} {body tail : List Byte}
    (h : s.Waits ((Config.marker :: Config.marker :: id :: len :: body) ++ tail)) (hlen : body.length = len.toNat)
    (hfit : body.length + 2 ≤ s.asm.cap) :
    ∃ t, pollOnce s = .ready t ∧ t.Waits tail ∧ t.asm.cap = s.asm.cap ∧
      t.asm.exposed = .bytes (id :: len :: body) := by
  obtain ⟨t, hready, hinv, hst, hcap, hexp, htail, hscript, hendless⟩ :=
    exists_pollOnce_frame h.inv h.seeking h.script hlen hfit h.waiting
  exact ⟨t, hready, ⟨hinv, .inr hst, hscript, hendless.trans h.endless, htail⟩, hcap, hexp⟩

/-! ### The exchange (R124, R146) -/

/-- A read of registers: the device's id and registers, the status byte it answers with, and what the Master asks for. -/
structure Reading where
  regs : Byte → Byte
  own : Byte
  status : Byte
  address : Byte
  count : Byte
  echoBack : Bool

namespace Reading

def command (q : Reading) : List Byte := readRegImage q.own q.address q.count

def data (q : Reading) : List Byte := registerData q.regs q.address q.count.toNat

def response (q : Reading) : List Byte := frameImage q.own (q.status :: q.data)

def handler (q : Reading) : Handler Unit := registerHandler q.own q.status q.regs

@[simp] theorem length_data (q : Reading) : q.data.length = q.count.toNat := by
  simp [data, registerData]

theorem length_response (q : Reading) : q.response.length = q.count.toNat + 6 := by
  simp [response, frameImage]

theorem response_ne_nil (q : Reading) : q.response ≠ [] := by
  simp [response, frameImage]

end Reading

/-- How far the Slave has come. -/
inductive SlaveStage where
  /-- the command is not sent yet -/
  | silent
  /-- the command waits at the Slave -/
  | asked
  /-- the Slave has taken the command's frame -/
  | processing
  /-- the response is staged -/
  | sending
  /-- the response was sent -/
  | answered

namespace SlaveStage

/-- One poll further. -/
def next : SlaveStage → SlaveStage
  | .silent => .silent
  | .asked => .processing
  | .processing => .sending
  | .sending => .answered
  | .answered => .answered

/-- What waits at the Slave. -/
def asks (q : Reading) : SlaveStage → List Byte
  | .asked => q.command
  | _ => []

/-- What the Slave has sent. -/
def answer (q : Reading) : SlaveStage → List Byte
  | .answered => q.response
  | _ => []

/-- The phase of the Slave, with the frame it looks at, or what it has to send. -/
def Holds (q : Reading) (slave : Slave Unit) (s : State) : SlaveStage → Prop
  | .processing => slave.phase = .processCommand ∧ s.asm.exposed = .bytes (q.command.drop 2)
  | .sending => slave.phase = .sendResponse ∧ slave.unsent = q.response
  | _ => slave.phase = .idle

end SlaveStage

namespace Reading

/-- What waits at the Master, by its phase: the echo of the command, if it is not discarded yet, and the response. -/
def hears (q : Reading) (m : MasterPhase) (f : SlaveStage) : List Byte :=
  match m with
  | .discardEcho => q.command ++ f.answer q
  | .receive => f.answer q
  | _ => []

/-- The Master in phase `m` and the Slave at stage `f`. -/
structure At (q : Reading) (m : MasterPhase) (f : SlaveStage) (b : Bus Unit) : Prop where
  master : b.near.master = { phase := m, echoBack := q.echoBack, id := q.own, outLen := some q.count.toNat }
  nearSink : b.near.link.sink = []
  nearEcho : b.near.link.loopsBack = q.echoBack
  nearLine : (∀ outcome, m ≠ .finished outcome) →
    b.near.block.Waits (q.hears m f) ∧ q.count.toNat + 4 ≤ b.near.block.asm.cap ∧
      (q.echoBack = true → 6 ≤ b.near.block.asm.cap)
  echo : m = .discardEcho → q.echoBack = true
  farSink : b.farLink.sink = []
  farEcho : b.farLink.loopsBack = false
  farLine : b.far.Waits (f.asks q)
  farCap : 6 ≤ b.far.asm.cap
  room : q.count.toNat + 6 ≤ b.slave.buffer.length
  count_le : q.count.toNat ≤ 253
  slave : f.Holds q b.slave b.far

variable {q : Reading} {m : MasterPhase} {f : SlaveStage} {b : Bus Unit}

/-! ### The frames on the line -/

theorem command_eq (q : Reading) :
    q.command = Config.marker :: Config.marker :: q.own :: 4 ::
      [0x02, q.address, q.count, cks [q.own, 4, 0x02, q.address, q.count]] := rfl

theorem command_ne_nil (q : Reading) : q.command ≠ [] := by
  simp [command_eq]

/-- The command at the front of what waits. -/
theorem pollOnce_command {s : State} {tail : List Byte} (h : s.Waits (q.command ++ tail)) (hcap : 6 ≤ s.asm.cap) :
    ∃ t, pollOnce s = .ready t ∧ t.Waits tail ∧ t.asm.cap = s.asm.cap ∧ t.asm.exposed = .bytes (q.command.drop 2) :=
  State.Waits.pollOnce_frame h rfl hcap

/-- The response: then validation gives the data. -/
theorem pollOnce_response {s : State} {tail : List Byte} (h : s.Waits (q.response ++ tail)) (hcount : q.count.toNat ≤ 253)
    (hcap : q.count.toNat + 4 ≤ s.asm.cap) :
    ∃ t, pollOnce s = .ready t ∧ validate q.own (some q.count.toNat) t = .ok q.data := by
  have hlen : (BitVec.ofNat 8 ((q.status :: q.data).length + 1)).toNat = (q.status :: q.data).length + 1 :=
    toNat_ofNat8 (by rw [List.length_cons, length_data]; omega)
  rw [response, frameImage_eq hlen] at h
  obtain ⟨t, hready, -, -, hexp⟩ := h.pollOnce_frame (length_response_body hlen)
    (by rw [length_response_body hlen, hlen, List.length_cons, length_data]; omega)
  exact ⟨t, hready, validate_response hlen q.length_data hexp⟩

/-! ### The Master's moves -/

theorem newlySent_append {before after : Link} {d : List Byte} (h : after.sent = before.sent ++ d) :
    before.newlySent after = d := by
  rw [Link.newlySent, h, List.drop_left]

/-- A turn that sends nothing leaves the Slave's end alone. -/
theorem masterMove_of_sent_eq (h : b.near.turn.link.sent = b.near.link.sent) :
    b.masterMove = { b with near := b.near.turn } := by
  rw [Bus.masterMove, newlySent_append (d := []) (by rw [h, List.append_nil]), State.hear_nil]

/-- R131 step 1, R133: the whole command is sent, and comes back on a line that echoes. -/
theorem At.masterMove_transmit (h : q.At (.transmit q.command) .silent b) :
    q.At (if q.echoBack then .discardEcho else .receive) .asked b.masterMove := by
  have hphase : b.near.master.phase = .transmit q.command := by rw [h.master]
  obtain ⟨hwaits, hcap, hcap6⟩ := h.nearLine nofun
  have hturn := turn_transmit hphase q.command_ne_nil h.nearSink
  have hecho : b.near.master.echoBack = q.echoBack := by rw [h.master]
  have hsent : b.near.turn.link = { b.near.link with sent := b.near.link.sent ++ q.command } := by rw [hturn]; rfl
  have hmaster : b.near.turn.master =
      { b.near.master with phase := if q.echoBack then .discardEcho else .receive } := by
    rw [hturn, ← hecho]
    rfl
  have hblock : b.near.turn.block = if q.echoBack then b.near.block.hear q.command else b.near.block := by
    rw [hturn, ← h.nearEcho]
    rfl
  have hfar : b.masterMove.far = b.far.hear q.command := by
    rw [Bus.masterMove, newlySent_append (d := q.command) (by rw [hsent])]
  refine
    { master := hmaster.trans (by rw [h.master])
      nearSink := by rw [Bus.masterMove, hsent]; exact h.nearSink
      nearEcho := by rw [Bus.masterMove, hsent]; exact h.nearEcho
      nearLine := fun _ => ?_
      echo := fun hm => by by_contra hno; simp [hno] at hm
      farSink := h.farSink
      farEcho := h.farEcho
      farLine := hfar ▸ h.farLine.hear q.command
      farCap := hfar ▸ h.farCap
      room := h.room
      count_le := h.count_le
      slave := h.slave }
  rw [show b.masterMove.near.block = b.near.turn.block from rfl, hblock]
  by_cases hecho : q.echoBack = true
  · rw [if_pos hecho, if_pos hecho]
    exact ⟨by simpa [hears, SlaveStage.answer] using hwaits.hear q.command, hcap, hcap6⟩
  · rw [if_neg hecho, if_neg hecho]
    exact ⟨hwaits, hcap, hcap6⟩

/-- A turn after the transmission leaves the Slave's end alone, and the Master's end of the line as it is. -/
theorem At.masterMove_of_turn {m' : MasterPhase} (h : q.At m f b)
    (hmaster : b.near.turn.master = { b.near.master with phase := m' })
    (hsent : b.near.turn.link.sent = b.near.link.sent) (hsink : b.near.turn.link.sink = b.near.link.sink)
    (hloops : b.near.turn.link.loopsBack = b.near.link.loopsBack) (hecho : m' ≠ .discardEcho)
    (hline : (∀ outcome, m' ≠ .finished outcome) →
      b.near.turn.block.Waits (q.hears m' f) ∧ b.near.turn.block.asm.cap = b.near.block.asm.cap ∧
        ∀ outcome, m ≠ .finished outcome) : q.At m' f b.masterMove := by
  rw [masterMove_of_sent_eq hsent]
  exact
    { h with
      master := hmaster.trans (by rw [h.master])
      nearSink := hsink.trans h.nearSink
      nearEcho := hloops.trans h.nearEcho
      nearLine := fun hm' => by
        obtain ⟨hwaits, hcap, hm⟩ := hline hm'
        obtain ⟨-, hroom, hroom6⟩ := h.nearLine hm
        exact ⟨hwaits, hcap ▸ hroom, hcap ▸ hroom6⟩
      echo := fun hm' => absurd hm' hecho }

/-- R133: the echo is read and dropped. -/
theorem At.masterMove_discardEcho (h : q.At .discardEcho f b) : q.At .receive f b.masterMove := by
  have hphase : b.near.master.phase = .discardEcho := by rw [h.master]
  obtain ⟨hwaits, -, hcap6⟩ := h.nearLine nofun
  obtain ⟨t, hready, htail, hcap, -⟩ := pollOnce_command hwaits (hcap6 (h.echo rfl))
  have hturn : b.near.turn = Exchange.enter { b.near with block := t } .receive := by
    simp only [Exchange.turn, hphase, Exchange.pollTurn, hready]
  exact h.masterMove_of_turn (by rw [hturn]; rfl) (by rw [hturn]; rfl) (by rw [hturn]; rfl) (by rw [hturn]; rfl) nofun
    fun _ => by rw [hturn]; exact ⟨htail, hcap, nofun⟩

/-- R134 to R136: the response is read, validated and copied. -/
theorem At.masterMove_answered (h : q.At .receive .answered b) : q.At (.finished (.ok q.data)) .answered b.masterMove := by
  have hphase : b.near.master.phase = .receive := by rw [h.master]
  obtain ⟨hwaits, hcap, -⟩ := h.nearLine nofun
  obtain ⟨t, hready, hvalid⟩ := pollOnce_response (tail := []) (by rw [List.append_nil]; exact hwaits) h.count_le hcap
  have hturn := turn_receive_ready hphase hready
  rw [h.master, hvalid] at hturn
  exact h.masterMove_of_turn (by rw [hturn, h.master]; rfl) (by rw [hturn]; rfl) (by rw [hturn]; rfl) (by rw [hturn]; rfl)
    nofun fun hm => absurd rfl (hm _)

/-- R132: without a response, the timeout predicate decides. -/
theorem At.masterMove_waiting (h : q.At .receive f b) (hf : f.answer q = []) :
    q.At .receive f b.masterMove ∨ q.At (.finished (.err .timedOut)) f b.masterMove := by
  have hphase : b.near.master.phase = .receive := by rw [h.master]
  obtain ⟨hwaits, -, -⟩ := h.nearLine nofun
  have hnil : b.near.block.Waits [] := by rwa [hears, hf] at hwaits
  have hturn : b.near.turn =
      Exchange.askTimeout { b.near with block := { b.near.block with result := some (.ok (.flag false)) } } := by
    simp only [Exchange.turn, hphase, Exchange.pollTurn, hnil.pollOnce_nil]
  unfold Exchange.askTimeout at hturn
  split at hturn
  · exact .inr (h.masterMove_of_turn (by rw [hturn]; rfl) (by rw [hturn]; rfl) (by rw [hturn]; rfl) (by rw [hturn]; rfl)
      nofun fun hm => absurd rfl (hm _))
  · exact .inr (h.masterMove_of_turn (by rw [hturn]; rfl) (by rw [hturn]; rfl) (by rw [hturn]; rfl) (by rw [hturn]; rfl)
      nofun fun hm => absurd rfl (hm _))
  · refine .inl (h.masterMove_of_turn (by rw [hturn, h.master]) (by rw [hturn]) (by rw [hturn]) (by rw [hturn])
      nofun fun _ => ?_)
    rw [hturn, hears, hf]
    exact ⟨⟨hnil.inv, hnil.seeking, hnil.script, hnil.endless, hnil.waiting⟩, rfl, nofun⟩

theorem At.masterMove_finished {outcome : MasterOutcome} (h : q.At (.finished outcome) f b) :
    q.At (.finished outcome) f b.masterMove := by
  have hturn := turn_finished (x := b.near) (by rw [h.master])
  exact h.masterMove_of_turn (by rw [hturn, h.master]) (by rw [hturn]) (by rw [hturn]) (by rw [hturn]) nofun
    fun hm => absurd rfl (hm _)

/-! ### The Slave's moves -/

/-- A poll of the Slave that sends `d`, which the Master then has behind what waits there. -/
theorem At.slaveMove_of_process {f' : SlaveStage} {slave : Slave Unit} {s : State} {link : Link} {d : List Byte}
    (h : q.At m f b) (hprocess : b.slave.process q.handler b.far b.farLink = .ok slave s link)
    (hsent : link.sent = b.farLink.sent ++ d) (hsink : link.sink = []) (hloops : link.loopsBack = false)
    (hanswer : f'.answer q = f.answer q ++ d) (hm : ∀ todo, m = .transmit todo → d = []) (hline : s.Waits (f'.asks q))
    (hcap : s.asm.cap = b.far.asm.cap) (hroom : slave.buffer.length = b.slave.buffer.length)
    (hslave : f'.Holds q slave s) : q.At m f' (b.slaveMove q.handler) := by
  have hmove : b.slaveMove q.handler = b.slaveMoved slave s link := by simp only [Bus.slaveMove, hprocess]
  rw [hmove]
  refine
    { master := h.master
      nearSink := h.nearSink
      nearEcho := h.nearEcho
      nearLine := fun hne => ?_
      echo := h.echo
      farSink := hsink
      farEcho := hloops
      farLine := hline
      farCap := hcap ▸ h.farCap
      room := hroom ▸ h.room
      count_le := h.count_le
      slave := hslave }
  obtain ⟨hwaits, hroom⟩ := h.nearLine hne
  refine ⟨?_, hroom⟩
  rw [show (b.slaveMoved slave s link).near.block = b.near.block.hear d by
    rw [Bus.slaveMoved, newlySent_append hsent]]
  have hhears : q.hears m f' = q.hears m f ++ d := by
    cases m with
    | transmit todo => rw [hm todo rfl]; rfl
    | discardEcho => simp only [hears, hanswer, List.append_assoc]
    | receive => exact hanswer
    | finished outcome => exact absurd rfl (hne outcome)
  rw [hhears]
  exact hwaits.hear d

/-- A Slave that waits and hears nothing. -/
theorem At.slaveMove_idle (h : q.At m f b) (hphase : b.slave.phase = .idle) (hasks : f.asks q = [])
    (hholds : ∀ s, f.Holds q b.slave s) : q.At m f (b.slaveMove q.handler) := by
  have hwaits := h.farLine
  rw [hasks] at hwaits
  refine h.slaveMove_of_process (s := { b.far with result := some (.ok (.flag false)) }) (d := []) ?_
    (List.append_nil _).symm h.farSink h.farEcho (List.append_nil _).symm (fun _ _ => rfl) ?_ rfl rfl (hholds _)
  · simp only [Slave.process, hphase, Slave.idlePoll, hwaits.pollOnce_nil]
  · rw [hasks]
    exact ⟨hwaits.inv, hwaits.seeking, hwaits.script, hwaits.endless, hwaits.waiting⟩

/-- R140: the command's frame completes. -/
theorem At.slaveMove_asked (h : q.At m .asked b) : q.At m .processing (b.slaveMove q.handler) := by
  have hphase : b.slave.phase = .idle := h.slave
  have hwaits := h.farLine
  rw [SlaveStage.asks, ← List.append_nil q.command] at hwaits
  obtain ⟨t, hready, htail, hcap, hexp⟩ := pollOnce_command hwaits h.farCap
  refine h.slaveMove_of_process (slave := { b.slave with phase := .processCommand }) (s := t) (d := []) ?_
    (List.append_nil _).symm h.farSink h.farEcho (List.append_nil _).symm (fun _ _ => rfl) htail hcap rfl ⟨rfl, hexp⟩
  simp only [Slave.process, hphase, Slave.idlePoll, hready]

/-- R146, entry 23: the device answers the command with the response, at the front of its buffer. -/
theorem handler_command (q : Reading) {buffer : List Byte} (hcount : q.count.toNat ≤ 253)
    (hroom : q.count.toNat + 6 ≤ buffer.length) :
    q.handler () (q.command.drop 2) buffer = ((), overwrite buffer 0 q.response, some (q.count.toNat + 6)) :=
  if_pos ⟨rfl, rfl, hcount, hroom⟩

/-- R141: the response is staged. -/
theorem At.slaveMove_processing (h : q.At m .processing b) : q.At m .sending (b.slaveMove q.handler) := by
  obtain ⟨hphase, hexp⟩ := h.slave
  have hfit : 0 + q.response.length ≤ b.slave.buffer.length := by
    rw [q.length_response, Nat.zero_add]
    exact h.room
  have hlength : (overwrite b.slave.buffer 0 q.response).length = b.slave.buffer.length := overwrite_length hfit
  have hkept : overwrite b.slave.buffer 0 ((overwrite b.slave.buffer 0 q.response).take b.slave.buffer.length) =
      overwrite b.slave.buffer 0 q.response := by
    rw [← hlength, List.take_length, overwrite_zero b.slave.buffer (overwrite _ _ _), hlength, List.drop_length,
      List.append_nil]
  have hprocess := process_of_some hphase hexp q.handler b.farLink
    (verifyError_readRegImage q.own q.address q.count) (handler_command q h.count_le h.room)
  rw [if_pos h.room, hkept] at hprocess
  refine h.slaveMove_of_process (d := []) hprocess (List.append_nil _).symm h.farSink h.farEcho rfl (fun _ _ => rfl)
    h.farLine rfl hlength ⟨rfl, ?_⟩
  rw [Slave.unsent, Slave.staged, List.drop_zero, overwrite_zero, ← q.length_response, List.take_left]

/-- R142: the response is sent whole. -/
theorem At.slaveMove_sending (h : q.At m .sending b) (hm : ∀ todo, m ≠ .transmit todo) :
    q.At m .answered (b.slaveMove q.handler) := by
  obtain ⟨hphase, hunsent⟩ := h.slave
  have hprocess := process_of_sendResponse hphase q.handler b.far b.farLink
  rw [if_neg (by rw [hunsent]; exact q.response_ne_nil), h.farSink, Slave.sendLoop, hunsent,
    show b.far.echo b.farLink q.response = b.far from if_neg (by simp [h.farEcho])] at hprocess
  exact h.slaveMove_of_process (d := q.response) hprocess rfl rfl h.farEcho rfl (fun todo ht => absurd ht (hm todo))
    h.farLine rfl rfl rfl

/-- Each poll takes the Slave to its next stage. -/
theorem At.slaveMove (h : q.At m f b) (hm : ∀ todo, m = .transmit todo → f = .silent) :
    q.At m f.next (b.slaveMove q.handler) := by
  cases f with
  | silent => exact h.slaveMove_idle h.slave rfl fun _ => h.slave
  | asked => exact h.slaveMove_asked
  | processing => exact h.slaveMove_processing
  | sending => exact h.slaveMove_sending fun todo ht => by cases hm todo ht
  | answered => exact h.slaveMove_idle h.slave rfl fun _ => h.slave

/-! ### Every order of moves -/

/-- The phases and stages that a run can reach. -/
inductive Reaches (q : Reading) (b : Bus Unit) : Prop where
  | transmit (h : q.At (.transmit q.command) .silent b)
  | discardEcho {f : SlaveStage} (h : q.At .discardEcho f b)
  | receive {f : SlaveStage} (h : q.At .receive f b)
  | finished {f : SlaveStage} {outcome : MasterOutcome} (h : q.At (.finished outcome) f b)
      (data : outcome = .err .timedOut ∨ outcome = .ok q.data)

theorem Reaches.move (h : q.Reaches b) (who : Mover) : q.Reaches (b.move q.handler who) := by
  cases who with
  | slave =>
    cases h with
    | transmit h => exact .transmit (h.slaveMove fun _ _ => rfl)
    | discardEcho h => exact .discardEcho (h.slaveMove nofun)
    | receive h => exact .receive (h.slaveMove nofun)
    | finished h hdata => exact .finished (h.slaveMove nofun) hdata
  | master =>
    cases h with
    | transmit h =>
      have hmove := h.masterMove_transmit
      by_cases hecho : q.echoBack = true
      · rw [if_pos hecho] at hmove
        exact .discardEcho hmove
      · rw [if_neg hecho] at hmove
        exact .receive hmove
    | discardEcho h => exact .receive h.masterMove_discardEcho
    | @receive f h =>
      cases f with
      | answered => exact .finished h.masterMove_answered (.inr rfl)
      | _ => exact (h.masterMove_waiting rfl).elim .receive fun ht => .finished ht (.inl rfl)
    | finished h hdata => exact .finished h.masterMove_finished hdata

theorem Reaches.run (h : q.Reaches b) (moves : List Mover) : q.Reaches (b.run q.handler moves) := by
  induction moves generalizing b with
  | nil => exact h
  | cons who later ih => exact ih (h.move who)

/-- Only with the data or the timed-out error does the exchange finish. -/
theorem Reaches.outcome {outcome : MasterOutcome} (h : q.Reaches b) (hphase : b.near.master.phase = .finished outcome) :
    outcome = .err .timedOut ∨ outcome = .ok q.data := by
  cases h with
  | transmit h => simp [h.master] at hphase
  | discardEcho h => simp [h.master] at hphase
  | receive h => simp [h.master] at hphase
  | finished h hdata =>
    rw [h.master] at hphase
    cases hphase
    exact hdata

/-- With three polls of the Slave behind the Master's command, the exchange finishes with the data. -/
theorem At.schedule (h : q.At (.transmit q.command) .silent b) :
    (b.run q.handler ([.master, .slave, .slave, .slave] ++ if q.echoBack then [.master, .master] else [.master])).near.master.phase =
      .finished (.ok q.data) := by
  have hsent := h.masterMove_transmit
  by_cases hecho : q.echoBack = true
  · rw [if_pos hecho] at hsent ⊢
    have hanswered := ((hsent.slaveMove nofun).slaveMove nofun).slaveMove nofun
    exact congrArg Master.phase hanswered.masterMove_discardEcho.masterMove_answered.master
  · rw [if_neg hecho] at hsent ⊢
    have hanswered := ((hsent.slaveMove nofun).slaveMove nofun).slaveMove nofun
    exact congrArg Master.phase hanswered.masterMove_answered.master

end Reading

/-- Settles O60: the bus starts with the command to be sent and the Slave silent, and every move keeps to the reachable phases
and stages. -/
theorem masterReadsTheSlavesRegisters : Obligations.MasterReadsTheSlavesRegisters := by
  intro regs own status address count echoBack b moves hmaster hnear hcap6 hfar hsink hloops hfarSink hfarLoops hslave hcount
    hroom
  have hstart : Reading.At { regs, own, status, address, count, echoBack } (.transmit (readRegImage own address count)) .silent
      b :=
    { master := hmaster
      nearSink := hsink
      nearEcho := hloops
      nearLine := fun _ => ⟨hnear.waits, hnear.2.2.2.2.2, hcap6⟩
      echo := nofun
      farSink := hfarSink
      farEcho := hfarLoops
      farLine := hfar.waits
      farCap := hfar.2.2.2.2.2
      room := hroom
      count_le := hcount
      slave := hslave }
  refine ⟨fun outcome hphase => ((Reading.Reaches.transmit hstart).run moves).outcome hphase, ?_⟩
  rintro rfl
  exact hstart.schedule

end Sys2Proof.Machine
end
